-- ==== Sys2Proof/Word.lean ====
section
/-! DEFINITION. The word types of the sequencer and their plainest arithmetic
(00_scope.md R3 and R6; 45_conditions.md R208). -/

namespace Sys2Proof

/-- A program-memory address: the program counter, the PC-stack words, jump and loop-end addresses (R3). -/
abbrev Addr := BitVec 14

/-- The loop counter and the words of the count stack (R16, R20). -/
abbrev Count := BitVec 14

/-- A value on the DMD bus, `W_DMD` = 16 bits (R5, R18). -/
abbrev Bus := BitVec 16

/-- An instruction word, `W_INSN` = 24 bits (R5, R52). -/
abbrev Insn := BitVec 24

/-- A byte of program memory as `Host.Cell` holds it. -/
abbrev Byte := BitVec 8

/-- The PC incrementer, `inc(a) = (a + 1) mod 2^14` (R11). -/
abbrev inc (a : Addr) : Addr := a + 1

end Sys2Proof
end

