-- ==== Sys2Proof/Syntax.lean ====
section
/-! DEFINITION. The instructions: one constructor of `Instr` for each row of spec/opcode_table.json,
and the types of their operands (30_encoding.md). -/

namespace Sys2Proof

/-- The conditions of an `IF` clause with an ASTAT or counter test (45_conditions.md R201), in the
order of their codes 0 to 14 (30_encoding.md R81). Code 15 is the unconditional form. -/
inductive Cond where
  | eq | ne | gt | le | lt | ge | av | notAv | ac | notAc | neg | pos | mv | notMv | notCe
deriving DecidableEq, Repr

/-- The termination conditions of DO UNTIL (42_do_until.md R133), in the order of their codes
0 to 15 (30_encoding.md R81). -/
inductive Term where
  | ne | eq | le | gt | ge | lt | notAv | av | notAc | ac | pos | neg | notMv | mv | ce | forever
deriving DecidableEq, Repr

/-- The index registers of an indirect jump or call (41_jump_call_return.md R113). -/
inductive IReg where
  | i4 | i5 | i6 | i7
deriving DecidableEq, Repr

/-- The divisors of `IDLE (n)` (43_idle_nop.md R163). -/
inductive Divisor where
  | n16 | n32 | n64 | n128
deriving DecidableEq, Repr

/-- The register names of a Type 17 or Type 7 word (30_encoding.md R80), group by group. -/
inductive Reg where
  | ax0 | ax1 | mx0 | mx1 | ay0 | ay1 | my0 | my1 | si | se | ar | mr0 | mr1 | mr2 | sr0 | sr1
  | i0 | i1 | i2 | i3 | m0 | m1 | m2 | m3 | l0 | l1 | l2 | l3
  | i4 | i5 | i6 | i7 | m4 | m5 | m6 | m7 | l4 | l5 | l6 | l7
  | astat | mstat | sstat | imask | icntl | cntr | sb | px | rx0 | tx0 | rx1 | tx1
  | ifc | owrcntr | toppcstack
deriving DecidableEq, Repr, Inhabited

/-- The seven two-bit fields of a mode-control word, most significant first (30_encoding.md R79):
0b11 enables the mode, 0b10 disables it, 0b00 and 0b01 leave it. -/
structure ModeFields where
  ti : BitVec 2
  mm : BitVec 2
  as : BitVec 2
  ol : BitVec 2
  br : BitVec 2
  sr : BitVec 2
  gm : BitVec 2
deriving DecidableEq, Repr

/-- The instructions, one constructor for each row of spec/opcode_table.json, in its order. -/
inductive Instr where
  | jump (addr : Addr)
  | ifJump (cond : Cond) (addr : Addr)
  | call (addr : Addr)
  | ifCall (cond : Cond) (addr : Addr)
  | doUntil (fin : Addr) (term : Term)
  | jumpInd (ix : IReg)
  | ifJumpInd (cond : Cond) (ix : IReg)
  | callInd (ix : IReg)
  | ifCallInd (cond : Cond) (ix : IReg)
  | rts
  | ifRts (cond : Cond)
  | rti
  | ifRti (cond : Cond)
  | flagInJump (addr : Addr)
  | notFlagInJump (addr : Addr)
  | flagInCall (addr : Addr)
  | notFlagInCall (addr : Addr)
  | nop
  | idle
  | idleN (n : Divisor)
  | popPc (lp cp : Bool) (spp : BitVec 2)
  | popLoop (pp cp : Bool) (spp : BitVec 2)
  | popCntr (pp lp : Bool) (spp : BitVec 2)
  | pushSts (pp lp cp : Bool)
  | popSts (pp lp cp : Bool)
  | enaInts
  | disInts
  | enaTimer (f : ModeFields)
  | disTimer (f : ModeFields)
  | enaMMode (f : ModeFields)
  | disMMode (f : ModeFields)
  | enaArSat (f : ModeFields)
  | disArSat (f : ModeFields)
  | enaAvLatch (f : ModeFields)
  | disAvLatch (f : ModeFields)
  | enaBitRev (f : ModeFields)
  | disBitRev (f : ModeFields)
  | enaSecReg (f : ModeFields)
  | disSecReg (f : ModeFields)
  | enaGMode (f : ModeFields)
  | disGMode (f : ModeFields)
  | fromAstat (dst : Reg)
  | toAstat (src : Reg)
  | fromMstat (dst : Reg)
  | toMstat (src : Reg)
  | fromSstat (dst : Reg)
  | fromImask (dst : Reg)
  | toImask (src : Reg)
  | fromIcntl (dst : Reg)
  | toIcntl (src : Reg)
  | fromCntr (dst : Reg)
  | toCntr (src : Reg)
  | toIfc (src : Reg)
  | toOwrcntr (src : Reg)
  | fromToppcstack (dst : Reg)
  | toToppcstack (src : Reg)
  | astatConst (data : BitVec 14)
  | mstatConst (data : BitVec 14)
  | imaskConst (data : BitVec 14)
  | icntlConst (data : BitVec 14)
  | cntrConst (data : BitVec 14)
  | ifcConst (data : BitVec 14)
  | owrcntrConst (data : BitVec 14)
deriving DecidableEq, Repr

end Sys2Proof
end

