-- ==== Sys2Proof/Config.lean ====
section
/-! DEFINITION. What an implementation fixes (00_scope.md R4 and R5) and the free values:
constants with no body, for what the spec leaves open. -/

namespace Sys2Proof

/-- The family members the spec names (R1, R4). -/
inductive Proc where
  | adsp2101 | adsp2115 | adsp2105 | adsp2111 | adsp2171 | adsp2181 | adsp21msp58 | adsp21msp59
deriving DecidableEq, Repr

/-- The interrupt sources of all members (60_exceptions.md R246 to R251). `sport1Tx` is also IRQ1 and
`sport1Rx` is also IRQ0 (R254). -/
inductive Source where
  | irq2 | hipWrite | hipRead | irql1 | irql0 | sport0Tx | sport0Rx | soft1 | soft2 | irqe | byteDma
  | dac | adc | sport1Tx | sport1Rx | timer
deriving DecidableEq, Repr

/-- The parameters of a run. They are held in `State.cfg` and no step changes them. -/
structure Cfg where
  /-- `PROC` (R4). -/
  proc : Proc
  /-- `SPORT1_IS_IRQ`: the SPORT1 rows serve the pins IRQ1 and IRQ0 (60_exceptions.md R254). -/
  sport1IsIrq : Bool
  /-- How many words the status stack has beyond `NSRC`. `STATUS_STACK_DEPTH` is at least `NSRC` (R5), so
  that it is given by this excess: `Cfg.statusDepth`. -/
  statusSpare : Nat
  /-- `RTI_STARTS_HOLDOFF` (93_implementation_defined.md U12). -/
  rtiStartsHoldoff : Bool
  /-- `INTS_DELAY` is 1 and not 0 (93_implementation_defined.md U15). -/
  intsDelayed : Bool
  /-- A listing confirms the words of ENA INTS and DIS INTS, without which a decoder must not admit them
  (30_encoding.md R78). -/
  intsListed : Bool
  /-- Refuse a test of CE while the counter is invalid, which 45_conditions.md R202 allows a model. -/
  guardInvalidCounter : Bool
  /-- Refuse a loop end with an unbalanced PC stack, the check 46_toppcstack.md R230 describes. -/
  guardLoopBalance : Bool
  /-- Apply the guard of 46_toppcstack.md R231 for the cut restriction 4. -/
  guardRestriction4 : Bool
deriving DecidableEq, Repr

/-- What an instruction outside the spec may do to ASTAT, by the class of its operation (10_state.md R25). -/
inductive StatusClass where
  /-- Any ALU operation but ABS, DIVS and DIVQ. -/
  | alu
  /-- The absolute value, an ALU operation that writes AS too. -/
  | abs
  /-- DIVS and DIVQ. -/
  | divide
  /-- Any multiplier operation but SAT MR. -/
  | multiply
  /-- The exponent detection of the shifter. -/
  | exponent
  /-- Every other operation, a register load among them (10_state.md R26). -/
  | none
deriving DecidableEq, Repr, Inhabited

/-- The reference configuration: ADSP-2101 (R4), the status-stack depth NSRC + 1 that D12 suggests, no
listing, and every optional guard off. DESIGN CHOICE, log entries 7, 15, 16, 17 and 24. -/
def Cfg.reference : Cfg where
  proc := .adsp2101
  sport1IsIrq := false
  statusSpare := 1
  rtiStartsHoldoff := false
  intsDelayed := false
  intsListed := false
  guardInvalidCounter := false
  guardLoopBalance := false
  guardRestriction4 := false

namespace Config

/-- A free bit, drawn with the counter `State.freeTick`. Log entries 13 and 19. -/
opaque freeBit (tick : Nat) : Bool

/-- A free counter value, drawn with the counter `State.freeTick`. Log entries 13 and 14. -/
opaque freeCount (tick : Nat) : Count

/-- Whether a word outside the opcode table is reserved, and so no instruction (30_encoding.md R83,
R84). Log entry 30. -/
opaque outOfScopeReserved (w : Insn) : Bool

/-- The sequencer register that an out-of-scope instruction names as its destination, if any
(20_memory.md R62, 44_status_mode.md R179). Log entry 30. -/
opaque outOfScopeDest (w : Insn) : Option Reg

/-- The sequencer register that an out-of-scope instruction moves from, if any (44_status_mode.md R179).
Log entry 30. -/
opaque outOfScopeSource (w : Insn) : Option Reg

/-- The condition that an out-of-scope instruction carries, if any (45_conditions.md R206). Log entry 30. -/
opaque outOfScopeCond (w : Insn) : Option Cond

/-- The class of an out-of-scope operation (10_state.md R25). Log entry 30. -/
opaque outOfScopeClass (w : Insn) : StatusClass

/-- The location of program memory that an out-of-scope instruction stores to, if any (20_memory.md R61).
Log entry 45. -/
opaque outOfScopeStore (w : Insn) (tick : Nat) : Option Addr

/-- The value an out-of-scope instruction leaves in the place with number `slot` (20_memory.md R62).
Log entry 30. -/
opaque outOfScopeValue (w : Insn) (tick slot : Nat) : Bus

/-- `IFC_FORCE_BIT(k)` of the members whose layout the spec does not give (R5, D29). Log entry 20. -/
opaque ifcForcePos (p : Proc) (k : Source) : Fin 16

/-- `IFC_CLEAR_BIT(k)` of the members whose layout the spec does not give (R5, D29). Log entry 20. -/
opaque ifcClearPos (p : Proc) (k : Source) : Fin 16

/-- Whether a source that 60_exceptions.md R272 leaves unsaid has IFC bits. Log entry 20. -/
opaque ifcHasBits (p : Proc) (k : Source) : Bool

end Config

end Sys2Proof
end

