-- ==== Sys2Proof/WellFormed.lean ====
section
/-! DEFINITION. Which terms of `Instr` stand for a word: the operand registers each row admits, and
for the words that match several rows of the opcode table the ONE row the term is written with.
Such a word does what every row it matches says (log entry 27). -/

namespace Sys2Proof

/-- The registers of Type 17 and Type 7 that are no register of the sequencer (30_encoding.md R80). -/
def Reg.isPlain : Reg → Bool
  | .astat | .mstat | .sstat | .imask | .icntl | .cntr | .ifc | .owrcntr | .toppcstack => false
  | _ => true

/-- What may be the source of a move: not IFC and not OWRCNTR, which are write-only (10_state.md R19,
R36), and TOPPCSTACK only in its own form (46_toppcstack.md R224). -/
def Reg.isSource : Reg → Bool
  | .ifc | .owrcntr | .toppcstack => false
  | _ => true

/-- The registers that may stand on the other side of a TOPPCSTACK move (46_toppcstack.md R226). -/
def Reg.toppcOk : Reg → Bool
  | .ax0 | .ax1 | .mx0 | .mx1 | .ay0 | .ay1 | .my0 | .my1 | .ar | .mr0 | .mr1 | .mr2 | .si | .se
  | .sr0 | .sr1
  | .i0 | .i1 | .i2 | .i3 | .i4 | .i5 | .i6 | .i7
  | .m0 | .m1 | .m2 | .m3 | .m4 | .m5 | .m6 | .m7
  | .l0 | .l1 | .l2 | .l3 | .l4 | .l5 | .l6 | .l7 => true
  | _ => false

/-- A two-bit mode field acts when its high bit is 1: 0b11 enables, 0b10 disables (30_encoding.md R79). -/
def modeActive (f : BitVec 2) : Bool := f.getLsbD 1

/-- Whether a term stands for a word of its row. A register row is written with its destination row
when the destination is a register of the sequencer; a Type 26 or Type 18 word with the first row
of the table that it matches. -/
def Instr.wellFormed : Instr → Bool
  | .popLoop pp _ _ => !pp
  | .popCntr pp lp _ => !pp && !lp
  | .pushSts pp lp cp | .popSts pp lp cp => !pp && !lp && !cp
  | .enaTimer f => f.ti == 3
  | .disTimer f => f.ti == 2
  | .enaMMode f => f.mm == 3 && !modeActive f.ti
  | .disMMode f => f.mm == 2 && !modeActive f.ti
  | .enaArSat f => f.as == 3 && !modeActive f.ti && !modeActive f.mm
  | .disArSat f => f.as == 2 && !modeActive f.ti && !modeActive f.mm
  | .enaAvLatch f => f.ol == 3 && !modeActive f.ti && !modeActive f.mm && !modeActive f.as
  | .disAvLatch f => f.ol == 2 && !modeActive f.ti && !modeActive f.mm && !modeActive f.as
  | .enaBitRev f =>
    f.br == 3 && !modeActive f.ti && !modeActive f.mm && !modeActive f.as && !modeActive f.ol
  | .disBitRev f =>
    f.br == 2 && !modeActive f.ti && !modeActive f.mm && !modeActive f.as && !modeActive f.ol
  | .enaSecReg f =>
    f.sr == 3 && !modeActive f.ti && !modeActive f.mm && !modeActive f.as && !modeActive f.ol &&
      !modeActive f.br
  | .disSecReg f =>
    f.sr == 2 && !modeActive f.ti && !modeActive f.mm && !modeActive f.as && !modeActive f.ol &&
      !modeActive f.br
  | .enaGMode f =>
    f.gm == 3 && !modeActive f.ti && !modeActive f.mm && !modeActive f.as && !modeActive f.ol &&
      !modeActive f.br && !modeActive f.sr
  | .disGMode f =>
    f.gm == 2 && !modeActive f.ti && !modeActive f.mm && !modeActive f.as && !modeActive f.ol &&
      !modeActive f.br && !modeActive f.sr
  | .fromAstat dst | .fromMstat dst | .fromSstat dst | .fromImask dst | .fromIcntl dst
  | .fromCntr dst => dst.isPlain
  | .toAstat src | .toMstat src | .toImask src | .toIcntl src | .toCntr src | .toIfc src
  | .toOwrcntr src => src.isSource
  | .fromToppcstack r | .toToppcstack r => r.toppcOk
  | .jump _ | .ifJump _ _ | .call _ | .ifCall _ _ | .doUntil _ _ | .jumpInd _ | .ifJumpInd _ _
  | .callInd _ | .ifCallInd _ _ | .rts | .ifRts _ | .rti | .ifRti _ | .flagInJump _
  | .notFlagInJump _ | .flagInCall _ | .notFlagInCall _ | .nop | .idle | .idleN _ | .popPc _ _ _
  | .enaInts | .disInts | .astatConst _ | .mstatConst _ | .imaskConst _ | .icntlConst _
  | .cntrConst _ | .ifcConst _ | .owrcntrConst _ => true

end Sys2Proof
end

