-- ==== Sys2Proof/Decode.lean ====
section
/-! DEFINITION. The decoder, total on any bytes and rejecting by name, and after it the encoder, both
from the formats of 30_encoding.md section 2 (PRESUMED there, log entry 24). -/

namespace Sys2Proof

/-! ## Codes -/

/-- The IF conditions by code 0 to 14 (30_encoding.md R81); code 15 is the unconditional form. -/
def condTable : List Cond :=
  [.eq, .ne, .gt, .le, .lt, .ge, .av, .notAv, .ac, .notAc, .neg, .pos, .mv, .notMv, .notCe]

/-- The condition with a code, none for the unconditional code 15. -/
def Cond.ofCode (c : BitVec 4) : Option Cond := condTable[c.toNat]?

/-- The code of a condition (30_encoding.md R81). -/
def Cond.code : Cond → BitVec 4
  | .eq => 0
  | .ne => 1
  | .gt => 2
  | .le => 3
  | .lt => 4
  | .ge => 5
  | .av => 6
  | .notAv => 7
  | .ac => 8
  | .notAc => 9
  | .neg => 10
  | .pos => 11
  | .mv => 12
  | .notMv => 13
  | .notCe => 14

/-- The termination conditions by code 0 to 15 (30_encoding.md R81). -/
def termTable : List Term :=
  [.ne, .eq, .le, .gt, .ge, .lt, .notAv, .av, .notAc, .ac, .pos, .neg, .notMv, .mv, .ce, .forever]

/-- The termination condition with a code. -/
def Term.ofCode (c : BitVec 4) : Term := termTable.getD c.toNat .forever

/-- The code of a termination condition (30_encoding.md R81). -/
def Term.code : Term → BitVec 4
  | .ne => 0
  | .eq => 1
  | .le => 2
  | .gt => 3
  | .ge => 4
  | .lt => 5
  | .notAv => 6
  | .av => 7
  | .notAc => 8
  | .ac => 9
  | .pos => 10
  | .neg => 11
  | .notMv => 12
  | .mv => 13
  | .ce => 14
  | .forever => 15

/-- The index register with a code (30_encoding.md R74). -/
def IReg.ofCode (c : BitVec 2) : IReg := [IReg.i4, .i5, .i6, .i7].getD c.toNat .i7

/-- The code of an index register (30_encoding.md R74). -/
def IReg.code : IReg → BitVec 2
  | .i4 => 0
  | .i5 => 1
  | .i6 => 2
  | .i7 => 3

/-- The divisor with a DV field; the other values are reserved (30_encoding.md R77). -/
def Divisor.ofCode (c : BitVec 4) : Option Divisor :=
  if c = 1 then some .n16
  else if c = 2 then some .n32
  else if c = 4 then some .n64
  else if c = 8 then some .n128
  else none

/-- The DV field of a divisor (30_encoding.md R77). -/
def Divisor.code : Divisor → BitVec 4
  | .n16 => 1
  | .n32 => 2
  | .n64 => 4
  | .n128 => 8

/-- The register codes of 30_encoding.md R80, by register group and register; none where reserved. -/
def regTable : List (List (Option Reg)) :=
  [[some .ax0, some .ax1, some .mx0, some .mx1, some .ay0, some .ay1,
     some .my0, some .my1, some .si, some .se, some .ar, some .mr0,
     some .mr1, some .mr2, some .sr0, some .sr1],
   [some .i0, some .i1, some .i2, some .i3, some .m0, some .m1,
     some .m2, some .m3, some .l0, some .l1, some .l2, some .l3,
     none, none, none, none],
   [some .i4, some .i5, some .i6, some .i7, some .m4, some .m5,
     some .m6, some .m7, some .l4, some .l5, some .l6, some .l7,
     none, none, none, none],
   [some .astat, some .mstat, some .sstat, some .imask, some .icntl, some .cntr,
     some .sb, some .px, some .rx0, some .tx0, some .rx1, some .tx1,
     some .ifc, some .owrcntr, none, some .toppcstack]]

/-- The register with a group and a code (30_encoding.md R80). -/
def Reg.ofCode (rgp : BitVec 2) (reg : BitVec 4) : Option Reg :=
  (regTable.getD rgp.toNat []).getD reg.toNat none

/-- The register codes that 30_encoding.md R80 leaves reserved: 12 to 15 of the groups 1 and 2, and 14 of group
3. -/
def reservedCode (rgp : BitVec 2) (reg : BitVec 4) : Prop :=
  ((rgp = 1 ∨ rgp = 2) ∧ 12 ≤ reg.toNat) ∨ (rgp = 3 ∧ reg = 14)

/-- The group and the code of a register (30_encoding.md R80). -/
def Reg.code : Reg → BitVec 2 × BitVec 4
  | .ax0 => (0, 0)
  | .ax1 => (0, 1)
  | .mx0 => (0, 2)
  | .mx1 => (0, 3)
  | .ay0 => (0, 4)
  | .ay1 => (0, 5)
  | .my0 => (0, 6)
  | .my1 => (0, 7)
  | .si => (0, 8)
  | .se => (0, 9)
  | .ar => (0, 10)
  | .mr0 => (0, 11)
  | .mr1 => (0, 12)
  | .mr2 => (0, 13)
  | .sr0 => (0, 14)
  | .sr1 => (0, 15)
  | .i0 => (1, 0)
  | .i1 => (1, 1)
  | .i2 => (1, 2)
  | .i3 => (1, 3)
  | .m0 => (1, 4)
  | .m1 => (1, 5)
  | .m2 => (1, 6)
  | .m3 => (1, 7)
  | .l0 => (1, 8)
  | .l1 => (1, 9)
  | .l2 => (1, 10)
  | .l3 => (1, 11)
  | .i4 => (2, 0)
  | .i5 => (2, 1)
  | .i6 => (2, 2)
  | .i7 => (2, 3)
  | .m4 => (2, 4)
  | .m5 => (2, 5)
  | .m6 => (2, 6)
  | .m7 => (2, 7)
  | .l4 => (2, 8)
  | .l5 => (2, 9)
  | .l6 => (2, 10)
  | .l7 => (2, 11)
  | .astat => (3, 0)
  | .mstat => (3, 1)
  | .sstat => (3, 2)
  | .imask => (3, 3)
  | .icntl => (3, 4)
  | .cntr => (3, 5)
  | .sb => (3, 6)
  | .px => (3, 7)
  | .rx0 => (3, 8)
  | .tx0 => (3, 9)
  | .rx1 => (3, 10)
  | .tx1 => (3, 11)
  | .ifc => (3, 12)
  | .owrcntr => (3, 13)
  | .toppcstack => (3, 15)

/-! ## Results -/

/-- Why a word is no instruction of the model. Each is a `refuse` of the spec, so each is safe. -/
inductive DecodeError where
  /-- A bit that the word's format shows as 0 is not 0 (30_encoding.md R84). -/
  | nonzeroReserved
  /-- The top byte is 0x00 and the word is not the NOP word (30_encoding.md R77, R83). -/
  | notNop
  /-- A DV field that is not 0, 1, 2, 4 or 8 (43_idle_nop.md R163). -/
  | reservedDivisor
  /-- A register code that 30_encoding.md R80 leaves reserved (R84). -/
  | reservedRegister
  /-- A write of SSTAT (10_state.md R27). -/
  | sstatWrite
  /-- A read of IFC (10_state.md R36). -/
  | ifcRead
  /-- A read of OWRCNTR (10_state.md R19). -/
  | owrcntrRead
  /-- TOPPCSTACK with a register outside the list of 46_toppcstack.md R226, or loaded with a constant
  (R224). -/
  | toppcRegister
  /-- A Type 7 load of register group 0: Type 7 loads a non-data register (30_encoding.md R80). -/
  | dataRegisterLoad
  /-- A word of ENA INTS or DIS INTS, with no listing at hand (30_encoding.md R78). -/
  | unlistedWord
  /-- A word of the instruction types outside the spec that is reserved (30_encoding.md R83, R84);
  raised when such a word is run, see `Config.outOfScopeReserved`. -/
  | reservedWord
  /-- Fewer than three bytes. -/
  | truncated
deriving DecidableEq, Repr

/-- The words that no row of the opcode table matches and that the spec gives an effect. -/
inductive Beyond where
  /-- A stack-control or mode-control word that names nothing (30_encoding.md R78, R79). Log entry 28. -/
  | inert
  /-- A Type 17 move between two registers outside the sequencer (30_encoding.md R80). Log entry 29. -/
  | plainMove (dst src : Reg)
  /-- A Type 7 load of a register outside the sequencer (30_encoding.md R80). Log entry 29. -/
  | plainLoad (dst : Reg) (data : BitVec 14)
  /-- A word of an instruction type outside the spec (20_memory.md R62). Log entry 30. -/
  | outOfScope (w : Insn)
deriving DecidableEq, Repr

/-- What the decoder says of a word. -/
inductive Decoded where
  | instr (i : Instr)
  | beyond (b : Beyond)
  | reject (e : DecodeError)
deriving DecidableEq, Repr

/-! ## Decoding, type by type -/

/-- Bits `lo + n - 1` down to `lo` of a word. -/
abbrev field (w : Insn) (lo n : Nat) : BitVec n := w.extractLsb' lo n

/-- Type 10, S = 0: JUMP (30_encoding.md R72). -/
def decodeJump (w : Insn) : Decoded :=
  match Cond.ofCode (field w 0 4) with
  | none => .instr (.jump (field w 4 14))
  | some c => .instr (.ifJump c (field w 4 14))

/-- Type 10, S = 1: CALL (30_encoding.md R72). -/
def decodeCall (w : Insn) : Decoded :=
  match Cond.ofCode (field w 0 4) with
  | none => .instr (.call (field w 4 14))
  | some c => .instr (.ifCall c (field w 4 14))

/-- Type 11: DO UNTIL (30_encoding.md R73). -/
def decodeDo (w : Insn) : Decoded :=
  .instr (.doUntil (field w 4 14) (Term.ofCode (field w 0 4)))

/-- Type 19: JUMP or CALL with an index register (30_encoding.md R74). -/
def decodeIndirect (w : Insn) : Decoded :=
  if field w 8 8 ≠ 0 ∨ field w 5 1 ≠ 0 then .reject .nonzeroReserved
  else
    let ix := IReg.ofCode (field w 6 2)
    match Cond.ofCode (field w 0 4) with
    | none => .instr (if field w 4 1 = 0 then .jumpInd ix else .callInd ix)
    | some c => .instr (if field w 4 1 = 0 then .ifJumpInd c ix else .ifCallInd c ix)

/-- Type 20: RTS or RTI (30_encoding.md R75). -/
def decodeReturn (w : Insn) : Decoded :=
  if field w 5 11 ≠ 0 then .reject .nonzeroReserved
  else
    match Cond.ofCode (field w 0 4) with
    | none => .instr (if field w 4 1 = 0 then .rts else .rti)
    | some c => .instr (if field w 4 1 = 0 then .ifRts c else .ifRti c)

/-- Type 27: JUMP or CALL on the Flag In pin (30_encoding.md R76). -/
def decodeFlagIn (w : Insn) : Decoded :=
  let addr : Addr := field w 2 2 ++ field w 4 12
  if field w 0 1 = 0 then
    .instr (if field w 1 1 = 1 then .flagInJump addr else .notFlagInJump addr)
  else
    .instr (if field w 1 1 = 1 then .flagInCall addr else .notFlagInCall addr)

/-- Type 31: IDLE and IDLE (n) (30_encoding.md R77). -/
def decodeIdle (w : Insn) : Decoded :=
  if field w 4 11 ≠ 0 then .reject .nonzeroReserved
  else if field w 0 4 = 0 then .instr .idle
  else
    match Divisor.ofCode (field w 0 4) with
    | some n => .instr (.idleN n)
    | none => .reject .reservedDivisor

/-- Type 26: stack control, ENA INTS and DIS INTS (30_encoding.md R78). A word that matches several
rows is written with the first of them in the table's order. -/
def decodeStack (w : Insn) : Decoded :=
  if field w 0 16 = 0x0060 then .instr .enaInts
  else if field w 0 16 = 0x0040 then .instr .disInts
  else if field w 5 11 ≠ 0 then .reject .nonzeroReserved
  else
    let lp := decide (field w 3 1 = 1)
    let cp := decide (field w 2 1 = 1)
    let spp := field w 0 2
    if field w 4 1 = 1 then .instr (.popPc lp cp spp)
    else if lp then .instr (.popLoop false cp spp)
    else if cp then .instr (.popCntr false false spp)
    else if spp = 2 then .instr (.pushSts false false false)
    else if spp = 3 then .instr (.popSts false false false)
    else .beyond .inert

/-- The fields of a mode-control word (30_encoding.md R79). -/
def modeFields (w : Insn) : ModeFields where
  ti := field w 14 2
  mm := field w 12 2
  as := field w 10 2
  ol := field w 8 2
  br := field w 6 2
  sr := field w 4 2
  gm := field w 2 2

/-- The row a mode-control word is written with: its first field that acts. -/
def firstMode (f : ModeFields) : Decoded :=
  if f.ti = 3 then .instr (.enaTimer f)
  else if f.ti = 2 then .instr (.disTimer f)
  else if f.mm = 3 then .instr (.enaMMode f)
  else if f.mm = 2 then .instr (.disMMode f)
  else if f.as = 3 then .instr (.enaArSat f)
  else if f.as = 2 then .instr (.disArSat f)
  else if f.ol = 3 then .instr (.enaAvLatch f)
  else if f.ol = 2 then .instr (.disAvLatch f)
  else if f.br = 3 then .instr (.enaBitRev f)
  else if f.br = 2 then .instr (.disBitRev f)
  else if f.sr = 3 then .instr (.enaSecReg f)
  else if f.sr = 2 then .instr (.disSecReg f)
  else if f.gm = 3 then .instr (.enaGMode f)
  else if f.gm = 2 then .instr (.disGMode f)
  else .beyond .inert

/-- Type 18: mode control (30_encoding.md R79). -/
def decodeMode (w : Insn) : Decoded :=
  if field w 0 2 ≠ 0 then .reject .nonzeroReserved else firstMode (modeFields w)

/-- A Type 17 move between two registers (30_encoding.md R80, 46_toppcstack.md R224 and R226). -/
def moveOf (dst src : Reg) : Decoded :=
  if dst = .toppcstack then
    if src.toppcOk then .instr (.toToppcstack src) else .reject .toppcRegister
  else if src = .toppcstack then
    if dst.toppcOk then .instr (.fromToppcstack dst) else .reject .toppcRegister
  else if src = .ifc then .reject .ifcRead
  else if src = .owrcntr then .reject .owrcntrRead
  else
    match dst, src with
    | .sstat, _ => .reject .sstatWrite
    | .astat, _ => .instr (.toAstat src)
    | .mstat, _ => .instr (.toMstat src)
    | .imask, _ => .instr (.toImask src)
    | .icntl, _ => .instr (.toIcntl src)
    | .cntr, _ => .instr (.toCntr src)
    | .ifc, _ => .instr (.toIfc src)
    | .owrcntr, _ => .instr (.toOwrcntr src)
    | _, .astat => .instr (.fromAstat dst)
    | _, .mstat => .instr (.fromMstat dst)
    | _, .sstat => .instr (.fromSstat dst)
    | _, .imask => .instr (.fromImask dst)
    | _, .icntl => .instr (.fromIcntl dst)
    | _, .cntr => .instr (.fromCntr dst)
    | _, _ => .beyond (.plainMove dst src)

/-- Type 17: register-to-register move (30_encoding.md R80). -/
def decodeMove (w : Insn) : Decoded :=
  if field w 12 4 ≠ 0 then .reject .nonzeroReserved
  else
    match Reg.ofCode (field w 10 2) (field w 4 4), Reg.ofCode (field w 8 2) (field w 0 4) with
    | some dst, some src => moveOf dst src
    | _, _ => .reject .reservedRegister

/-- A Type 7 load of a register with a constant (30_encoding.md R80). -/
def loadOf (dst : Reg) (data : BitVec 14) : Decoded :=
  match dst with
  | .astat => .instr (.astatConst data)
  | .mstat => .instr (.mstatConst data)
  | .imask => .instr (.imaskConst data)
  | .icntl => .instr (.icntlConst data)
  | .cntr => .instr (.cntrConst data)
  | .ifc => .instr (.ifcConst data)
  | .owrcntr => .instr (.owrcntrConst data)
  | .sstat => .reject .sstatWrite
  | .toppcstack => .reject .toppcRegister
  | _ => .beyond (.plainLoad dst data)

/-- Type 7: load of a non-data register with a constant (30_encoding.md R80). -/
def decodeLoad (w : Insn) : Decoded :=
  if field w 18 2 = 0 then .reject .dataRegisterLoad
  else
    match Reg.ofCode (field w 18 2) (field w 0 4) with
    | some dst => loadOf dst (field w 4 14)
    | none => .reject .reservedRegister

/-- The decoder: the type from the top bits (30_encoding.md R83), then the type's format. -/
def decode (w : Insn) : Decoded :=
  if field w 18 6 = 0b000101 then decodeDo w
  else if field w 18 6 = 0b000110 then decodeJump w
  else if field w 18 6 = 0b000111 then decodeCall w
  else if field w 20 4 = 0b0011 then decodeLoad w
  else if field w 16 8 = 0x00 then (if w = 0 then .instr .nop else .reject .notNop)
  else if field w 16 8 = 0x02 then
    (if field w 15 1 = 1 then decodeIdle w else .beyond (.outOfScope w))
  else if field w 16 8 = 0x03 then decodeFlagIn w
  else if field w 16 8 = 0x04 then decodeStack w
  else if field w 16 8 = 0x0A then decodeReturn w
  else if field w 16 8 = 0x0B then decodeIndirect w
  else if field w 16 8 = 0x0C then decodeMode w
  else if field w 16 8 = 0x0D then decodeMove w
  else .beyond (.outOfScope w)

/-- The decoder of a machine: without a listing it does not admit the two INTS words, which the spec
remembers with low confidence (30_encoding.md R78). Log entry 24. -/
def decodeFor (c : Cfg) (w : Insn) : Decoded :=
  match decode w with
  | .instr .enaInts => if c.intsListed then .instr .enaInts else .reject .unlistedWord
  | .instr .disInts => if c.intsListed then .instr .disInts else .reject .unlistedWord
  | d => d

/-! ## Bytes -/

/-- The instruction word of three bytes in the order program memory holds them here, the least
significant first. DESIGN CHOICE, log entry 8: no instruction can see it. -/
def insnOfBytes (b0 b1 b2 : Byte) : Insn := b2 ++ b1 ++ b0

/-- The three bytes of an instruction word, the least significant first. -/
def bytesOfInsn (w : Insn) : List Byte := [field w 0 8, field w 8 8, field w 16 8]

/-- The decoder on bytes: what the first word is, and the bytes after it. -/
def decodeBytes : List Byte → Decoded × List Byte
  | b0 :: b1 :: b2 :: rest => (decode (insnOfBytes b0 b1 b2), rest)
  | short => (.reject .truncated, short)

/-- The instruction the decoder reads from an instruction whose bits are `w`, with every bit from
`nbits` up equal to 0. The opcode table is the listing here (log entry 24). -/
def decodeTableWord (nbits w : Nat) : Option Instr :=
  match (decodeBytes (bytesOfInsn (BitVec.ofNat 24 (w % 2 ^ nbits)))).1 with
  | .instr i => some i
  | _ => none

/-! ## Encoding -/

/-- A stack-control word (30_encoding.md R78). -/
def stackWord (pp lp cp : Bool) (spp : BitVec 2) : Insn :=
  0x04#8 ++ 0#11 ++ BitVec.ofBool pp ++ BitVec.ofBool lp ++ BitVec.ofBool cp ++ spp

/-- A mode-control word (30_encoding.md R79). -/
def modeWord (f : ModeFields) : Insn :=
  0x0C#8 ++ f.ti ++ f.mm ++ f.as ++ f.ol ++ f.br ++ f.sr ++ f.gm ++ 0#2

/-- A Type 17 word (30_encoding.md R80). -/
def moveWord (dst src : Reg) : Insn :=
  0x0D#8 ++ 0#4 ++ dst.code.1 ++ src.code.1 ++ dst.code.2 ++ src.code.2

/-- A Type 7 word (30_encoding.md R80). -/
def loadWord (dst : Reg) (data : BitVec 14) : Insn := 0b0011#4 ++ dst.code.1 ++ data ++ dst.code.2

/-- A Type 10 word (30_encoding.md R72). -/
def directWord (s : BitVec 1) (addr : Addr) (cond : BitVec 4) : Insn :=
  0b00011#5 ++ s ++ addr ++ cond

/-- A Type 19 word (30_encoding.md R74). -/
def indirectWord (ix : IReg) (s : BitVec 1) (cond : BitVec 4) : Insn :=
  0x0B#8 ++ 0#8 ++ ix.code ++ 0#1 ++ s ++ cond

/-- A Type 20 word (30_encoding.md R75). -/
def returnWord (t : BitVec 1) (cond : BitVec 4) : Insn := 0x0A#8 ++ 0#11 ++ t ++ cond

/-- A Type 27 word (30_encoding.md R76). -/
def flagInWord (addr : Addr) (fic s : BitVec 1) : Insn :=
  0x03#8 ++ addr.extractLsb' 0 12 ++ addr.extractLsb' 12 2 ++ fic ++ s

/-- A Type 31 word (30_encoding.md R77). -/
def idleWord (dv : BitVec 4) : Insn := 0x02#8 ++ 1#1 ++ 0#11 ++ dv

/-- The word of a well-formed instruction. -/
def encode : Instr → Insn
  | .jump addr => directWord 0 addr 15
  | .ifJump c addr => directWord 0 addr c.code
  | .call addr => directWord 1 addr 15
  | .ifCall c addr => directWord 1 addr c.code
  | .doUntil fin term => 0b000101#6 ++ fin ++ term.code
  | .jumpInd ix => indirectWord ix 0 15
  | .ifJumpInd c ix => indirectWord ix 0 c.code
  | .callInd ix => indirectWord ix 1 15
  | .ifCallInd c ix => indirectWord ix 1 c.code
  | .rts => returnWord 0 15
  | .ifRts c => returnWord 0 c.code
  | .rti => returnWord 1 15
  | .ifRti c => returnWord 1 c.code
  | .flagInJump addr => flagInWord addr 1 0
  | .notFlagInJump addr => flagInWord addr 0 0
  | .flagInCall addr => flagInWord addr 1 1
  | .notFlagInCall addr => flagInWord addr 0 1
  | .nop => 0x000000
  | .idle => idleWord 0
  | .idleN n => idleWord n.code
  | .popPc lp cp spp => stackWord true lp cp spp
  | .popLoop pp cp spp => stackWord pp true cp spp
  | .popCntr pp lp spp => stackWord pp lp true spp
  | .pushSts pp lp cp => stackWord pp lp cp 2
  | .popSts pp lp cp => stackWord pp lp cp 3
  | .enaInts => 0x040060
  | .disInts => 0x040040
  | .enaTimer f => modeWord { f with ti := 3 }
  | .disTimer f => modeWord { f with ti := 2 }
  | .enaMMode f => modeWord { f with mm := 3 }
  | .disMMode f => modeWord { f with mm := 2 }
  | .enaArSat f => modeWord { f with as := 3 }
  | .disArSat f => modeWord { f with as := 2 }
  | .enaAvLatch f => modeWord { f with ol := 3 }
  | .disAvLatch f => modeWord { f with ol := 2 }
  | .enaBitRev f => modeWord { f with br := 3 }
  | .disBitRev f => modeWord { f with br := 2 }
  | .enaSecReg f => modeWord { f with sr := 3 }
  | .disSecReg f => modeWord { f with sr := 2 }
  | .enaGMode f => modeWord { f with gm := 3 }
  | .disGMode f => modeWord { f with gm := 2 }
  | .fromAstat dst => moveWord dst .astat
  | .fromMstat dst => moveWord dst .mstat
  | .fromSstat dst => moveWord dst .sstat
  | .fromImask dst => moveWord dst .imask
  | .fromIcntl dst => moveWord dst .icntl
  | .fromCntr dst => moveWord dst .cntr
  | .toAstat src => moveWord .astat src
  | .toMstat src => moveWord .mstat src
  | .toImask src => moveWord .imask src
  | .toIcntl src => moveWord .icntl src
  | .toCntr src => moveWord .cntr src
  | .toIfc src => moveWord .ifc src
  | .toOwrcntr src => moveWord .owrcntr src
  | .fromToppcstack dst => moveWord dst .toppcstack
  | .toToppcstack src => moveWord .toppcstack src
  | .astatConst data => loadWord .astat data
  | .mstatConst data => loadWord .mstat data
  | .imaskConst data => loadWord .imask data
  | .icntlConst data => loadWord .icntl data
  | .cntrConst data => loadWord .cntr data
  | .ifcConst data => loadWord .ifc data
  | .owrcntrConst data => loadWord .owrcntr data

end Sys2Proof
end

