-- ==== Sys2Proof/Machine/State.lean ====
section
/-! DEFINITION. The state of the machine: every piece of state that 10_state.md names, its inputs and
the configuration, as plain data; the reasons a step stops; the state after reset. -/

namespace Sys2Proof.Machine

/-! ## Why a step stops -/

/-- The faults of a step. The hardware has none (60_exceptions.md R240). -/
inductive Fault where
  /-- Raised by the fetch: nothing has stored the instruction word at the program counter. Safe: the
  hardware would run what its memory holds there. Log entry 8. -/
  | unwrittenWord
deriving DecidableEq, Repr

/-- The four stacks, to name one in a refusal. -/
inductive StackName where
  | pc | count | loop | status
deriving DecidableEq, Repr

/-- The refusals of a step: situations that the spec marks `refuse`, so that it gives them no effect
(00_scope.md R7). All are safe: nothing is claimed of them. -/
inductive Refusal where
  /-- Raised by `exec` for an instruction that has no meaning yet. -/
  | notModelled (mnemonic : String)
  /-- Raised by the step for a word that is no instruction (30_encoding.md R84). -/
  | undecodable (e : Sys2Proof.DecodeError)
  /-- Raised by a pop of a PC, loop or status stack that holds no word, and by a loop end that finds
  none (10_state.md R14; U1). -/
  | emptyStack (which : StackName)
  /-- Raised by `IF NOT CE CALL` (41_jump_call_return.md R114; U7). -/
  | notCeCall
  /-- Raised by ENA INTS and DIS INTS on a member that has neither (44_status_mode.md R188). -/
  | noGlobalInts
  /-- Raised by a write of OWRCNTR in the last instruction of a loop (10_state.md R19). -/
  | owrcntrAtLoopEnd
  /-- Raised by a write of CNTR in the last instruction of a CE loop (42_do_until.md R149; U8). -/
  | cntrAtLoopEnd
  /-- Raised by a DO UNTIL that is the last instruction of a loop (42_do_until.md R131; U9). -/
  | doAtLoopEnd
  /-- Raised by a DO UNTIL with the end of a word already on the loop stack (42_do_until.md R148; U5). -/
  | sameLoopEnd
  /-- Raised by a pop of the loop stack just before the last instruction of the loop whose word it
  pops (44_status_mode.md R184; U10). -/
  | popLoopBeforeEnd
  /-- Raised by an untaken `IF NOT CE JUMP` in the last instruction of a CE loop (42_do_until.md R149;
  U18). -/
  | notCeJumpAtLoopEnd
  /-- Raised by a write of IFC with the force bit and the clear bit of one source (U14). -/
  | ifcForceAndClear
  /-- Raised by an access to the PC stack or to SSTAT, or by a loop end, right after a read of
  TOPPCSTACK (46_toppcstack.md R222). -/
  | afterToppcRead
  /-- Raised by RTI right after a TOPPCSTACK move (46_toppcstack.md R228). -/
  | rtiAfterToppc
  /-- Raised by a read of TOPPCSTACK in the last or last-but-one instruction of a loop
  (46_toppcstack.md R229). -/
  | toppcReadNearLoopEnd
  /-- Raised by a move that `Instr.wellFormed` excludes: TOPPCSTACK with a register outside the list of
  46_toppcstack.md R226. -/
  | toppcRegister
  /-- Raised by a move that `Instr.wellFormed` excludes, and by an instruction outside the spec: SSTAT
  written, IFC or OWRCNTR read, or TOPPCSTACK named outside its own forms (44_status_mode.md R181;
  46_toppcstack.md R224). -/
  | badMove
  /-- Raised by a write of IMASK that unmasks a source before an ICNTL written since reset is in force
  (70_reset_and_hazards.md R296; U2). -/
  | unmaskBeforeIcntl
  /-- Raised by the fetch of a location that an instruction outside the spec has stored to
  (20_memory.md R61; D17). -/
  | storedWord
  /-- Raised, with the guard on, by a test of CE while the counter is invalid (45_conditions.md R202). -/
  | invalidCounter
  /-- Raised, with the guard on, by a loop end at another PC-stack depth than its DO UNTIL left
  (46_toppcstack.md R230). -/
  | unbalancedLoop
  /-- Raised, with the guard on, by RTS, RTI and POP PC within two instructions after a TOPPCSTACK move
  (46_toppcstack.md R231). -/
  | restriction4
deriving DecidableEq, Repr

/-! ## The parts of the state -/

/-- A hardware stack: the words it keeps, top first; `lost`, the pushes it did not keep and no pop has
matched yet; the sticky overflow bit (R13, R29); `surplus`, the pops that found nothing to match and that
no push has made up for. Pushes less pops since reset are `words.length + lost - surplus`, so that the
stack counts as empty exactly when pops have reached pushes (10_state.md R15, U3; log entry 11). -/
structure Stack (α : Type) where
  words : List α
  lost : Nat
  ovf : Bool
  surplus : Nat
deriving DecidableEq, Repr

/-- A loop-stack word (10_state.md R21). `depth` is no hardware state: it is the PC-stack depth that
the optional check of 46_toppcstack.md R230 records. -/
structure LoopWord where
  fin : Addr
  term : Term
  depth : Nat
deriving DecidableEq, Repr

/-- A status-stack word (10_state.md R22). -/
structure StatusWord where
  astat : BitVec 8
  mstat : BitVec 7
  imask : BitVec 10
deriving DecidableEq, Repr

/-- One bank of the computation units' registers (10_state.md R33, R40). -/
structure Bank where
  ax0 : BitVec 16
  ax1 : BitVec 16
  ay0 : BitVec 16
  ay1 : BitVec 16
  ar : BitVec 16
  af : BitVec 16
  mx0 : BitVec 16
  mx1 : BitVec 16
  my0 : BitVec 16
  my1 : BitVec 16
  mf : BitVec 16
  mr0 : BitVec 16
  mr1 : BitVec 16
  mr2 : BitVec 8
  si : BitVec 16
  se : BitVec 8
  sb : BitVec 5
  sr1 : BitVec 16
  sr0 : BitVec 16
deriving DecidableEq, Repr

/-- The registers of the two data address generators (10_state.md R40). -/
structure Dag where
  i0 : BitVec 14
  i1 : BitVec 14
  i2 : BitVec 14
  i3 : BitVec 14
  m0 : BitVec 14
  m1 : BitVec 14
  m2 : BitVec 14
  m3 : BitVec 14
  l0 : BitVec 14
  l1 : BitVec 14
  l2 : BitVec 14
  l3 : BitVec 14
  i4 : BitVec 14
  i5 : BitVec 14
  i6 : BitVec 14
  i7 : BitVec 14
  m4 : BitVec 14
  m5 : BitVec 14
  m6 : BitVec 14
  m7 : BitVec 14
  l4 : BitVec 14
  l5 : BitVec 14
  l6 : BitVec 14
  l7 : BitVec 14
deriving DecidableEq, Repr

/-- The bus-exchange register and the serial-port registers that have a register code
(30_encoding.md R80). -/
structure Ports where
  px : BitVec 8
  rx0 : BitVec 16
  tx0 : BitVec 16
  rx1 : BitVec 16
  tx1 : BitVec 16
deriving DecidableEq, Repr

/-- One bit for each interrupt source. -/
structure SourceBits where
  irq2 : Bool
  hipWrite : Bool
  hipRead : Bool
  irql1 : Bool
  irql0 : Bool
  sport0Tx : Bool
  sport0Rx : Bool
  soft1 : Bool
  soft2 : Bool
  irqe : Bool
  byteDma : Bool
  dac : Bool
  adc : Bool
  sport1Tx : Bool
  sport1Rx : Bool
  timer : Bool
deriving DecidableEq, Repr

/-- The clock divisor of the idle state (43_idle_nop.md R161, R163). -/
inductive IdleDiv where
  | one
  | by (n : Divisor)
deriving DecidableEq, Repr

/-- What the instruction of a step was, for the TOPPCSTACK hazards (70_reset_and_hazards.md R303). -/
inductive Kind where
  | other | toppcRead | toppcWrite
deriving DecidableEq, Repr

/-- The device registers the environment may change (70_reset_and_hazards.md R322). -/
inductive Port where
  | rx0 | tx0 | rx1 | tx1
deriving DecidableEq, Repr

/-- One thing the environment does between two steps (70_reset_and_hazards.md R322). -/
inductive Input where
  /-- RESET is asserted. -/
  | reset
  /-- The internal event of a source (60_exceptions.md R252). -/
  | event (k : Source)
  /-- The pin of an external source takes a level; `low = true` is the active level (R252, R253). -/
  | pin (k : Source) (low : Bool)
  /-- The FI pin is sampled (45_conditions.md R205). -/
  | flagIn (v : Bool)
  /-- A device changes one of its registers. -/
  | port (r : Port) (v : BitVec 16)
deriving DecidableEq, Repr

/-! ## The state -/

/-- The state of the machine. INVENTORY.md lists each field with its rule and its reset value. -/
@[ext]
structure State where
  pc : Addr
  pcstk : Stack Addr
  cntstk : Stack Count
  lpstk : Stack LoopWord
  ststk : Stack StatusWord
  cntr : Count
  cntrValid : Bool
  astat : BitVec 8
  mstat : BitVec 7
  icntl : BitVec 5
  /-- `W_IMASK` bits; the bits above are 0. -/
  imask : BitVec 10
  intsEnabled : Bool
  req : SourceBits
  idle : Bool
  idleDiv : IdleDiv
  imaskHoldoff : Nat
  icntlOld : BitVec 5
  icntlDelay : Nat
  /-- An ICNTL that the program has written since reset is in force (70_reset_and_hazards.md R296). -/
  icntlKnown : Bool
  intsOld : Bool
  intsDelay : Nat
  prevKind : Kind
  prev2Kind : Kind
  primary : Bank
  shadow : Bank
  dag : Dag
  ports : Ports
  /-- Program memory: three bytes for each word (log entry 8). -/
  pm : List Host.Cell
  /-- The locations of program memory that an instruction outside the spec has stored to, which D17 forbids
  to execute (20_memory.md R61; log entry 45). -/
  pmStored : List Addr
  /-- Which interrupt pins are low. -/
  pins : SourceBits
  flagIn : Bool
  /-- What the environment does before each coming step; the end of the list is a quiet environment. -/
  inputs : List (List Input)
  cfg : Cfg
  /-- The model's own counter: how many free values have been drawn (log entry 40). -/
  freeTick : Nat
deriving DecidableEq, Repr

/-! ## Reset -/

/-- A stack after reset (10_state.md R43). -/
def Stack.empty {α : Type} : Stack α where
  words := []
  lost := 0
  ovf := false
  surplus := 0

/-- Every source's bit 0. -/
def SourceBits.none : SourceBits :=
  ⟨false, false, false, false, false, false, false, false, false, false, false, false, false, false,
    false, false⟩

/-- A register bank after reset. DESIGN CHOICE, log entry 3. -/
def Bank.zero : Bank := ⟨0, 0, 0, 0, 0, 0, 0, 0, 0, 0, 0, 0, 0, 0, 0, 0, 0, 0, 0⟩

/-- The data address generators after reset. DESIGN CHOICE, log entry 3. -/
def Dag.zero : Dag := ⟨0, 0, 0, 0, 0, 0, 0, 0, 0, 0, 0, 0, 0, 0, 0, 0, 0, 0, 0, 0, 0, 0, 0, 0⟩

/-- PX and the serial-port registers after reset. DESIGN CHOICE, log entry 3. -/
def Ports.zero : Ports := ⟨0, 0, 0, 0, 0⟩

/-- The machine right after reset (10_state.md R43, 70_reset_and_hazards.md R290), in the reference
configuration, with no program and a quiet environment. The values the spec does not give are in log
entries 1 to 6 and 40. -/
def State.reset : State where
  pc := 0
  pcstk := .empty
  cntstk := .empty
  lpstk := .empty
  ststk := .empty
  cntr := 0
  cntrValid := false
  astat := 0
  mstat := 0
  icntl := 0
  imask := 0
  intsEnabled := true
  req := .none
  idle := false
  idleDiv := .one
  imaskHoldoff := 0
  icntlOld := 0
  icntlDelay := 0
  icntlKnown := false
  intsOld := true
  intsDelay := 0
  prevKind := .other
  prev2Kind := .other
  primary := .zero
  shadow := .zero
  dag := .zero
  ports := .zero
  pm := []
  pmStored := []
  pins := .none
  flagIn := false
  inputs := []
  cfg := .reference
  freeTick := 0

end Sys2Proof.Machine
end

