-- ==== Sys2Proof/Machine/Interrupts.lean ====
section
/-! DEFINITION. What the members differ in, their vector tables, the interrupt requests and the choice
of the interrupt to take (00_scope.md R4; 60_exceptions.md R246 to R259). -/

namespace Sys2Proof.Machine

/-! ## One bit for each source -/

/-- The bit of a source. -/
def SourceBits.get (b : SourceBits) : Source → Bool
  | .irq2 => b.irq2
  | .hipWrite => b.hipWrite
  | .hipRead => b.hipRead
  | .irql1 => b.irql1
  | .irql0 => b.irql0
  | .sport0Tx => b.sport0Tx
  | .sport0Rx => b.sport0Rx
  | .soft1 => b.soft1
  | .soft2 => b.soft2
  | .irqe => b.irqe
  | .byteDma => b.byteDma
  | .dac => b.dac
  | .adc => b.adc
  | .sport1Tx => b.sport1Tx
  | .sport1Rx => b.sport1Rx
  | .timer => b.timer

/-- The bits with one source's bit replaced. -/
def SourceBits.set (b : SourceBits) (k : Source) (v : Bool) : SourceBits :=
  match k with
  | .irq2 => { b with irq2 := v }
  | .hipWrite => { b with hipWrite := v }
  | .hipRead => { b with hipRead := v }
  | .irql1 => { b with irql1 := v }
  | .irql0 => { b with irql0 := v }
  | .sport0Tx => { b with sport0Tx := v }
  | .sport0Rx => { b with sport0Rx := v }
  | .soft1 => { b with soft1 := v }
  | .soft2 => { b with soft2 := v }
  | .irqe => { b with irqe := v }
  | .byteDma => { b with byteDma := v }
  | .dac => { b with dac := v }
  | .adc => { b with adc := v }
  | .sport1Tx => { b with sport1Tx := v }
  | .sport1Rx => { b with sport1Rx := v }
  | .timer => { b with timer := v }

/-! ## The members -/

/-- The vector table of a member, highest priority first (60_exceptions.md R246 to R251). -/
def vectorTable : Proc → List (Source × Addr)
  | .adsp2101 | .adsp2115 =>
    [(.irq2, 0x0004), (.sport0Tx, 0x0008), (.sport0Rx, 0x000C), (.sport1Tx, 0x0010),
      (.sport1Rx, 0x0014), (.timer, 0x0018)]
  | .adsp2105 => [(.irq2, 0x0004), (.sport1Tx, 0x0010), (.sport1Rx, 0x0014), (.timer, 0x0018)]
  | .adsp2111 =>
    [(.irq2, 0x0004), (.hipWrite, 0x0008), (.hipRead, 0x000C), (.sport0Tx, 0x0010),
      (.sport0Rx, 0x0014), (.sport1Tx, 0x0018), (.sport1Rx, 0x001C), (.timer, 0x0020)]
  | .adsp2171 =>
    [(.irq2, 0x0004), (.hipWrite, 0x0008), (.hipRead, 0x000C), (.sport0Tx, 0x0010),
      (.sport0Rx, 0x0014), (.soft1, 0x0018), (.soft2, 0x001C), (.sport1Tx, 0x0020),
      (.sport1Rx, 0x0024), (.timer, 0x0028)]
  | .adsp2181 =>
    [(.irq2, 0x0004), (.irql1, 0x0008), (.irql0, 0x000C), (.sport0Tx, 0x0010),
      (.sport0Rx, 0x0014), (.irqe, 0x0018), (.byteDma, 0x001C), (.sport1Tx, 0x0020),
      (.sport1Rx, 0x0024), (.timer, 0x0028)]
  | .adsp21msp58 | .adsp21msp59 =>
    [(.irq2, 0x0004), (.hipWrite, 0x0008), (.hipRead, 0x000C), (.sport0Tx, 0x0010),
      (.sport0Rx, 0x0014), (.dac, 0x0018), (.adc, 0x001C), (.sport1Tx, 0x0020),
      (.sport1Rx, 0x0024), (.timer, 0x0028)]

/-- The sources of a member. -/
def sources (p : Proc) : List Source := (vectorTable p).map (·.1)

/-- Whether a member has a source. -/
def hasSource (p : Proc) (k : Source) : Bool := (sources p).contains k

/-- The vector address of a source; 0 for a source the member does not have. -/
def vector (p : Proc) (k : Source) : Addr := ((vectorTable p).lookup k).getD 0

/-- The priority level of a source and its IMASK bit:
`(vector(timer) - vector(k)) / 4` (60_exceptions.md R256). -/
def level (p : Proc) (k : Source) : Nat := ((vector p .timer).toNat - (vector p k).toNat) / 4

/-- `NSRC`, the number of maskable sources (R4). -/
def nsrc (p : Proc) : Nat := (vectorTable p).length

/-- `W_IMASK`, the width of IMASK: one more than the highest level (R4, D11). -/
def wImask (p : Proc) : Nat := level p .irq2 + 1

/-- The members with the power-down interrupt at 0x002C, `HAS_POWERDOWN` (R4). It is recorded only: no
power-down request comes (60_exceptions.md R278, log entry 32). -/
def hasPowerdown : Proc → Bool
  | .adsp2171 | .adsp2181 | .adsp21msp58 | .adsp21msp59 => true
  | .adsp2101 | .adsp2115 | .adsp2105 | .adsp2111 => false

/-- The members with ENA INTS and DIS INTS, `HAS_GLOBAL_INTS` (R4). -/
def hasGlobalInts : Proc → Bool
  | .adsp2171 | .adsp2181 | .adsp21msp58 | .adsp21msp59 => true
  | .adsp2101 | .adsp2115 | .adsp2105 | .adsp2111 => false

/-- The members with the hold-off after a write of IMASK, `IMASK_WRITE_HOLDOFF` (R4). -/
def hasHoldoff : Proc → Bool
  | .adsp2171 | .adsp2181 | .adsp21msp58 | .adsp21msp59 => true
  | .adsp2101 | .adsp2115 | .adsp2105 | .adsp2111 => false

/-- The low `W_IMASK` bits of a value (44_status_mode.md R177). -/
def imaskOf (p : Proc) (v : Bus) : BitVec 10 := v.setWidth 10 &&& BitVec.ofNat 10 (2 ^ wImask p - 1)

/-! ## Requests -/

/-- The interrupt configuration in force, one step behind a write (70_reset_and_hazards.md R304). -/
def State.icntlEff (s : State) : BitVec 5 := if s.icntlDelay = 0 then s.icntl else s.icntlOld

/-- The global interrupt enable in force (44_status_mode.md R188; the parameter INTS_DELAY, U15). -/
def State.intsEff (s : State) : Bool := if s.intsDelay = 0 then s.intsEnabled else s.intsOld

/-- The ICNTL sensitivity bit of a source, for the sources that have one: IRQ2, and IRQ1 and IRQ0 where
SPORT1 serves as those pins (10_state.md R34, 60_exceptions.md R254). -/
def sensitivityBit (c : Cfg) : Source → Option Nat
  | .irq2 => some 2
  | .sport1Tx => if c.sport1IsIrq then some 1 else none
  | .sport1Rx => if c.sport1IsIrq then some 0 else none
  | _ => none

/-- Whether a source is requested by a pin and not by an internal event (60_exceptions.md R250, R252,
R254). -/
def isExternal (c : Cfg) : Source → Bool
  | .irq2 | .irql1 | .irql0 | .irqe => true
  | .sport1Tx | .sport1Rx => c.sport1IsIrq
  | _ => false

/-- Whether a source is edge-sensitive under an interrupt configuration: by its ICNTL bit where it has
one, never for IRQL1 and IRQL0, always for IRQE and the internal sources (60_exceptions.md R250, R252). -/
def edgeUnder (c : Cfg) (icntl : BitVec 5) (k : Source) : Bool :=
  match sensitivityBit c k with
  | some b => icntl.getLsbD b
  | none => k != .irql1 && k != .irql0

/-- Whether a source is edge-sensitive now (60_exceptions.md R259). -/
def State.edge (s : State) (k : Source) : Bool := edgeUnder s.cfg s.icntlEff k

/-- `Requested(k)` (60_exceptions.md R259): the latch of an edge-sensitive source, the low pin of a
level-sensitive one. -/
def State.requested (s : State) (k : Source) : Bool := if s.edge k then s.req.get k else s.pins.get k

/-- The mask bit of a source (10_state.md R35). -/
def State.enabled (s : State) (k : Source) : Bool := s.imask.getLsbD (level s.cfg.proc k)

/-- `Serviceable()` (60_exceptions.md R259): nothing while interrupts are disabled or held off, else the
highest of the requested and enabled sources (R257), the table being in priority order. -/
def State.serviceable (s : State) : Option Source :=
  if hasGlobalInts s.cfg.proc && !s.intsEff then none
  else if s.imaskHoldoff != 0 then none
  else (sources s.cfg.proc).find? fun k => s.requested k && s.enabled k

end Sys2Proof.Machine

/-- `STATUS_STACK_DEPTH`, never less than `NSRC` (00_scope.md R5, 60_exceptions.md R263). -/
def Sys2Proof.Cfg.statusDepth (c : Sys2Proof.Cfg) : Nat := Sys2Proof.Machine.nsrc c.proc + c.statusSpare
end

