-- ==== Sys2Proof/Machine/Ops.lean ====
section
/-! DEFINITION. The named operations: the updates of the state, program memory, the stacks, taking an
interrupt and returning from one, reset, the end of a step, and the inputs. -/

namespace Sys2Proof.Machine

/-! ## Updates of the state -/

/-- Replaces the program counter. -/
def State.setPc (s : State) (v : Addr) : State := { s with pc := v }

/-- Replaces the PC stack. -/
def State.setPcstk (s : State) (v : Stack Addr) : State := { s with pcstk := v }

/-- Replaces the count stack. -/
def State.setCntstk (s : State) (v : Stack Count) : State := { s with cntstk := v }

/-- Replaces the loop stack. -/
def State.setLpstk (s : State) (v : Stack LoopWord) : State := { s with lpstk := v }

/-- Replaces the status stack. -/
def State.setStstk (s : State) (v : Stack StatusWord) : State := { s with ststk := v }

/-- Replaces the counter. -/
def State.setCntr (s : State) (v : Count) : State := { s with cntr := v }

/-- Replaces whether the counter holds a count. -/
def State.setCntrValid (s : State) (v : Bool) : State := { s with cntrValid := v }

/-- Replaces ASTAT. -/
def State.setAstat (s : State) (v : BitVec 8) : State := { s with astat := v }

/-- Replaces MSTAT. -/
def State.setMstat (s : State) (v : BitVec 7) : State := { s with mstat := v }

/-- Replaces ICNTL with the configuration still in force and its delay. -/
def State.setIcntl (s : State) (v : BitVec 5) (w : BitVec 5) (x : Nat) : State :=
  { s with icntl := v, icntlOld := w, icntlDelay := x }

/-- Replaces whether an ICNTL written since reset is in force. -/
def State.setIcntlKnown (s : State) (v : Bool) : State := { s with icntlKnown := v }

/-- Replaces IMASK. -/
def State.setImask (s : State) (v : BitVec 10) : State := { s with imask := v }

/-- Replaces the IMASK hold-off. -/
def State.setHoldoff (s : State) (v : Nat) : State := { s with imaskHoldoff := v }

/-- Replaces the global interrupt enable with the value still in force and its delay. -/
def State.setInts (s : State) (v : Bool) (w : Bool) (x : Nat) : State :=
  { s with intsEnabled := v, intsOld := w, intsDelay := x }

/-- Replaces the request latches. -/
def State.setReq (s : State) (v : SourceBits) : State := { s with req := v }

/-- Replaces the idle state. -/
def State.setIdle (s : State) (v : Bool) : State := { s with idle := v }

/-- Replaces the idle clock divisor. -/
def State.setIdleDiv (s : State) (v : IdleDiv) : State := { s with idleDiv := v }

/-- Replaces the kinds of the last two instructions. -/
def State.setKinds (s : State) (v : Kind) (w : Kind) : State :=
  { s with prevKind := v, prev2Kind := w }

/-- Replaces the two register banks. -/
def State.setBanks (s : State) (v : Bank) (w : Bank) : State :=
  { s with primary := v, shadow := w }

/-- Replaces the address-generator registers. -/
def State.setDag (s : State) (v : Dag) : State := { s with dag := v }

/-- Replaces PX and the serial-port registers. -/
def State.setPorts (s : State) (v : Ports) : State := { s with ports := v }

/-- Replaces program memory from outside the machine, which begins a run: no location of it has been
stored to by an instruction (20_memory.md R61). -/
def State.setPm (s : State) (v : List Host.Cell) : State := { s with pm := v, pmStored := [] }

/-- Replaces the record of the locations stored to. -/
def State.setPmStored (s : State) (v : List Addr) : State := { s with pmStored := v }

/-- Replaces the pin levels. -/
def State.setPins (s : State) (v : SourceBits) : State := { s with pins := v }

/-- Replaces the FI pin. -/
def State.setFlagIn (s : State) (v : Bool) : State := { s with flagIn := v }

/-- Replaces the coming inputs. -/
def State.setInputs (s : State) (v : List (List Input)) : State := { s with inputs := v }

/-- Replaces the counter of free values. -/
def State.setFreeTick (s : State) (v : Nat) : State := { s with freeTick := v }

/-! ## Program memory

A word of 24 bits is three bytes, at the keys `3 * a`, `3 * a + 1` and `3 * a + 2` (log entry 8). The
spec addresses whole words alone (20_memory.md R51, R54). -/

/-- One more than the greatest key of program memory: 2^14 words of three bytes (20_memory.md R51). -/
def Memory.size : Nat := 3 * 2 ^ 14

/-- The canonical form: keys strictly rising and inside the address space. What an unlisted key reads
as is no byte, so no listed byte equals it. -/
abbrev Memory.wf (m : List Host.Cell) : Prop :=
  (m.map (·.1)).Pairwise (· < ·) ∧ ∀ c ∈ m, c.1 < Memory.size

/-- One byte; none where nothing is listed. -/
def Memory.readByte (m : List Host.Cell) (key : Nat) : Option Byte := m.lookup key

/-- Stores one byte in its place. -/
def Memory.writeByte : List Host.Cell → Nat → Byte → List Host.Cell
  | [], key, b => [(key, b)]
  | (k, v) :: rest, key, b =>
    if key < k then (key, b) :: (k, v) :: rest
    else if key = k then (key, b) :: rest
    else (k, v) :: Memory.writeByte rest key b

/-- `PMRead(a)` (20_memory.md R52); none where a byte of the word is not listed. -/
def Memory.readWord (m : List Host.Cell) (a : Addr) : Option Insn :=
  match Memory.readByte m (3 * a.toNat), Memory.readByte m (3 * a.toNat + 1),
    Memory.readByte m (3 * a.toNat + 2) with
  | some b0, some b1, some b2 => some (insnOfBytes b0 b1 b2)
  | _, _, _ => none

/-- Stores an instruction word. No instruction does it (20_memory.md R61): it places a program. -/
def Memory.writeWord (m : List Host.Cell) (a : Addr) (w : Insn) : List Host.Cell :=
  let m0 := Memory.writeByte m (3 * a.toNat) (field w 0 8)
  let m1 := Memory.writeByte m0 (3 * a.toNat + 1) (field w 8 8)
  Memory.writeByte m1 (3 * a.toNat + 2) (field w 16 8)

/-- The instruction word at the program counter; none where nothing has placed one, and none where an
instruction has stored to the location (20_memory.md R61). -/
def State.fetch (s : State) : Option Insn :=
  if s.pmStored.contains s.pc then none else Memory.readWord s.pm s.pc

/-- Records the location of program memory that an instruction outside the spec stores to. -/
def State.noteStore (s : State) : Option Addr → State
  | none => s
  | some a => if s.pmStored.contains a then s else s.setPmStored (a :: s.pmStored)

/-! ## Stacks -/

/-- The depth of the PC stack (10_state.md R12). -/
def pcDepth : Nat := 16

/-- The depth of the count stack (10_state.md R20). -/
def countDepth : Nat := 4

/-- The depth of the loop stack (10_state.md R21). -/
def loopDepth : Nat := 4

/-- `Push(S, v)` (10_state.md R13): a full stack keeps its words, loses the new one and sets its sticky
overflow bit, which is the record of the loss that D5 asks for (log entry 10). -/
def Stack.push {α : Type} (depth : Nat) (st : Stack α) (v : α) : Stack α :=
  if st.words.length < depth then { st with words := v :: st.words }
  else if st.surplus = 0 then { st with lost := st.lost + 1, ovf := true }
  else { st with surplus := st.surplus - 1, ovf := true }

/-- The words below the top, for a pop (10_state.md R14). -/
def Stack.drop {α : Type} (st : Stack α) : Stack α := { st with words := st.words.tail }

/-- `empty(S)`: pops have reached pushes (10_state.md R15, U3). -/
def Stack.isEmpty {α : Type} (st : Stack α) : Bool := decide (st.words.length + st.lost ≤ st.surplus)

/-- A pop that finds no word: it is owed to a lost push, or goes beyond the pushes (10_state.md R15). -/
def Stack.popNone {α : Type} (st : Stack α) : Stack α :=
  if st.lost = 0 then { st with surplus := st.surplus + 1 } else { st with lost := st.lost - 1 }

/-- Pushes on the PC stack. -/
def State.pushPc (s : State) (a : Addr) : State := s.setPcstk (s.pcstk.push pcDepth a)

/-- `Pop(pcstk)`: the top word and the state without it; refused on a stack with no word (R14, U1). -/
def State.popPc (s : State) : Except Refusal (Addr × State) :=
  match s.pcstk.words with
  | [] => .error (.emptyStack .pc)
  | a :: _ => .ok (a, s.setPcstk s.pcstk.drop)

/-- `Pop(lpstk)`. -/
def State.popLoop (s : State) : Except Refusal (LoopWord × State) :=
  match s.lpstk.words with
  | [] => .error (.emptyStack .loop)
  | w :: _ => .ok (w, s.setLpstk s.lpstk.drop)

/-- Pushes `{ASTAT, MSTAT, IMASK}` on the status stack (10_state.md R22). -/
def State.pushStatus (s : State) : State :=
  s.setStstk (s.ststk.push s.cfg.statusDepth ⟨s.astat, s.mstat, s.imask⟩)

/-- Puts a status word back into ASTAT, MSTAT and IMASK. It starts the IMASK hold-off only under the
parameter RTI_STARTS_HOLDOFF (U12). -/
def State.restoreStatus (s : State) (w : StatusWord) : State :=
  let s1 := ((s.setAstat w.astat).setMstat w.mstat).setImask w.imask
  if s.cfg.rtiStartsHoldoff && hasHoldoff s.cfg.proc then s1.setHoldoff 2 else s1

/-- `Pop(ststk)` into ASTAT, MSTAT and IMASK; refused on a stack with no word (R14, U1). -/
def State.popStatus (s : State) : Except Refusal State :=
  match s.ststk.words with
  | [] => .error (.emptyStack .status)
  | w :: _ => .ok ((s.setStstk s.ststk.drop).restoreStatus w)

/-- The direct pop of the count stack (44_status_mode.md R183). With no word there, CNTR and whether it
is valid are unspecified, so both are free (D6, log entry 13). -/
def State.popCount (s : State) : State :=
  match s.cntstk.words with
  | v :: _ => (s.setCntstk s.cntstk.drop).setCntr v
  | [] =>
    ((((s.setCntstk s.cntstk.popNone).setCntr
      (Config.freeCount s.freeTick)).setCntrValid (Config.freeBit s.freeTick))).setFreeTick
      (s.freeTick + 1)

/-- What a true CE does to the count stack (45_conditions.md R203): the enclosing loop's count comes
back, or, with the stack empty, the counter becomes invalid. A pop that is owed to a lost word finds
none, and its value is free (U3, log entry 13). -/
def State.expireCount (s : State) : State :=
  match s.cntstk.words with
  | v :: _ => (s.setCntstk s.cntstk.drop).setCntr v
  | [] =>
    if s.cntstk.lost = 0 then s.setCntrValid false
    else
      ((s.setCntstk { s.cntstk with lost := s.cntstk.lost - 1 }).setCntr
        (Config.freeCount s.freeTick)).setFreeTick (s.freeTick + 1)

/-- A load of CNTR (10_state.md R18): a valid count is pushed first. -/
def State.loadCounter (s : State) (v : Count) : State :=
  let s1 := if s.cntrValid then s.setCntstk (s.cntstk.push countDepth s.cntr) else s
  (s1.setCntr v).setCntrValid true

/-! ## The loop comparator -/

/-- The loop comparator (42_do_until.md R140): the instruction at the program counter is the last of the
innermost active loop. Only the top word is compared. A loop stack that keeps no word matches nothing, also
where pushes it lost are not popped yet: DESIGN CHOICE, log entry 43. -/
def State.atLoopEnd (s : State) : Bool :=
  match s.lpstk.words with
  | [] => false
  | w :: _ => w.fin == s.pc

/-- The instruction at the program counter is the last of a loop that ends on CE. -/
def State.atCeLoopEnd (s : State) : Bool :=
  match s.lpstk.words with
  | [] => false
  | w :: _ => w.fin == s.pc && w.term == .ce

/-- The instruction at the program counter is the last but one of the innermost active loop. -/
def State.beforeLoopEnd (s : State) : Bool :=
  match s.lpstk.words with
  | [] => false
  | w :: _ => w.fin == inc s.pc

/-! ## Taking an interrupt, and returning from one -/

/-- IMASK after entry (60_exceptions.md R262): 0 with nesting off; with nesting on, the bits up to the
level serviced are cleared. -/
def imaskAfter (nesting : Bool) (lvl : Nat) (imask : BitVec 10) : BitVec 10 :=
  if nesting then imask &&& ~~~(BitVec.ofNat 10 (2 ^ (lvl + 1) - 1)) else 0

/-- Interrupt entry, `raise Interrupt(k)` (60_exceptions.md R260). -/
def takeInterrupt (k : Source) (s : State) : State :=
  let s1 := (s.pushPc s.pc).pushStatus
  let s2 := s1.setImask (imaskAfter (s.icntlEff.getLsbD 4) (level s.cfg.proc k) s.imask)
  let s3 := if s.edge k then s2.setReq (s.req.set k false) else s2
  s3.setPc (vector s.cfg.proc k)

/-- The return from an interrupt (41_jump_call_return.md R118): the return address, and the state with
both stacks popped and ASTAT, MSTAT and IMASK restored. -/
def returnFromInterrupt (s : State) : Except Refusal (Addr × State) :=
  match s.popPc with
  | .error e => .error e
  | .ok (a, s1) =>
    match s1.popStatus with
    | .error e => .error e
    | .ok s2 => .ok (a, s2)

/-! ## Reset -/

/-- `Reset()` (70_reset_and_hazards.md R290) in a running machine: the state after reset, with what the
processor does not own, program memory, the inputs and the configuration, as it was (log entry 38). -/
def State.restart (s : State) : State :=
  { State.reset with
    pm := s.pm
    pmStored := s.pmStored
    pins := s.pins
    flagIn := s.flagIn
    inputs := s.inputs
    cfg := s.cfg
    freeTick := s.freeTick }

/-! ## The end of a step -/

/-- What a change of a source's sensitivity bit does to a request that is present at that moment is not
said (70_reset_and_hazards.md R304, U13): its latch becomes a free bit (log entry 19). -/
def State.resense (old new : BitVec 5) (s : State) (k : Source) : State :=
  let present := if edgeUnder s.cfg old k then s.req.get k else s.pins.get k
  if edgeUnder s.cfg old k != edgeUnder s.cfg new k && present then
    (s.setReq (s.req.set k (Config.freeBit s.freeTick))).setFreeTick (s.freeTick + 1)
  else s

/-- The sources whose sensitivity ICNTL can set (10_state.md R34). -/
def sensedSources : List Source := [.irq2, .sport1Tx, .sport1Rx]

/-- The ICNTL part of the end of a step: a new configuration comes into force one step late
(70_reset_and_hazards.md R302, R304), and from then on the program's own is known (R296). -/
def State.ageIcntl (s : State) : State :=
  if s.icntlDelay = 1 then
    sensedSources.foldl (State.resense s.icntlOld s.icntl)
      ((s.setIcntl s.icntl s.icntl 0).setIcntlKnown true)
  else s.setIcntl s.icntl s.icntlOld (s.icntlDelay - 1)

/-- The ENA INTS part of the end of a step, for the parameter INTS_DELAY (U15). -/
def State.ageInts (s : State) : State :=
  s.setInts s.intsEnabled (if s.intsDelay = 1 then s.intsEnabled else s.intsOld) (s.intsDelay - 1)

/-- `EndOfStep()` (70_reset_and_hazards.md R302, R303), for a step that executed an instruction of the
given kind or made an interrupt entry. -/
def endOfStep (k : Kind) (s : State) : State :=
  (((s.setHoldoff (s.imaskHoldoff - 1)).ageIcntl).ageInts).setKinds k s.prevKind

/-! ## The inputs -/

/-- Replaces one device register. -/
def Ports.put (p : Ports) (r : Port) (v : BitVec 16) : Ports :=
  match r with
  | .rx0 => { p with rx0 := v }
  | .tx0 => { p with tx0 := v }
  | .rx1 => { p with rx1 := v }
  | .tx1 => { p with tx1 := v }

/-- Sets a source's request latch. -/
def State.latch (s : State) (k : Source) : State := s.setReq (s.req.set k true)

/-- One thing the environment does (70_reset_and_hazards.md R322). An internal event latches a request
of a source the member has, the timer's only while MSTAT enables it (60_exceptions.md R281); a
high-to-low change of an edge-sensitive pin latches a request (R252). -/
def applyInput (s : State) : Input → State
  | .reset => s
  | .event k =>
    if hasSource s.cfg.proc k && !isExternal s.cfg k && (k != .timer || s.mstat.getLsbD 5) then
      s.latch k
    else s
  | .pin k low =>
    if hasSource s.cfg.proc k && isExternal s.cfg k then
      let s1 := s.setPins (s.pins.set k low)
      if s.edge k && low && !s.pins.get k then s1.latch k else s1
    else s
  | .flagIn v => s.setFlagIn v
  | .port r v => s.setPorts (s.ports.put r v)

/-- Whether the environment asserts RESET before the coming step. -/
def State.resetAsserted (s : State) : Bool :=
  match s.inputs with
  | [] => false
  | batch :: _ => batch.contains .reset

/-- The state when the coming step begins: the first batch of inputs has happened. -/
def State.takeInputs (s : State) : State :=
  match s.inputs with
  | [] => s
  | batch :: rest => batch.foldl applyInput (s.setInputs rest)

end Sys2Proof.Machine
end

