-- ==== Sys2Proof/Machine/Flags.lean ====
section
/-! DEFINITION. The status bits and the conditions: ASTAT, SSTAT, the conditions of IF and of DO UNTIL,
and the counter-expired test (10_state.md R23 to R29; 45_conditions.md). -/

namespace Sys2Proof.Machine

/-! ## ASTAT (10_state.md R24) -/

/-- AZ, the result is zero. -/
def azBit (a : BitVec 8) : Bool := a.getLsbD 0

/-- AN, the result is negative. -/
def anBit (a : BitVec 8) : Bool := a.getLsbD 1

/-- AV, ALU overflow. -/
def avBit (a : BitVec 8) : Bool := a.getLsbD 2

/-- AC, ALU carry. -/
def acBit (a : BitVec 8) : Bool := a.getLsbD 3

/-- AS, the sign of the X operand of the last ABS. -/
def asBit (a : BitVec 8) : Bool := a.getLsbD 4

/-- MV, multiplier-accumulator overflow. -/
def mvBit (a : BitVec 8) : Bool := a.getLsbD 6

/-- The bits that the operations of a class write (10_state.md R25), at the places of R24. -/
def classMask : StatusClass → BitVec 8
  | .alu => 0b00001111
  | .abs => 0b00011111
  | .divide => 0b00100000
  | .multiply => 0b01000000
  | .exponent => 0b10000000
  | .none => 0

/-- ASTAT after an operation of a class that computes the bits `v` (10_state.md R25). With the ALU overflow
latch on, an AV that is set stays set (10_state.md R31, 44_status_mode.md R171). -/
def statusAfter (latch : Bool) (c : StatusClass) (old v : BitVec 8) : BitVec 8 :=
  let computed := (old &&& ~~~(classMask c)) ||| (v &&& classMask c)
  if latch then computed ||| (old &&& 0b00000100) else computed

/-! ## SSTAT -/

/-- SSTAT (10_state.md R27, R28), a view of the four stacks: bit 0 PC stack empty, then PC stack overflow
and so on for the count, status and loop stacks. -/
def State.sstat (s : State) : BitVec 8 :=
  BitVec.ofBool s.lpstk.ovf ++ BitVec.ofBool s.lpstk.isEmpty ++
    BitVec.ofBool s.ststk.ovf ++ BitVec.ofBool s.ststk.isEmpty ++
    BitVec.ofBool s.cntstk.ovf ++ BitVec.ofBool s.cntstk.isEmpty ++
    BitVec.ofBool s.pcstk.ovf ++ BitVec.ofBool s.pcstk.isEmpty

/-! ## Conditions -/

/-- CE, counter expired: the counter is 1 (45_conditions.md R202). -/
def expired (cntr : Count) : Bool := cntr == 1

/-- `Cond(c)` (45_conditions.md R201), which writes nothing; for NOT CE it is the test without a
decrement (R204). -/
def condHolds (a : BitVec 8) (cntr : Count) : Cond → Bool
  | .eq => azBit a
  | .ne => !azBit a
  | .lt => anBit a ^^ avBit a
  | .ge => !(anBit a ^^ avBit a)
  | .le => (anBit a ^^ avBit a) || azBit a
  | .gt => !((anBit a ^^ avBit a) || azBit a)
  | .ac => acBit a
  | .notAc => !acBit a
  | .av => avBit a
  | .notAv => !avBit a
  | .mv => mvBit a
  | .notMv => !mvBit a
  | .neg => asBit a
  | .pos => !asBit a
  | .notCe => !expired cntr

/-- The truth of a termination condition (42_do_until.md R133); FOREVER is never true (R144). -/
def termHolds (a : BitVec 8) (cntr : Count) : Term → Bool
  | .eq => azBit a
  | .ne => !azBit a
  | .lt => anBit a ^^ avBit a
  | .ge => !(anBit a ^^ avBit a)
  | .le => (anBit a ^^ avBit a) || azBit a
  | .gt => !((anBit a ^^ avBit a) || azBit a)
  | .ac => acBit a
  | .notAc => !acBit a
  | .av => avBit a
  | .notAv => !avBit a
  | .mv => mvBit a
  | .notMv => !mvBit a
  | .neg => asBit a
  | .pos => !asBit a
  | .ce => expired cntr
  | .forever => false

/-- With the guard on, a test of CE while the counter is invalid is refused (45_conditions.md R202, U6,
log entry 15). -/
def State.counterRefused (s : State) : Bool := s.cfg.guardInvalidCounter && !s.cntrValid

/-- `TestCE_decrementing()` (45_conditions.md R203): the test is made on `old`, the counter as the
instruction found it; the decrement on the counter as it stands; a true CE then takes the count stack. -/
def State.testCe (old : Count) (s : State) : Bool × State :=
  let s1 := s.setCntr (s.cntr - 1)
  if expired old then (true, s1.expireCount) else (false, s1)

/-- The condition of an instruction that does not decrement (45_conditions.md R204): whether it holds. -/
def State.condition (s : State) (c : Cond) : Except Refusal Bool :=
  if c = .notCe && s.counterRefused then .error .invalidCounter else .ok (condHolds s.astat s.cntr c)

end Sys2Proof.Machine
end

