-- ==== Sys2Proof/Machine/Operands.lean ====
section
/-! DEFINITION. The operands of the register moves: what a register puts on the DMD bus and what a write
from the bus does to it (44_status_mode.md R170 to R178; 10_state.md R33, R40; D22). -/

namespace Sys2Proof.Machine

/-! ## The registers outside the sequencer -/

/-- The active bank, chosen by MSTAT bit 0 (10_state.md R31, R33). -/
def State.bank (s : State) : Bank := if s.mstat.getLsbD 0 then s.shadow else s.primary

/-- Replaces the active bank. -/
def State.setBank (s : State) (b : Bank) : State :=
  if s.mstat.getLsbD 0 then s.setBanks s.primary b else s.setBanks b s.shadow

/-- The bus value of a register outside the sequencer, zero-extended (D22); 0 for the sequencer's own,
which `readReg` reads. -/
def State.readPlain (s : State) : Reg → Bus
  | .ax0 => s.bank.ax0
  | .ax1 => s.bank.ax1
  | .ay0 => s.bank.ay0
  | .ay1 => s.bank.ay1
  | .ar => s.bank.ar
  | .mx0 => s.bank.mx0
  | .mx1 => s.bank.mx1
  | .my0 => s.bank.my0
  | .my1 => s.bank.my1
  | .mr0 => s.bank.mr0
  | .mr1 => s.bank.mr1
  | .si => s.bank.si
  | .sr0 => s.bank.sr0
  | .sr1 => s.bank.sr1
  | .mr2 => s.bank.mr2.setWidth 16
  | .se => s.bank.se.setWidth 16
  | .sb => s.bank.sb.setWidth 16
  | .i0 => s.dag.i0.setWidth 16
  | .i1 => s.dag.i1.setWidth 16
  | .i2 => s.dag.i2.setWidth 16
  | .i3 => s.dag.i3.setWidth 16
  | .i4 => s.dag.i4.setWidth 16
  | .i5 => s.dag.i5.setWidth 16
  | .i6 => s.dag.i6.setWidth 16
  | .i7 => s.dag.i7.setWidth 16
  | .m0 => s.dag.m0.setWidth 16
  | .m1 => s.dag.m1.setWidth 16
  | .m2 => s.dag.m2.setWidth 16
  | .m3 => s.dag.m3.setWidth 16
  | .m4 => s.dag.m4.setWidth 16
  | .m5 => s.dag.m5.setWidth 16
  | .m6 => s.dag.m6.setWidth 16
  | .m7 => s.dag.m7.setWidth 16
  | .l0 => s.dag.l0.setWidth 16
  | .l1 => s.dag.l1.setWidth 16
  | .l2 => s.dag.l2.setWidth 16
  | .l3 => s.dag.l3.setWidth 16
  | .l4 => s.dag.l4.setWidth 16
  | .l5 => s.dag.l5.setWidth 16
  | .l6 => s.dag.l6.setWidth 16
  | .l7 => s.dag.l7.setWidth 16
  | .px => s.ports.px.setWidth 16
  | .rx0 => s.ports.rx0
  | .tx0 => s.ports.tx0
  | .rx1 => s.ports.rx1
  | .tx1 => s.ports.tx1
  | .astat | .mstat | .sstat | .imask | .icntl | .cntr | .ifc | .owrcntr | .toppcstack => 0

/-- A write to a register outside the sequencer, which takes the low bits of the bus (D22); nothing for
the sequencer's own, which `writeReg` writes. -/
def State.writePlain (s : State) (r : Reg) (v : Bus) : State :=
  match r with
  | .ax0 => s.setBank { s.bank with ax0 := v }
  | .ax1 => s.setBank { s.bank with ax1 := v }
  | .ay0 => s.setBank { s.bank with ay0 := v }
  | .ay1 => s.setBank { s.bank with ay1 := v }
  | .ar => s.setBank { s.bank with ar := v }
  | .mx0 => s.setBank { s.bank with mx0 := v }
  | .mx1 => s.setBank { s.bank with mx1 := v }
  | .my0 => s.setBank { s.bank with my0 := v }
  | .my1 => s.setBank { s.bank with my1 := v }
  | .mr0 => s.setBank { s.bank with mr0 := v }
  | .mr1 => s.setBank { s.bank with mr1 := v }
  | .si => s.setBank { s.bank with si := v }
  | .sr0 => s.setBank { s.bank with sr0 := v }
  | .sr1 => s.setBank { s.bank with sr1 := v }
  | .mr2 => s.setBank { s.bank with mr2 := v.setWidth 8 }
  | .se => s.setBank { s.bank with se := v.setWidth 8 }
  | .sb => s.setBank { s.bank with sb := v.setWidth 5 }
  | .i0 => s.setDag { s.dag with i0 := v.setWidth 14 }
  | .i1 => s.setDag { s.dag with i1 := v.setWidth 14 }
  | .i2 => s.setDag { s.dag with i2 := v.setWidth 14 }
  | .i3 => s.setDag { s.dag with i3 := v.setWidth 14 }
  | .i4 => s.setDag { s.dag with i4 := v.setWidth 14 }
  | .i5 => s.setDag { s.dag with i5 := v.setWidth 14 }
  | .i6 => s.setDag { s.dag with i6 := v.setWidth 14 }
  | .i7 => s.setDag { s.dag with i7 := v.setWidth 14 }
  | .m0 => s.setDag { s.dag with m0 := v.setWidth 14 }
  | .m1 => s.setDag { s.dag with m1 := v.setWidth 14 }
  | .m2 => s.setDag { s.dag with m2 := v.setWidth 14 }
  | .m3 => s.setDag { s.dag with m3 := v.setWidth 14 }
  | .m4 => s.setDag { s.dag with m4 := v.setWidth 14 }
  | .m5 => s.setDag { s.dag with m5 := v.setWidth 14 }
  | .m6 => s.setDag { s.dag with m6 := v.setWidth 14 }
  | .m7 => s.setDag { s.dag with m7 := v.setWidth 14 }
  | .l0 => s.setDag { s.dag with l0 := v.setWidth 14 }
  | .l1 => s.setDag { s.dag with l1 := v.setWidth 14 }
  | .l2 => s.setDag { s.dag with l2 := v.setWidth 14 }
  | .l3 => s.setDag { s.dag with l3 := v.setWidth 14 }
  | .l4 => s.setDag { s.dag with l4 := v.setWidth 14 }
  | .l5 => s.setDag { s.dag with l5 := v.setWidth 14 }
  | .l6 => s.setDag { s.dag with l6 := v.setWidth 14 }
  | .l7 => s.setDag { s.dag with l7 := v.setWidth 14 }
  | .px => s.setPorts { s.ports with px := v.setWidth 8 }
  | .rx0 => s.setPorts { s.ports with rx0 := v }
  | .tx0 => s.setPorts { s.ports with tx0 := v }
  | .rx1 => s.setPorts { s.ports with rx1 := v }
  | .tx1 => s.setPorts { s.ports with tx1 := v }
  | .astat | .mstat | .sstat | .imask | .icntl | .cntr | .ifc | .owrcntr | .toppcstack => s

/-! ## IFC -/

/-- Whether a source has IFC bits (60_exceptions.md R272; the ADSP-2101's six have, 10_state.md R36).
For the sources R272 leaves unsaid it is open (log entry 20). -/
def hasIfcBits (p : Proc) (k : Source) : Bool :=
  match k with
  | .hipWrite | .hipRead => false
  | .irq2 | .sport0Tx | .sport0Rx | .sport1Tx | .sport1Rx | .timer | .dac | .adc | .soft1 | .soft2 =>
    true
  | .irqe | .irql1 | .irql0 | .byteDma => Config.ifcHasBits p k

/-- The position of a source's clear bit: for the ADSP-2101 its level (10_state.md R36). -/
def ifcClearBit (p : Proc) (k : Source) : Nat :=
  match p with
  | .adsp2101 => level p k
  | _ => (Config.ifcClearPos p k).val

/-- The position of a source's force bit: for the ADSP-2101 6 above its level (10_state.md R36). -/
def ifcForceBit (p : Proc) (k : Source) : Nat :=
  match p with
  | .adsp2101 => 6 + level p k
  | _ => (Config.ifcForcePos p k).val

/-- Whether a bus value forces a source. -/
def ifcForces (p : Proc) (v : Bus) (k : Source) : Bool := hasIfcBits p k && v.getLsbD (ifcForceBit p k)

/-- Whether a bus value clears a source. -/
def ifcClears (p : Proc) (v : Bus) (k : Source) : Bool := hasIfcBits p k && v.getLsbD (ifcClearBit p k)

/-- What a write of IFC does to one source: nothing to a level-sensitive one (60_exceptions.md R270,
R271, U17). -/
def State.ifcOne (v : Bus) (s : State) (k : Source) : State :=
  if !s.edge k then s
  else if ifcForces s.cfg.proc v k then s.setReq (s.req.set k true)
  else if ifcClears s.cfg.proc v k then s.setReq (s.req.set k false)
  else s

/-- Whether a bus value has both bits of one source (U14). -/
def ifcConflict (p : Proc) (v : Bus) : Bool :=
  (sources p).any fun k => ifcForces p v k && ifcClears p v k

/-- A write of IFC (44_status_mode.md R178). -/
def State.writeIfc (s : State) (v : Bus) : Except Refusal State :=
  if ifcConflict s.cfg.proc v then .error .ifcForceAndClear
  else .ok ((sources s.cfg.proc).foldl (State.ifcOne v) s)

/-! ## All registers -/

/-- What a read of ICNTL delivers: bit 3 reads as 0 (10_state.md R34, log entry 21). -/
def icntlRead (v : BitVec 5) : Bus := (v &&& 0b10111).setWidth 16

/-- A read of a register as the source of a move: its bus value, zero-extended (44_status_mode.md R171 to
R177, D22), and the state after it. A read of CNTR while it is invalid is unspecified (10_state.md R17),
so its value is free (log entry 14). -/
def State.readReg (s : State) (r : Reg) : Except Refusal (Bus × State) :=
  match r with
  | .astat => .ok (s.astat.setWidth 16, s)
  | .mstat => .ok (s.mstat.setWidth 16, s)
  | .sstat => .ok (s.sstat.setWidth 16, s)
  | .imask => .ok (s.imask.setWidth 16, s)
  | .icntl => .ok (icntlRead s.icntl, s)
  | .cntr =>
    if s.cntrValid then .ok (s.cntr.setWidth 16, s)
    else .ok ((Config.freeCount s.freeTick).setWidth 16, s.setFreeTick (s.freeTick + 1))
  | .ifc | .owrcntr | .toppcstack => .error .badMove
  | r => .ok (s.readPlain r, s)

/-- Whether a value written to IMASK enables a source that was masked. -/
def State.unmasks (s : State) (v : Bus) : Bool :=
  (sources s.cfg.proc).any fun k => v.getLsbD (level s.cfg.proc k) && !s.enabled k

/-- A write of IMASK by an instruction (44_status_mode.md R177), which starts the hold-off on the members
that have it (60_exceptions.md R258). To unmask a source while ICNTL is still undefined is refused
(70_reset_and_hazards.md R296; U2; log entry 46). -/
def State.writeImask (s : State) (v : Bus) : Except Refusal State :=
  if !s.icntlKnown && s.unmasks v then .error .unmaskBeforeIcntl
  else
    let s1 := s.setImask (imaskOf s.cfg.proc v)
    .ok (if hasHoldoff s.cfg.proc then s1.setHoldoff 2 else s1)

/-- A write of ICNTL (44_status_mode.md R176, 70_reset_and_hazards.md R304). -/
def State.writeIcntl (s : State) (v : Bus) : State :=
  s.setIcntl (v.setWidth 5) (if s.icntlDelay = 0 then s.icntl else s.icntlOld) 2

/-- A write of CNTR (44_status_mode.md R174); refused in the last instruction of a CE loop (U8). -/
def State.writeCntr (s : State) (v : Bus) : Except Refusal State :=
  if s.atCeLoopEnd then .error .cntrAtLoopEnd else .ok (s.loadCounter (v.setWidth 14))

/-- A write of OWRCNTR (44_status_mode.md R175); refused in the last instruction of a loop. -/
def State.writeOwrcntr (s : State) (v : Bus) : Except Refusal State :=
  if s.atLoopEnd then .error .owrcntrAtLoopEnd
  else .ok ((s.setCntr (v.setWidth 14)).setCntrValid true)

/-- A write of a register as the destination of a move (44_status_mode.md R171 to R178). -/
def State.writeReg (s : State) (r : Reg) (v : Bus) : Except Refusal State :=
  match r with
  | .astat => .ok (s.setAstat (v.setWidth 8))
  | .mstat => .ok (s.setMstat (v.setWidth 7))
  | .imask => s.writeImask v
  | .icntl => .ok (s.writeIcntl v)
  | .cntr => s.writeCntr v
  | .owrcntr => s.writeOwrcntr v
  | .ifc => s.writeIfc v
  | .sstat | .toppcstack => .error .badMove
  | r => .ok (s.writePlain r v)

/-- `dst = src;` (44_status_mode.md R170): the source is read while the old MSTAT is in force (R172). -/
def State.move (s : State) (dst src : Reg) : Except Refusal State :=
  match s.readReg src with
  | .error e => .error e
  | .ok (v, s1) => s1.writeReg dst v

/-- The 14-bit address an index register gives an indirect jump (41_jump_call_return.md R113). -/
def State.index (s : State) : IReg → Addr
  | .i4 => s.dag.i4
  | .i5 => s.dag.i5
  | .i6 => s.dag.i6
  | .i7 => s.dag.i7

end Sys2Proof.Machine
end

