-- ==== Sys2Proof/Machine/Sequence.lean ====
section
/-! DEFINITION. What every instruction's step has in common: the hazards that refuse it, the next address,
the loop end and the end of the step (40_sequencer.md R95, R96; 42_do_until.md R141;
46_toppcstack.md R222, R228, R231). -/

namespace Sys2Proof.Machine

/-- Where an instruction sends control (40_sequencer.md R95): on in sequence, to a target, or into idle. -/
inductive Flow where
  | seq | taken (t : Addr) | idle
deriving DecidableEq, Repr

/-- What the hazards of 46_toppcstack.md ask of an instruction. -/
structure Traits where
  /-- It is in the list of R222: CALL, RTS, RTI, DO UNTIL, POP PC, a TOPPCSTACK move, a move from SSTAT. -/
  pcStack : Bool := false
  /-- It is RTS, RTI or POP PC (R231). -/
  returns : Bool := false
  /-- It is RTI (R228). -/
  rti : Bool := false
  /-- What it leaves as the kind of the step (70_reset_and_hazards.md R303). -/
  kind : Kind := .other
deriving DecidableEq, Repr

/-- The hazard that refuses an instruction, if any: an access to the PC stack or SSTAT, or a loop end,
right after a TOPPCSTACK read (R222); RTI right after a TOPPCSTACK move (R228); with the guard on, RTS,
RTI and POP PC within two instructions after one (R231). -/
def hazard (t : Traits) (s : State) : Option Refusal :=
  if s.prevKind = .toppcRead && (t.pcStack || s.atLoopEnd) then some .afterToppcRead
  else if t.rti && s.prevKind != .other then some .rtiAfterToppc
  else if s.cfg.guardRestriction4 && t.returns && (s.prevKind != .other || s.prev2Kind != .other) then
    some .restriction4
  else none

/-- The test of the termination condition at a loop end (42_do_until.md R141): on ASTAT and CNTR as the
instruction found them in `s0` (45_conditions.md R207); the CE test also decrements. -/
def testTerm (s0 s : State) (t : Term) : Except Refusal (Bool × State) :=
  if t = .ce then
    if s0.counterRefused then .error .invalidCounter else .ok (s.testCe s0.cntr)
  else .ok (termHolds s0.astat s0.cntr t, s)

/-- `LoopEnd(cur)` (42_do_until.md R141 to R143): `s0` is the state the last instruction found, `s` what
it left. Back to the top of the PC stack, which is only read, or on, with both stacks popped. -/
def loopEnd (s0 s : State) : Except Refusal State :=
  match s.lpstk.words with
  | [] => .error (.emptyStack .loop)
  | w :: _ =>
    if s.cfg.guardLoopBalance && s.pcstk.words.length != w.depth then .error .unbalancedLoop
    else
      match testTerm s0 s w.term with
      | .error e => .error e
      | .ok (done, s1) =>
        match s1.pcstk.words with
        | [] => .error (.emptyStack .pc)
        | first :: _ =>
          if done then
            .ok (((s1.setLpstk s1.lpstk.drop).setPcstk s1.pcstk.drop).setPc (inc s0.pc))
          else .ok (s1.setPc first)

/-- The next address (40_sequencer.md R95, R96): a taken transfer and IDLE win over the loop. -/
def sequence (s0 s : State) : Flow → Except Refusal State
  | .taken t => .ok (s.setPc t)
  | .idle => .ok ((s.setPc (inc s0.pc)).setIdle true)
  | .seq => if s0.atLoopEnd then loopEnd s0 s else .ok (s.setPc (inc s0.pc))

/-- One instruction's step from its `Execute`: the hazards, the instruction's own effect and flow, the
next address, and the end of the step. -/
def run (t : Traits) (s : State) (execute : Except Refusal (State × Flow)) :
    Host.Outcome State Fault Refusal :=
  match hazard t s with
  | some e => .refused e
  | none =>
    match execute with
    | .error e => .refused e
    | .ok (s1, f) =>
      match sequence s s1 f with
      | .error e => .refused e
      | .ok s2 => .next (endOfStep t.kind s2)

/-- The step of an instruction that goes on in sequence. -/
def runSeq (t : Traits) (s : State) (execute : Except Refusal State) :
    Host.Outcome State Fault Refusal :=
  run t s (match execute with
    | .error e => .error e
    | .ok s1 => .ok (s1, .seq))

end Sys2Proof.Machine
end

