-- ==== Sys2Proof/Machine/JumpCall.lean ====
section
/-! DEFINITION. JUMP, CALL, RTS, RTI and the FLAG_IN forms (41_jump_call_return.md). -/

namespace Sys2Proof.Machine

/-- The result type of a meaning. -/
abbrev Result := Host.Outcome State Fault Refusal

/-! ## Shared -/

/-- `Execute` of a conditional jump (R112): NOT CE is the decrementing test (45_conditions.md R203), and
untaken in the last instruction of a CE loop it is refused (U18). -/
def jumpIf (s : State) (c : Cond) (t : Addr) : Except Refusal (State × Flow) :=
  if c = .notCe then
    if s.counterRefused then .error .invalidCounter
    else
      match s.testCe s.cntr with
      | (false, s1) => .ok (s1, .taken t)
      | (true, s1) => if s.atCeLoopEnd then .error .notCeJumpAtLoopEnd else .ok (s1, .seq)
  else if condHolds s.astat s.cntr c then .ok (s, .taken t)
  else .ok (s, .seq)

/-- `Execute` of a call that is made (R114): the return address is `inc(cur)`. -/
def callTo (s : State) (t : Addr) : State × Flow := (s.pushPc (inc s.pc), .taken t)

/-- `Execute` of a conditional call (R114): on NOT CE it is refused (D9, U7). -/
def callIf (s : State) (c : Cond) (t : Addr) : Except Refusal (State × Flow) :=
  if c = .notCe then .error .notCeCall
  else if condHolds s.astat s.cntr c then .ok (callTo s t)
  else .ok (s, .seq)

/-- `Execute` of a return from a subroutine (R117). -/
def returnSub (s : State) : Except Refusal (State × Flow) :=
  match s.popPc with
  | .error e => .error e
  | .ok (a, s1) => .ok (s1, .taken a)

/-- `Execute` of a return from an interrupt (R118). -/
def returnInt (s : State) : Except Refusal (State × Flow) :=
  match returnFromInterrupt s with
  | .error e => .error e
  | .ok (a, s1) => .ok (s1, .taken a)

/-- `Execute` under a condition that does not decrement (45_conditions.md R204). -/
def whenCond (s : State) (c : Cond) (body : Except Refusal (State × Flow)) :
    Except Refusal (State × Flow) :=
  match s.condition c with
  | .error e => .error e
  | .ok true => body
  | .ok false => .ok (s, .seq)

/-- `Execute` of a jump on the FI pin (R119). -/
def flagJump (s : State) (c : Bool) (t : Addr) : State × Flow :=
  if c then (s, .taken t) else (s, .seq)

/-- `Execute` of a call on the FI pin (R119). -/
def flagCall (s : State) (c : Bool) (t : Addr) : State × Flow := if c then callTo s t else (s, .seq)

/-- A jump in the TOPPCSTACK hazards. -/
def jumpTraits : Traits := {}

/-- A call, taken or not, in the TOPPCSTACK hazards (46_toppcstack.md R222). -/
def callTraits : Traits := { pcStack := true }

/-- RTS in the TOPPCSTACK hazards (46_toppcstack.md R222, R231). -/
def rtsTraits : Traits := { pcStack := true, returns := true }

/-- RTI in the TOPPCSTACK hazards (46_toppcstack.md R222, R228, R231). -/
def rtiTraits : Traits := { pcStack := true, returns := true, rti := true }

/-! ## The meanings -/

/-- `JUMP addr` (R111). -/
def execJump (addr : Addr) (s : State) : Result := run jumpTraits s (.ok (s, .taken addr))

/-- `IF cond JUMP addr` (R112). -/
def execIfJump (c : Cond) (addr : Addr) (s : State) : Result := run jumpTraits s (jumpIf s c addr)

/-- `CALL addr` (R114). -/
def execCall (addr : Addr) (s : State) : Result := run callTraits s (.ok (callTo s addr))

/-- `IF cond CALL addr` (R114). -/
def execIfCall (c : Cond) (addr : Addr) (s : State) : Result := run callTraits s (callIf s c addr)

/-- `JUMP (Ix)` (R113). -/
def execJumpInd (ix : IReg) (s : State) : Result := run jumpTraits s (.ok (s, .taken (s.index ix)))

/-- `IF cond JUMP (Ix)` (R113): R112 with the index register's address. -/
def execIfJumpInd (c : Cond) (ix : IReg) (s : State) : Result :=
  run jumpTraits s (jumpIf s c (s.index ix))

/-- `CALL (Ix)` (R115). -/
def execCallInd (ix : IReg) (s : State) : Result := run callTraits s (.ok (callTo s (s.index ix)))

/-- `IF cond CALL (Ix)` (R115): R114 with the index register's address. -/
def execIfCallInd (c : Cond) (ix : IReg) (s : State) : Result :=
  run callTraits s (callIf s c (s.index ix))

/-- `RTS` (R117). -/
def execRts (s : State) : Result := run rtsTraits s (returnSub s)

/-- `IF cond RTS` (R117). -/
def execIfRts (c : Cond) (s : State) : Result := run rtsTraits s (whenCond s c (returnSub s))

/-- `RTI` (R118). -/
def execRti (s : State) : Result := run rtiTraits s (returnInt s)

/-- `IF cond RTI` (R118). -/
def execIfRti (c : Cond) (s : State) : Result := run rtiTraits s (whenCond s c (returnInt s))

/-- `IF FLAG_IN JUMP addr` (R119). -/
def execFlagInJump (addr : Addr) (s : State) : Result :=
  run jumpTraits s (.ok (flagJump s s.flagIn addr))

/-- `IF NOT FLAG_IN JUMP addr` (R119). -/
def execNotFlagInJump (addr : Addr) (s : State) : Result :=
  run jumpTraits s (.ok (flagJump s (!s.flagIn) addr))

/-- `IF FLAG_IN CALL addr` (R119). -/
def execFlagInCall (addr : Addr) (s : State) : Result :=
  run callTraits s (.ok (flagCall s s.flagIn addr))

/-- `IF NOT FLAG_IN CALL addr` (R119). -/
def execNotFlagInCall (addr : Addr) (s : State) : Result :=
  run callTraits s (.ok (flagCall s (!s.flagIn) addr))

end Sys2Proof.Machine
end

