-- ==== Sys2Proof/Machine/Moves.lean ====
section
/-! DEFINITION. The moves that name a register of the sequencer (44_status_mode.md R170 to R178) and the
two TOPPCSTACK moves (46_toppcstack.md R221, R223). -/

namespace Sys2Proof.Machine

/-! ## Shared -/

/-- A move between two registers; one from SSTAT is in the list of 46_toppcstack.md R222. -/
def runMove (dst src : Reg) (s : State) : Result :=
  runSeq { pcStack := src == .sstat } s (s.move dst src)

/-- A load of a register with a constant, zero-extended to the bus (30_encoding.md R80). -/
def runLoad (dst : Reg) (data : BitVec 14) (s : State) : Result :=
  runSeq {} s (s.writeReg dst (data.setWidth 16))

/-- `Execute` of `reg = TOPPCSTACK` (46_toppcstack.md R221): `{0b00, w}` on the bus (R227), and the pop.
Refused in the last and the last-but-one instruction of a loop (R229) and for a register outside
the list of R226. -/
def readToppc (dst : Reg) (s : State) : Except Refusal State :=
  if !dst.toppcOk then .error .toppcRegister
  else if s.atLoopEnd || s.beforeLoopEnd then .error .toppcReadNearLoopEnd
  else
    match s.popPc with
    | .error e => .error e
    | .ok (a, s1) => .ok (s1.writePlain dst (a.setWidth 16))

/-- `Execute` of `TOPPCSTACK = reg` (46_toppcstack.md R223): bits 13 to 0 of the bus value (R227). -/
def writeToppc (src : Reg) (s : State) : Except Refusal State :=
  if !src.toppcOk then .error .toppcRegister
  else .ok (s.pushPc ((s.readPlain src).setWidth 14))

/-! ## The meanings -/

/-- `reg = ASTAT` (44_status_mode.md R171). -/
def execFromAstat (dst : Reg) (s : State) : Result := runMove dst .astat s

/-- `reg = MSTAT` (44_status_mode.md R172). -/
def execFromMstat (dst : Reg) (s : State) : Result := runMove dst .mstat s

/-- `reg = SSTAT` (44_status_mode.md R173). -/
def execFromSstat (dst : Reg) (s : State) : Result := runMove dst .sstat s

/-- `reg = IMASK` (44_status_mode.md R177). -/
def execFromImask (dst : Reg) (s : State) : Result := runMove dst .imask s

/-- `reg = ICNTL` (44_status_mode.md R176). -/
def execFromIcntl (dst : Reg) (s : State) : Result := runMove dst .icntl s

/-- `reg = CNTR` (44_status_mode.md R174). -/
def execFromCntr (dst : Reg) (s : State) : Result := runMove dst .cntr s

/-- `ASTAT = reg` (44_status_mode.md R171). -/
def execToAstat (src : Reg) (s : State) : Result := runMove .astat src s

/-- `MSTAT = reg` (44_status_mode.md R172). -/
def execToMstat (src : Reg) (s : State) : Result := runMove .mstat src s

/-- `IMASK = reg` (44_status_mode.md R177). -/
def execToImask (src : Reg) (s : State) : Result := runMove .imask src s

/-- `ICNTL = reg` (44_status_mode.md R176). -/
def execToIcntl (src : Reg) (s : State) : Result := runMove .icntl src s

/-- `CNTR = reg` (44_status_mode.md R174). -/
def execToCntr (src : Reg) (s : State) : Result := runMove .cntr src s

/-- `IFC = reg` (44_status_mode.md R178). -/
def execToIfc (src : Reg) (s : State) : Result := runMove .ifc src s

/-- `OWRCNTR = reg` (44_status_mode.md R175). -/
def execToOwrcntr (src : Reg) (s : State) : Result := runMove .owrcntr src s

/-- `reg = TOPPCSTACK` (46_toppcstack.md R221). -/
def execFromToppcstack (dst : Reg) (s : State) : Result :=
  runSeq { pcStack := true, kind := .toppcRead } s (readToppc dst s)

/-- `TOPPCSTACK = reg` (46_toppcstack.md R223). -/
def execToToppcstack (src : Reg) (s : State) : Result :=
  runSeq { pcStack := true, kind := .toppcWrite } s (writeToppc src s)

/-- `ASTAT = constant` (44_status_mode.md R171). -/
def execAstatConst (data : BitVec 14) (s : State) : Result := runLoad .astat data s

/-- `MSTAT = constant` (44_status_mode.md R172). -/
def execMstatConst (data : BitVec 14) (s : State) : Result := runLoad .mstat data s

/-- `IMASK = constant` (44_status_mode.md R177). -/
def execImaskConst (data : BitVec 14) (s : State) : Result := runLoad .imask data s

/-- `ICNTL = constant` (44_status_mode.md R176). -/
def execIcntlConst (data : BitVec 14) (s : State) : Result := runLoad .icntl data s

/-- `CNTR = constant` (44_status_mode.md R174). -/
def execCntrConst (data : BitVec 14) (s : State) : Result := runLoad .cntr data s

/-- `IFC = constant` (44_status_mode.md R178). -/
def execIfcConst (data : BitVec 14) (s : State) : Result := runLoad .ifc data s

/-- `OWRCNTR = constant` (44_status_mode.md R175). -/
def execOwrcntrConst (data : BitVec 14) (s : State) : Result := runLoad .owrcntr data s

end Sys2Proof.Machine
end

