-- ==== Sys2Proof/Machine/Beyond.lean ====
section
/-! DEFINITION. The words that no row of the opcode table matches and that the spec gives an effect:
words that name nothing, moves and loads of registers outside the sequencer, and the instructions
outside the spec as an opaque step (20_memory.md R62; log entries 28 to 30). -/

namespace Sys2Proof.Machine

/-- The registers outside the sequencer after an out-of-scope instruction (20_memory.md R62): every
register of the active bank, of the address generators and of the ports is free. The other bank is
not reached (10_state.md R33). -/
def State.scramble (s : State) (v : Nat → Bus) : State :=
  ((s.setBank {
    ax0 := v 0
    ax1 := v 1
    ay0 := v 2
    ay1 := v 3
    ar := v 4
    af := v 5
    mx0 := v 6
    mx1 := v 7
    my0 := v 8
    my1 := v 9
    mf := v 10
    mr0 := v 11
    mr1 := v 12
    mr2 := (v 13).setWidth 8
    si := v 14
    se := (v 15).setWidth 8
    sb := (v 16).setWidth 5
    sr1 := v 17
    sr0 := v 18 }).setDag {
    i0 := (v 20).setWidth 14
    i1 := (v 21).setWidth 14
    i2 := (v 22).setWidth 14
    i3 := (v 23).setWidth 14
    m0 := (v 24).setWidth 14
    m1 := (v 25).setWidth 14
    m2 := (v 26).setWidth 14
    m3 := (v 27).setWidth 14
    l0 := (v 28).setWidth 14
    l1 := (v 29).setWidth 14
    l2 := (v 30).setWidth 14
    l3 := (v 31).setWidth 14
    i4 := (v 32).setWidth 14
    i5 := (v 33).setWidth 14
    i6 := (v 34).setWidth 14
    i7 := (v 35).setWidth 14
    m4 := (v 36).setWidth 14
    m5 := (v 37).setWidth 14
    m6 := (v 38).setWidth 14
    m7 := (v 39).setWidth 14
    l4 := (v 40).setWidth 14
    l5 := (v 41).setWidth 14
    l6 := (v 42).setWidth 14
    l7 := (v 43).setWidth 14 }).setPorts {
    px := (v 50).setWidth 8
    rx0 := v 51
    tx0 := v 52
    rx1 := v 53
    tx1 := v 54 }

/-- What an out-of-scope instruction does where it is done (20_memory.md R62, D16): the registers outside the
sequencer are free, and so are the ASTAT bits of its class (10_state.md R25); it may store to program
memory (20_memory.md R61); a register of the sequencer that it names as its destination takes what
44_status_mode.md R171 to R178 say of the value moved (R179). With the ALU overflow latch on (10_state.md R32)
no operation clears AV. To write SSTAT and to read IFC or OWRCNTR is refused (44_status_mode.md R181). -/
def opaqueEffect (w : Insn) (s : State) : Except Refusal State :=
  let v := Config.outOfScopeValue w s.freeTick
  let s1 := ((((s.scramble v).setAstat
    (statusAfter (s.mstat.getLsbD 2) (Config.outOfScopeClass w) s.astat ((v 60).setWidth 8))).noteStore
    (Config.outOfScopeStore w s.freeTick))).setFreeTick (s.freeTick + 1)
  match Config.outOfScopeSource w with
  | some .ifc | some .owrcntr => .error .badMove
  | _ =>
    match Config.outOfScopeDest w with
    | none => .ok s1
    | some r => if r.isPlain then .ok s1 else s1.writeReg r (v 61)

/-- Whether an out-of-scope instruction names TOPPCSTACK, which no type but Type 17 can (46_toppcstack.md
R224). -/
def opaqueNamesToppc (w : Insn) : Bool :=
  Config.outOfScopeSource w == some .toppcstack || Config.outOfScopeDest w == some .toppcstack

/-- `Execute` of an out-of-scope instruction: a reserved word is refused (30_encoding.md R84), and so is one
that names TOPPCSTACK, whatever its condition (46_toppcstack.md R224); a condition that the word carries
decides whether it is done or is a no-operation (45_conditions.md R206). -/
def opaqueStep (w : Insn) (s : State) : Except Refusal State :=
  if Config.outOfScopeReserved w then .error (.undecodable .reservedWord)
  else if opaqueNamesToppc w then .error .badMove
  else
    match Config.outOfScopeCond w with
    | none => opaqueEffect w s
    | some c =>
      match s.condition c with
      | .error e => .error e
      | .ok false => .ok s
      | .ok true => opaqueEffect w s

/-- What the step does for a word beyond the opcode table. -/
def execBeyond (b : Beyond) (s : State) : Result :=
  match b with
  | .inert => runSeq {} s (.ok s)
  | .plainMove dst src => runMove dst src s
  | .plainLoad dst data => runLoad dst data s
  | .outOfScope w => runSeq { pcStack := Config.outOfScopeSource w == some .sstat } s (opaqueStep w s)

end Sys2Proof.Machine
end

