-- ==== Sys2Proof/Machine/LoopIdle.lean ====
section
/-! DEFINITION. DO UNTIL (42_do_until.md), NOP, IDLE and IDLE (n) (43_idle_nop.md). -/

namespace Sys2Proof.Machine

/-- `Execute` of DO UNTIL (42_do_until.md R131): the two pushes. Refused as the last instruction of a
loop (U9) and with the end of a word already on the loop stack (R148, U5). -/
def setUpLoop (s : State) (fin : Addr) (term : Term) : Except Refusal State :=
  if s.atLoopEnd then .error .doAtLoopEnd
  else if s.lpstk.words.any fun w => w.fin == fin then .error .sameLoopEnd
  else
    let s1 := s.pushPc (inc s.pc)
    .ok (s1.setLpstk (s.lpstk.push loopDepth ⟨fin, term, s1.pcstk.words.length⟩))

/-- `DO addr UNTIL term` (42_do_until.md R131). -/
def execDoUntil (fin : Addr) (term : Term) (s : State) : Result :=
  runSeq { pcStack := true } s (setUpLoop s fin term)

/-- `NOP` (43_idle_nop.md R160). -/
def execNop (s : State) : Result := runSeq {} s (.ok s)

/-- `IDLE` (43_idle_nop.md R161). -/
def execIdle (s : State) : Result := run {} s (.ok (s.setIdleDiv .one, .idle))

/-- `IDLE (n)` (43_idle_nop.md R163), on every member: which have it is not said. DESIGN CHOICE, log entry
44. -/
def execIdleN (n : Divisor) (s : State) : Result := run {} s (.ok (s.setIdleDiv (.by n), .idle))

end Sys2Proof.Machine
end

