-- ==== Sys2Proof/Machine/ModeControl.lean ====
section
/-! DEFINITION. Mode control, ENA and DIS of the seven MSTAT modes (44_status_mode.md R186, R187). -/

namespace Sys2Proof.Machine

/-- One mode bit under its two-bit field (30_encoding.md R79): 0b11 sets it, 0b10 clears it. -/
def modeBit (f : BitVec 2) (old : Bool) : Bool := if f = 3 then true else if f = 2 then false else old

/-- MSTAT after a mode-control word (44_status_mode.md R186), with the bit of each mode as
10_state.md R32 places it. -/
def modeControl (f : ModeFields) (m : BitVec 7) : BitVec 7 :=
  BitVec.ofBool (modeBit f.gm (m.getLsbD 6)) ++ BitVec.ofBool (modeBit f.ti (m.getLsbD 5)) ++
    BitVec.ofBool (modeBit f.mm (m.getLsbD 4)) ++ BitVec.ofBool (modeBit f.as (m.getLsbD 3)) ++
    BitVec.ofBool (modeBit f.ol (m.getLsbD 2)) ++ BitVec.ofBool (modeBit f.br (m.getLsbD 1)) ++
    BitVec.ofBool (modeBit f.sr (m.getLsbD 0))

/-- One mode-control word. -/
def runMode (f : ModeFields) (s : State) : Result :=
  runSeq {} s (.ok (s.setMstat (modeControl f s.mstat)))

/-- `ENA TIMER` (R186), with what else its word says. -/
def execEnaTimer (f : ModeFields) (s : State) : Result := runMode { f with ti := 3 } s

/-- `DIS TIMER` (R186), with what else its word says. -/
def execDisTimer (f : ModeFields) (s : State) : Result := runMode { f with ti := 2 } s

/-- `ENA M_MODE` (R186), with what else its word says. -/
def execEnaMMode (f : ModeFields) (s : State) : Result := runMode { f with mm := 3 } s

/-- `DIS M_MODE` (R186), with what else its word says. -/
def execDisMMode (f : ModeFields) (s : State) : Result := runMode { f with mm := 2 } s

/-- `ENA AR_SAT` (R186), with what else its word says. -/
def execEnaArSat (f : ModeFields) (s : State) : Result := runMode { f with as := 3 } s

/-- `DIS AR_SAT` (R186), with what else its word says. -/
def execDisArSat (f : ModeFields) (s : State) : Result := runMode { f with as := 2 } s

/-- `ENA AV_LATCH` (R186), with what else its word says. -/
def execEnaAvLatch (f : ModeFields) (s : State) : Result := runMode { f with ol := 3 } s

/-- `DIS AV_LATCH` (R186), with what else its word says. -/
def execDisAvLatch (f : ModeFields) (s : State) : Result := runMode { f with ol := 2 } s

/-- `ENA BIT_REV` (R186), with what else its word says. -/
def execEnaBitRev (f : ModeFields) (s : State) : Result := runMode { f with br := 3 } s

/-- `DIS BIT_REV` (R186), with what else its word says. -/
def execDisBitRev (f : ModeFields) (s : State) : Result := runMode { f with br := 2 } s

/-- `ENA SEC_REG` (R186), with what else its word says. -/
def execEnaSecReg (f : ModeFields) (s : State) : Result := runMode { f with sr := 3 } s

/-- `DIS SEC_REG` (R186), with what else its word says. -/
def execDisSecReg (f : ModeFields) (s : State) : Result := runMode { f with sr := 2 } s

/-- `ENA G_MODE` (R186), with what else its word says. -/
def execEnaGMode (f : ModeFields) (s : State) : Result := runMode { f with gm := 3 } s

/-- `DIS G_MODE` (R186), with what else its word says. -/
def execDisGMode (f : ModeFields) (s : State) : Result := runMode { f with gm := 2 } s

end Sys2Proof.Machine
end

