-- ==== Sys2Proof/Machine/StackControl.lean ====
section
/-! DEFINITION. The direct stack pops, PUSH STS and POP STS, ENA INTS and DIS INTS
(44_status_mode.md R182 to R185, R188). -/

namespace Sys2Proof.Machine

/-! ## Shared -/

/-- `POP PC` where its bit is set (R182): the word is discarded. -/
def popPcPart (pp : Bool) (s : State) : Except Refusal State :=
  if pp then
    match s.popPc with
    | .error e => .error e
    | .ok (_, s1) => .ok s1
  else .ok s

/-- `POP LOOP` where its bit is set (R184): the word is discarded. Refused just before the last
instruction of the loop whose word it pops (U10). -/
def popLoopPart (lp : Bool) (s : State) : Except Refusal State :=
  if lp then
    if s.beforeLoopEnd then .error .popLoopBeforeEnd
    else
      match s.popLoop with
      | .error e => .error e
      | .ok (_, s1) => .ok s1
  else .ok s

/-- `POP CNTR` where its bit is set (R183). -/
def popCntrPart (cp : Bool) (s : State) : State := if cp then s.popCount else s

/-- The status-stack part (R185): 0b10 pushes, 0b11 pops, 0b00 and 0b01 leave it. -/
def statusPart (spp : BitVec 2) (s : State) : Except Refusal State :=
  if spp = 2 then .ok s.pushStatus
  else if spp = 3 then s.popStatus
  else .ok s

/-- `Execute` of a stack-control word (R185): each part acts on its own stack. -/
def stackControl (pp lp cp : Bool) (spp : BitVec 2) (s : State) : Except Refusal State :=
  match popPcPart pp s with
  | .error e => .error e
  | .ok s1 =>
    match popLoopPart lp s1 with
    | .error e => .error e
    | .ok s2 => statusPart spp (popCntrPart cp s2)

/-- One stack-control word. -/
def runStack (pp lp cp : Bool) (spp : BitVec 2) (s : State) : Result :=
  runSeq { pcStack := pp, returns := pp } s (stackControl pp lp cp spp s)

/-- `Execute` of ENA INTS and DIS INTS (R188): refused on the members that have neither; under the
parameter INTS_DELAY the old value stays in force for one more boundary (U15). -/
def setGlobalInts (v : Bool) (s : State) : Except Refusal State :=
  if hasGlobalInts s.cfg.proc then
    if s.cfg.intsDelayed then
      .ok (s.setInts v (if s.intsDelay = 0 then s.intsEnabled else s.intsOld) 2)
    else .ok (s.setInts v v 0)
  else .error .noGlobalInts

/-! ## The meanings -/

/-- `POP PC` (R182), with what else its word says (R185). -/
def execPopPc (lp cp : Bool) (spp : BitVec 2) (s : State) : Result := runStack true lp cp spp s

/-- `POP LOOP` (R184), with what else its word says (R185). -/
def execPopLoop (pp cp : Bool) (spp : BitVec 2) (s : State) : Result := runStack pp true cp spp s

/-- `POP CNTR` (R183), with what else its word says (R185). -/
def execPopCntr (pp lp : Bool) (spp : BitVec 2) (s : State) : Result := runStack pp lp true spp s

/-- `PUSH STS` (R185), with what else its word says. -/
def execPushSts (pp lp cp : Bool) (s : State) : Result := runStack pp lp cp 2 s

/-- `POP STS` (R185), with what else its word says. -/
def execPopSts (pp lp cp : Bool) (s : State) : Result := runStack pp lp cp 3 s

/-- `ENA INTS` (R188). -/
def execEnaInts (s : State) : Result := runSeq {} s (setGlobalInts true s)

/-- `DIS INTS` (R188). -/
def execDisInts (s : State) : Result := runSeq {} s (setGlobalInts false s)

end Sys2Proof.Machine
end

