-- ==== Sys2Proof/Machine/Dispatch.lean ====
section
/-! DEFINITION. The meaning of every instruction: one arm per constructor of `Instr`. -/

namespace Sys2Proof.Machine

/-- One instruction's whole step at a state: its own effect, the next address, and the end of the step. -/
def exec (i : Instr) (s : State) : Host.Outcome State Fault Refusal :=
  match i with
  | .jump addr => Sys2Proof.Machine.execJump addr s
  | .ifJump cond addr => Sys2Proof.Machine.execIfJump cond addr s
  | .call addr => Sys2Proof.Machine.execCall addr s
  | .ifCall cond addr => Sys2Proof.Machine.execIfCall cond addr s
  | .doUntil fin term => Sys2Proof.Machine.execDoUntil fin term s
  | .jumpInd ix => Sys2Proof.Machine.execJumpInd ix s
  | .ifJumpInd cond ix => Sys2Proof.Machine.execIfJumpInd cond ix s
  | .callInd ix => Sys2Proof.Machine.execCallInd ix s
  | .ifCallInd cond ix => Sys2Proof.Machine.execIfCallInd cond ix s
  | .rts => Sys2Proof.Machine.execRts s
  | .ifRts cond => Sys2Proof.Machine.execIfRts cond s
  | .rti => Sys2Proof.Machine.execRti s
  | .ifRti cond => Sys2Proof.Machine.execIfRti cond s
  | .flagInJump addr => Sys2Proof.Machine.execFlagInJump addr s
  | .notFlagInJump addr => Sys2Proof.Machine.execNotFlagInJump addr s
  | .flagInCall addr => Sys2Proof.Machine.execFlagInCall addr s
  | .notFlagInCall addr => Sys2Proof.Machine.execNotFlagInCall addr s
  | .nop => Sys2Proof.Machine.execNop s
  | .idle => Sys2Proof.Machine.execIdle s
  | .idleN n => Sys2Proof.Machine.execIdleN n s
  | .popPc lp cp spp => Sys2Proof.Machine.execPopPc lp cp spp s
  | .popLoop pp cp spp => Sys2Proof.Machine.execPopLoop pp cp spp s
  | .popCntr pp lp spp => Sys2Proof.Machine.execPopCntr pp lp spp s
  | .pushSts pp lp cp => Sys2Proof.Machine.execPushSts pp lp cp s
  | .popSts pp lp cp => Sys2Proof.Machine.execPopSts pp lp cp s
  | .enaInts => Sys2Proof.Machine.execEnaInts s
  | .disInts => Sys2Proof.Machine.execDisInts s
  | .enaTimer f => Sys2Proof.Machine.execEnaTimer f s
  | .disTimer f => Sys2Proof.Machine.execDisTimer f s
  | .enaMMode f => Sys2Proof.Machine.execEnaMMode f s
  | .disMMode f => Sys2Proof.Machine.execDisMMode f s
  | .enaArSat f => Sys2Proof.Machine.execEnaArSat f s
  | .disArSat f => Sys2Proof.Machine.execDisArSat f s
  | .enaAvLatch f => Sys2Proof.Machine.execEnaAvLatch f s
  | .disAvLatch f => Sys2Proof.Machine.execDisAvLatch f s
  | .enaBitRev f => Sys2Proof.Machine.execEnaBitRev f s
  | .disBitRev f => Sys2Proof.Machine.execDisBitRev f s
  | .enaSecReg f => Sys2Proof.Machine.execEnaSecReg f s
  | .disSecReg f => Sys2Proof.Machine.execDisSecReg f s
  | .enaGMode f => Sys2Proof.Machine.execEnaGMode f s
  | .disGMode f => Sys2Proof.Machine.execDisGMode f s
  | .fromAstat dst => Sys2Proof.Machine.execFromAstat dst s
  | .toAstat src => Sys2Proof.Machine.execToAstat src s
  | .fromMstat dst => Sys2Proof.Machine.execFromMstat dst s
  | .toMstat src => Sys2Proof.Machine.execToMstat src s
  | .fromSstat dst => Sys2Proof.Machine.execFromSstat dst s
  | .fromImask dst => Sys2Proof.Machine.execFromImask dst s
  | .toImask src => Sys2Proof.Machine.execToImask src s
  | .fromIcntl dst => Sys2Proof.Machine.execFromIcntl dst s
  | .toIcntl src => Sys2Proof.Machine.execToIcntl src s
  | .fromCntr dst => Sys2Proof.Machine.execFromCntr dst s
  | .toCntr src => Sys2Proof.Machine.execToCntr src s
  | .toIfc src => Sys2Proof.Machine.execToIfc src s
  | .toOwrcntr src => Sys2Proof.Machine.execToOwrcntr src s
  | .fromToppcstack dst => Sys2Proof.Machine.execFromToppcstack dst s
  | .toToppcstack src => Sys2Proof.Machine.execToToppcstack src s
  | .astatConst data => Sys2Proof.Machine.execAstatConst data s
  | .mstatConst data => Sys2Proof.Machine.execMstatConst data s
  | .imaskConst data => Sys2Proof.Machine.execImaskConst data s
  | .icntlConst data => Sys2Proof.Machine.execIcntlConst data s
  | .cntrConst data => Sys2Proof.Machine.execCntrConst data s
  | .ifcConst data => Sys2Proof.Machine.execIfcConst data s
  | .owrcntrConst data => Sys2Proof.Machine.execOwrcntrConst data s

end Sys2Proof.Machine
end

