-- ==== Sys2Proof/Machine/Boundary.lean ====
section
/-! DEFINITION. What happens at an instruction boundary: an interrupt entry, a wait in idle, or the
instruction at the program counter (40_sequencer.md R95, R96). -/

namespace Sys2Proof.Machine

/-- The entry of the interrupt that is taken at a boundary, and the end of that step. It ends an idle
state (43_idle_nop.md R162). -/
def enterInterrupt (k : Source) (s : State) : State := endOfStep .other (takeInterrupt k (s.setIdle false))

/-- What the step does for a word that the decoder has read. -/
def execDecoded (d : Decoded) (s : State) : Result :=
  match d with
  | .instr i => exec i s
  | .beyond b => execBeyond b s
  | .reject e => .refused (.undecodable e)

/-- Fetching and executing the instruction at the program counter. A location that an instruction has
stored to is not executed (20_memory.md R61). -/
def fetchAndRun (s : State) : Result :=
  match s.fetch with
  | none => if s.pmStored.contains s.pc then .refused .storedWord else .fault .unwrittenWord
  | some w => execDecoded (decodeFor s.cfg w) s

/-- One step of a machine that is not being reset (40_sequencer.md R95): an interrupt entry comes before
the instruction (R96); in idle with nothing serviceable nothing changes. -/
def stepRunning (s : State) : Result :=
  match s.serviceable with
  | some k => .next (enterInterrupt k s)
  | none => if s.idle then .next s else fetchAndRun s

end Sys2Proof.Machine
end

