-- ==== Sys2Proof/Machine/Step.lean ====
section
/-! DEFINITION. One step of the machine (40_sequencer.md R95), and the placing of an instruction where the
next step fetches it. -/

namespace Sys2Proof.Machine

/-- One step (40_sequencer.md R95): what the environment did; then a reset, an interrupt entry, a wait in
idle, or the instruction at the program counter. -/
def step (s : State) : Host.Outcome State Fault Refusal :=
  if s.resetAsserted then .next s.takeInputs.restart else stepRunning s.takeInputs

/-- The instruction `w`, `nbits` bits and zeros above them, stored where the next step fetches, which is
at the program counter. -/
def State.withFetchWord (s : State) (nbits w : Nat) : State :=
  s.setPm (Memory.writeWord s.pm s.pc (BitVec.ofNat 24 (w % 2 ^ nbits)))

end Sys2Proof.Machine
end

