-- ==== Sys2Proof/Safety.lean ====
section
/-! DEFINITION. The terms that claims use: a run that has lost nothing and a run that is over
(10_state.md R13, 70_reset_and_hazards.md R320), the invariant of the machine, the sequencing as a
relation, and what an instruction may write. -/

namespace Sys2Proof.Machine

/-! ## Runs -/

/-- No stack has lost a word (10_state.md R13, 92_eei_decisions.md D5). -/
def State.noLoss (s : State) : Bool := !s.pcstk.ovf && !s.cntstk.ovf && !s.lpstk.ovf && !s.ststk.ovf

/-- The depths of the PC, count, loop and status stacks. -/
def State.depths (s : State) : List Nat :=
  [s.pcstk.words.length, s.cntstk.words.length, s.lpstk.words.length, s.ststk.words.length]

/-- The pushes of a stack less its pops since reset (10_state.md R15). -/
def Stack.balance {α : Type} (st : Stack α) : Int := st.words.length + st.lost - st.surplus

/-- The end of a run that was launched with the state `launch` and the addresses `stop`: how the coming
step begins decides it (70_reset_and_hazards.md R320). The machine itself does not stop. -/
def runOver (stop : List Addr) (launch s : State) : Bool :=
  let t := s.takeInputs
  !s.resetAsserted && stop.contains t.pc && t.serviceable.isNone && !t.idle &&
    t.depths == launch.depths && t.noLoss

/-! ## The invariant -/

/-- No bit of a mask is above the member's IMASK (10_state.md R35). -/
def maskFits (p : Proc) (m : BitVec 10) : Prop := m.toNat < 2 ^ wImask p

/-- A mask enables no source. -/
def allMasked (p : Proc) (m : BitVec 10) : Prop := ∀ k ∈ sources p, m.getLsbD (level p k) = false

/-- What every step keeps. -/
structure State.Inv (s : State) : Prop where
  /-- No stack holds more words than it has places (10_state.md R12, R20, R21, R22). -/
  pcFits : s.pcstk.words.length ≤ pcDepth
  countFits : s.cntstk.words.length ≤ countDepth
  loopFits : s.lpstk.words.length ≤ loopDepth
  statusFits : s.ststk.words.length ≤ s.cfg.statusDepth
  /-- A stack that has lost a word shows it (10_state.md R29). -/
  pcLost : s.pcstk.lost ≠ 0 → s.pcstk.ovf = true
  countLost : s.cntstk.lost ≠ 0 → s.cntstk.ovf = true
  loopLost : s.lpstk.lost ≠ 0 → s.lpstk.ovf = true
  statusLost : s.ststk.lost ≠ 0 → s.ststk.ovf = true
  /-- No pop of a PC, loop or status stack goes beyond its pushes (10_state.md R14, R15). -/
  pcSurplus : s.pcstk.surplus = 0
  loopSurplus : s.lpstk.surplus = 0
  statusSurplus : s.ststk.surplus = 0
  /-- The count stack is not at once short of pushes and short of pops (10_state.md R15). -/
  countEither : s.cntstk.lost = 0 ∨ s.cntstk.surplus = 0
  /-- A count that is stacked belongs to a loop around the present one (10_state.md R17, R18). -/
  countValid : s.cntstk.words ≠ [] → s.cntrValid = true
  /-- No two stacked loops end on one instruction (42_do_until.md R148). -/
  loopEnds : (s.lpstk.words.map (·.fin)).Nodup
  /-- IMASK and every stacked IMASK have the member's width (10_state.md R22, R35). -/
  maskFits : maskFits s.cfg.proc s.imask
  masksFit : ∀ w ∈ s.ststk.words, Machine.maskFits s.cfg.proc w.imask
  /-- Until an ICNTL of the program is in force every source is masked, and no return or POP STS can unmask
  one (70_reset_and_hazards.md R296). -/
  maskedUntilKnown : s.icntlKnown = false → allMasked s.cfg.proc s.imask ∧
    ∀ w ∈ s.ststk.words, allMasked s.cfg.proc w.imask
  /-- The counters of the late effects (10_state.md R39). -/
  holdoffSmall : s.imaskHoldoff ≤ 2
  icntlSmall : s.icntlDelay ≤ 2
  intsSmall : s.intsDelay ≤ 2
  /-- With no write under way the old configuration is the present one (R304). -/
  icntlSettled : s.icntlDelay = 0 → s.icntlOld = s.icntl
  intsSettled : s.intsDelay = 0 → s.intsOld = s.intsEnabled
  /-- The members without the hold-off never have one (60_exceptions.md R258). -/
  noHoldoff : hasHoldoff s.cfg.proc = false → s.imaskHoldoff = 0
  /-- The members without ENA INTS and DIS INTS have interrupts enabled (10_state.md R37). -/
  intsOn : hasGlobalInts s.cfg.proc = false → s.intsEnabled = true
  /-- Program memory is in its canonical form. -/
  memory : Memory.wf s.pm

/-! ## Situations -/

/-- The three optional guards are off. -/
def State.unguarded (s : State) : Prop :=
  s.cfg.guardInvalidCounter = false ∧ s.cfg.guardLoopBalance = false ∧ s.cfg.guardRestriction4 = false

/-- The instruction at the program counter is not a loop end in the slot of a TOPPCSTACK read
(46_toppcstack.md R222). -/
def State.slotFree (s : State) : Prop := s.prevKind = .toppcRead → s.atLoopEnd = false

/-- If the instruction at the program counter ends a loop, the PC stack that `s1` leaves for the loop end
holds a word, and so does the loop stack. -/
def State.canSequence (s0 s1 : State) : Prop :=
  s0.atLoopEnd = true → s1.lpstk.words ≠ [] ∧ s1.pcstk.words ≠ []

/-- The next state of an instruction that goes on in sequence, without the end of the step: `s0` is what
the instruction found and `s1` what it left (40_sequencer.md R93, R95; 42_do_until.md R141 to R144;
45_conditions.md R203, R207). -/
inductive SeqNext (s0 s1 : State) : State → Prop where
  /-- No loop end. -/
  | on : s0.atLoopEnd = false → SeqNext s0 s1 (s1.setPc (inc s0.pc))
  /-- A condition on ASTAT that does not hold: back, and nothing is popped. -/
  | back (w : LoopWord) (ws : List LoopWord) (a : Addr) (as : List Addr) :
      s0.atLoopEnd = true → s1.lpstk.words = w :: ws → s1.pcstk.words = a :: as → w.term ≠ .ce →
      termHolds s0.astat s0.cntr w.term = false → SeqNext s0 s1 (s1.setPc a)
  /-- A condition on ASTAT that holds: on, and both stacks are popped. -/
  | leave (w : LoopWord) (ws : List LoopWord) (a : Addr) (as : List Addr) :
      s0.atLoopEnd = true → s1.lpstk.words = w :: ws → s1.pcstk.words = a :: as → w.term ≠ .ce →
      termHolds s0.astat s0.cntr w.term = true →
      SeqNext s0 s1 (((s1.setLpstk { s1.lpstk with words := ws }).setPcstk
        { s1.pcstk with words := as }).setPc (inc s0.pc))
  /-- CE with a counter other than 1: decremented, and back. -/
  | countOn (w : LoopWord) (ws : List LoopWord) (a : Addr) (as : List Addr) :
      s0.atLoopEnd = true → s1.lpstk.words = w :: ws → s1.pcstk.words = a :: as → w.term = .ce →
      s0.cntr ≠ 1 → SeqNext s0 s1 ((s1.setCntr (s1.cntr - 1)).setPc a)
  /-- CE with a counter of 1 and a stacked count: that count comes back, and the loop is left. -/
  | countOut (w : LoopWord) (ws : List LoopWord) (a : Addr) (as : List Addr) (c : Count)
      (cs : List Count) :
      s0.atLoopEnd = true → s1.lpstk.words = w :: ws → s1.pcstk.words = a :: as → w.term = .ce →
      s0.cntr = 1 → s1.cntstk.words = c :: cs →
      SeqNext s0 s1 (((((s1.setCntstk { s1.cntstk with words := cs }).setCntr c).setLpstk
        { s1.lpstk with words := ws }).setPcstk { s1.pcstk with words := as }).setPc (inc s0.pc))
  /-- CE with a counter of 1 and the count stack empty: the counter holds nothing any more. -/
  | countDone (w : LoopWord) (ws : List LoopWord) (a : Addr) (as : List Addr) :
      s0.atLoopEnd = true → s1.lpstk.words = w :: ws → s1.pcstk.words = a :: as → w.term = .ce →
      s0.cntr = 1 → s1.cntstk.words = [] → s1.cntstk.lost = 0 →
      SeqNext s0 s1 (((((s1.setCntr (s1.cntr - 1)).setCntrValid false).setLpstk
        { s1.lpstk with words := ws }).setPcstk { s1.pcstk with words := as }).setPc (inc s0.pc))
  /-- CE with a counter of 1 and a pop owed to a lost count: the count that comes back is free. -/
  | countLost (w : LoopWord) (ws : List LoopWord) (a : Addr) (as : List Addr) (c : Count) (n : Nat) :
      s0.atLoopEnd = true → s1.lpstk.words = w :: ws → s1.pcstk.words = a :: as → w.term = .ce →
      s0.cntr = 1 → s1.cntstk.words = [] → s1.cntstk.lost ≠ 0 →
      SeqNext s0 s1 ((((((s1.setCntstk { s1.cntstk with lost := s1.cntstk.lost - 1 }).setCntr
        c).setFreeTick n).setLpstk { s1.lpstk with words := ws }).setPcstk
        { s1.pcstk with words := as }).setPc (inc s0.pc))

/-- A value may be written to IMASK: an ICNTL of the program is in force, or the value enables no source that
was masked (70_reset_and_hazards.md R296). -/
def State.mayUnmask (s : State) (v : Bus) : Prop :=
  s.icntlKnown = true ∨
    ∀ k ∈ sources s.cfg.proc, v.getLsbD (level s.cfg.proc k) = true → s.enabled k = true

/-! ## What an instruction may write -/

/-- The parts of the state, for a frame. The program counter is in none, and neither are the model's own
counter of free values and its record of stores to program memory. -/
inductive Piece where
  | pcstk | cntstk | lpstk | ststk | cntr | astat | mstat | icntl | imask | ints | holdoff | req | idle
  | idleDiv | kinds | primary | shadow | dag | ports | outside | memory
deriving DecidableEq, Repr

/-- The latch of a source becomes free at the end of this step: a new interrupt configuration comes into
force, it changes the source's sensitivity, and the source is requested (U13, log entry 19). -/
def State.freed (s : State) (k : Source) : Prop :=
  s.icntlDelay = 1 ∧ s.edge k ≠ edgeUnder s.cfg s.icntl k ∧ s.requested k = true

/-- What it means that a step leaves a part as it was. The four parts that age by one step without any
instruction (70_reset_and_hazards.md R302 to R304) do that and no more, and a latch may be freed. -/
def Piece.kept (p : Piece) (s t : State) : Prop :=
  match p with
  | .pcstk => t.pcstk = s.pcstk
  | .cntstk => t.cntstk = s.cntstk
  | .lpstk => t.lpstk = s.lpstk
  | .ststk => t.ststk = s.ststk
  | .cntr => t.cntr = s.cntr ∧ t.cntrValid = s.cntrValid
  | .astat => t.astat = s.astat
  | .mstat => t.mstat = s.mstat
  | .icntl => t.icntl = s.icntl ∧ t.icntlDelay = s.icntlDelay - 1 ∧
      (t.icntlOld = if s.icntlDelay = 1 then s.icntl else s.icntlOld) ∧
      t.icntlKnown = if s.icntlDelay = 1 then true else s.icntlKnown
  | .imask => t.imask = s.imask
  | .ints => t.intsEnabled = s.intsEnabled ∧ t.intsDelay = s.intsDelay - 1 ∧
      t.intsOld = if s.intsDelay = 1 then s.intsEnabled else s.intsOld
  | .holdoff => t.imaskHoldoff = s.imaskHoldoff - 1
  | .req => ∀ k, t.req.get k = s.req.get k ∨ s.freed k
  | .idle => t.idle = s.idle
  | .idleDiv => t.idleDiv = s.idleDiv
  | .kinds => t.prev2Kind = s.prevKind ∧ t.prevKind = .other
  | .primary => t.primary = s.primary
  | .shadow => t.shadow = s.shadow
  | .dag => t.dag = s.dag
  | .ports => t.ports = s.ports
  | .outside => t.pins = s.pins ∧ t.flagIn = s.flagIn ∧ t.inputs = s.inputs ∧ t.cfg = s.cfg
  | .memory => ∀ key, Memory.readByte t.pm key = Memory.readByte s.pm key

/-- Every part outside a list is left as it was. -/
def KeptBut (l : List Piece) (s t : State) : Prop := ∀ p, p ∉ l → p.kept s t

/-- The parts that a destination register of a move is in: the active bank alone of the two banks. -/
def State.movePieces (s : State) : List Piece :=
  [if s.mstat.getLsbD 0 then .shadow else .primary, .dag, .ports]

/-- The parts that the loop, count and status parts of a stack-control word write. -/
def stackPieces (lp cp push pop : Bool) : List Piece :=
  (if lp then [.lpstk] else []) ++ (if cp then [.cntr, .cntstk] else []) ++
    (if push || pop then [.ststk] else []) ++
    (if pop then [.astat, .mstat, .imask, .holdoff] else [])

/-- The parts the spec lets an instruction write by its own effect, from the rule of each instruction. -/
def writes (i : Instr) (s : State) : List Piece :=
  match i with
  | .jump _ | .jumpInd _ | .nop | .flagInJump _ | .notFlagInJump _ => []
  | .ifJump c _ | .ifJumpInd c _ => if c = .notCe then [.cntr, .cntstk] else []
  | .call _ | .ifCall _ _ | .callInd _ | .ifCallInd _ _ | .rts | .ifRts _ | .flagInCall _
  | .notFlagInCall _ => [.pcstk]
  | .doUntil _ _ => [.pcstk, .lpstk]
  | .rti | .ifRti _ => [.pcstk, .ststk, .astat, .mstat, .imask, .holdoff]
  | .idle | .idleN _ => [.idle, .idleDiv]
  | .popPc lp cp spp => .pcstk :: stackPieces lp cp (spp == 2) (spp == 3)
  | .popLoop pp cp spp => (if pp then [.pcstk] else []) ++ stackPieces true cp (spp == 2) (spp == 3)
  | .popCntr pp lp spp => (if pp then [.pcstk] else []) ++ stackPieces lp true (spp == 2) (spp == 3)
  | .pushSts pp lp cp => (if pp then [.pcstk] else []) ++ stackPieces lp cp true false
  | .popSts pp lp cp => (if pp then [.pcstk] else []) ++ stackPieces lp cp false true
  | .enaInts | .disInts => [.ints]
  | .enaTimer _ | .disTimer _ | .enaMMode _ | .disMMode _ | .enaArSat _ | .disArSat _ | .enaAvLatch _
  | .disAvLatch _ | .enaBitRev _ | .disBitRev _ | .enaSecReg _ | .disSecReg _ | .enaGMode _
  | .disGMode _ | .toMstat _ | .mstatConst _ => [.mstat]
  | .fromAstat _ | .fromMstat _ | .fromSstat _ | .fromImask _ | .fromIcntl _ | .fromCntr _ =>
    s.movePieces
  | .toAstat _ | .astatConst _ => [.astat]
  | .toImask _ | .imaskConst _ => [.imask, .holdoff]
  | .toIcntl _ | .icntlConst _ => [.icntl]
  | .toCntr _ | .cntrConst _ => [.cntr, .cntstk]
  | .toOwrcntr _ | .owrcntrConst _ => [.cntr]
  | .toIfc _ | .ifcConst _ => [.req]
  | .fromToppcstack _ => [.pcstk, .kinds] ++ s.movePieces
  | .toToppcstack _ => [.pcstk, .kinds]

/-- Whether an instruction always sends control itself, so that no loop end happens with it
(40_sequencer.md R96). -/
def transfers : Instr → Bool
  | .jump _ | .jumpInd _ | .call _ | .callInd _ | .rts | .rti | .idle | .idleN _ => true
  | _ => false

/-- The parts that a loop end may write (42_do_until.md R141 to R144): the PC stack and the loop stack,
and where the loop counts the counter and the count stack. -/
def State.loopPieces (s : State) : List Piece :=
  if s.atLoopEnd then
    if s.lpstk.words.any (·.term == .ce) then [.pcstk, .lpstk, .cntr, .cntstk] else [.pcstk, .lpstk]
  else []

/-- All that an instruction may write, with the sequencing of its step. -/
def mayWrite (i : Instr) (s : State) : List Piece :=
  writes i s ++ if transfers i then [] else s.loopPieces

/-! ## The effects of the two kinds of words that name several things -/

/-- What a stack-control word does where every stack it pops holds a word (44_status_mode.md R182 to R185;
the hold-off is that of the parameter RTI_STARTS_HOLDOFF, U12). The defaults of the top words are of no
consequence then. -/
def stackEffect (pp lp cp : Bool) (spp : BitVec 2) (s : State) : State :=
  let s1 := if pp then s.setPcstk { s.pcstk with words := s.pcstk.words.tail } else s
  let s2 := if lp then s1.setLpstk { s.lpstk with words := s.lpstk.words.tail } else s1
  let s3 :=
    if cp then
      (s2.setCntstk { s.cntstk with words := s.cntstk.words.tail }).setCntr (s.cntstk.words.headD 0)
    else s2
  let w := s.ststk.words.headD ⟨0, 0, 0⟩
  if spp = 2 then s3.setStstk (s.ststk.push s.cfg.statusDepth ⟨s.astat, s.mstat, s.imask⟩)
  else if spp = 3 then
    let s4 := (((s3.setStstk { s.ststk with words := s.ststk.words.tail }).setAstat
      w.astat).setMstat w.mstat).setImask w.imask
    if s.cfg.rtiStartsHoldoff && hasHoldoff s.cfg.proc then s4.setHoldoff 2 else s4
  else s3

/-- The stacks hold what a stack-control word pops, and it is no pop of the loop stack just before that
loop's end (44_status_mode.md R182 to R185, U10). -/
def canPop (pp lp cp : Bool) (spp : BitVec 2) (s : State) : Prop :=
  (pp = true → s.pcstk.words ≠ []) ∧ (lp = true → s.lpstk.words ≠ [] ∧ s.beforeLoopEnd = false) ∧
    (cp = true → s.cntstk.words ≠ []) ∧ (spp = 3 → s.ststk.words ≠ [])

/-- The terms that a stack-control word with these fields can be written with: one for each part it has. -/
def stackRows (pp lp cp : Bool) (spp : BitVec 2) : List Instr :=
  (if pp then [.popPc lp cp spp] else []) ++ (if lp then [.popLoop pp cp spp] else []) ++
    (if cp then [.popCntr pp lp spp] else []) ++ (if spp = 2 then [.pushSts pp lp cp] else []) ++
    (if spp = 3 then [.popSts pp lp cp] else [])

/-- What a two-bit field makes of a mode bit (30_encoding.md R79). -/
def modeSet (f : BitVec 2) (old new : Bool) : Prop :=
  (f = 3 → new = true) ∧ (f = 2 → new = false) ∧ (f = 0 ∨ f = 1 → new = old)

/-- An instruction does what the mode-control word with the fields `f` says (10_state.md R32,
44_status_mode.md R186). -/
def ModeEffect (f : ModeFields) (i : Instr) : Prop :=
  ∀ s : State, s.unguarded → s.slotFree → s.canSequence s →
    ∃ m t, modeSet f.sr (s.mstat.getLsbD 0) (m.getLsbD 0) ∧
      modeSet f.br (s.mstat.getLsbD 1) (m.getLsbD 1) ∧
      modeSet f.ol (s.mstat.getLsbD 2) (m.getLsbD 2) ∧
      modeSet f.as (s.mstat.getLsbD 3) (m.getLsbD 3) ∧
      modeSet f.mm (s.mstat.getLsbD 4) (m.getLsbD 4) ∧
      modeSet f.ti (s.mstat.getLsbD 5) (m.getLsbD 5) ∧
      modeSet f.gm (s.mstat.getLsbD 6) (m.getLsbD 6) ∧
      SeqNext s (s.setMstat m) t ∧ exec i s = .next (endOfStep .other t)

/-- A move into `dst` leaves every other register of the active bank, of the address generators and of the
ports reading as before. -/
def OthersKept (dst : Reg) (s t : State) : Prop :=
  (∀ r : Reg, r.isPlain = true → r ≠ dst → t.readPlain r = s.readPlain r) ∧
    t.bank.af = s.bank.af ∧ t.bank.mf = s.bank.mf

/-- The widths of the registers outside the sequencer (10_state.md R40; PX and the serial-port registers
by log entry 25). -/
def plainWidth : Reg → Nat
  | .mr2 | .se | .px => 8
  | .sb => 5
  | .i0 | .i1 | .i2 | .i3 | .i4 | .i5 | .i6 | .i7 | .m0 | .m1 | .m2 | .m3 | .m4 | .m5 | .m6 | .m7
  | .l0 | .l1 | .l2 | .l3 | .l4 | .l5 | .l6 | .l7 => 14
  | _ => 16

end Sys2Proof.Machine
end

