-- ==== Sys2Proof/Certificates/Slice0/Obligations.lean ====
section
/-! DEFINITION. The statements for the provers. A statement about a run of an instruction is made for
states with the optional guards off (`State.unguarded`); the TOPPCSTACK slot and the words that a loop
end needs are hypotheses on the state alone (`State.slotFree`, `State.canSequence`). -/

open Sys2Proof Sys2Proof.Machine

/-! ## Encoding and fetching -/

/-- Words written out from the formats of 30_encoding.md R72 to R80 decode to their instructions; the formats
are the spec's general knowledge (log entry 24). -/
def Obligations.WordsDecode : Prop :=
  decode 0x18200F = .instr (.jump 0x0200) ∧ decode 0x1D2341 = .instr (.ifCall .ne 0x1234) ∧
  decode 0x14107E = .instr (.doUntil 0x0107 .ce) ∧ decode 0x0B0041 = .instr (.ifJumpInd .ne .i5) ∧
  decode 0x0A0014 = .instr (.ifRti .lt) ∧ decode 0x03ABCD = .instr (.notFlagInCall 0x3ABC) ∧
  decode 0x028008 = .instr (.idleN .n128) ∧ decode 0x040018 = .instr (.popPc true false 0) ∧
  decode 0x0C0B00 = .instr (.disArSat ⟨0, 0, 2, 3, 0, 0, 0⟩) ∧
  decode 0x0D03A5 = .instr (.fromCntr .ar) ∧ decode 0x0D0CF0 = .instr (.toToppcstack .ax0) ∧
  decode 0x3C00A5 = .instr (.cntrConst 10)

/-- Every well-formed instruction is read back from its word, with every operand. -/
def Obligations.DecodeOfEncode : Prop :=
  ∀ i : Instr, i.wellFormed = true → decode (encode i) = .instr i

/-- A word that decodes to an instruction is that instruction's word, and the instruction is well-formed:
no two words decode to one instruction, and no bit of a word is dropped. The words that 30_encoding.md R84
reserves are rejected by name: nonzero bits where a format shows zeros, a reserved divisor, a reserved
register code, and the moves and loads that cannot be (10_state.md R19, R27, R36; 46_toppcstack.md R224, R226).
That Type 7 loads no register of group 0 is in log entry 42. -/
def Obligations.EncodeOfDecode : Prop :=
  (∀ (w : Insn) (i : Instr), decode w = .instr i → i.wellFormed = true ∧ encode i = w) ∧
  (∀ w : Insn,
    (field w 16 8 = 0x00 → w ≠ 0 → decode w = .reject .notNop) ∧
    (field w 16 8 = 0x02 → field w 15 1 = 1 → field w 4 11 ≠ 0 →
      decode w = .reject .nonzeroReserved) ∧
    (field w 16 8 = 0x02 → field w 15 1 = 1 → field w 4 11 = 0 →
      field w 0 4 ∉ [(0 : BitVec 4), 1, 2, 4, 8] → decode w = .reject .reservedDivisor) ∧
    (field w 16 8 = 0x04 → field w 5 11 ≠ 0 → w ≠ 0x040060 → w ≠ 0x040040 →
      decode w = .reject .nonzeroReserved) ∧
    (field w 16 8 = 0x0A → field w 5 11 ≠ 0 → decode w = .reject .nonzeroReserved) ∧
    (field w 16 8 = 0x0B → field w 8 8 ≠ 0 ∨ field w 5 1 ≠ 0 →
      decode w = .reject .nonzeroReserved) ∧
    (field w 16 8 = 0x0C → field w 0 2 ≠ 0 → decode w = .reject .nonzeroReserved) ∧
    (field w 16 8 = 0x0D → field w 12 4 ≠ 0 → decode w = .reject .nonzeroReserved) ∧
    (field w 16 8 = 0x0D → field w 12 4 = 0 →
      reservedCode (field w 10 2) (field w 4 4) ∨ reservedCode (field w 8 2) (field w 0 4) →
      decode w = .reject .reservedRegister) ∧
    (field w 20 4 = 0x3 → reservedCode (field w 18 2) (field w 0 4) →
      decode w = .reject .reservedRegister) ∧
    (field w 20 4 = 0x3 → field w 18 2 = 0 → decode w = .reject .dataRegisterLoad)) ∧
  (∀ dst src : Reg,
    (dst ≠ .toppcstack → src = .ifc → decode (moveWord dst src) = .reject .ifcRead) ∧
    (dst ≠ .toppcstack → src = .owrcntr → decode (moveWord dst src) = .reject .owrcntrRead) ∧
    (dst = .sstat → src.isSource = true → decode (moveWord dst src) = .reject .sstatWrite) ∧
    (dst = .toppcstack → src.toppcOk = false →
      decode (moveWord dst src) = .reject .toppcRegister) ∧
    (src = .toppcstack → dst.toppcOk = false →
      decode (moveWord dst src) = .reject .toppcRegister)) ∧
  ∀ d : BitVec 14, decode (loadWord .sstat d) = .reject .sstatWrite ∧
    decode (loadWord .toppcstack d) = .reject .toppcRegister

/-- A step runs the instruction that the word at the program counter decodes to, where no reset, no
interrupt and no idle state comes first (40_sequencer.md R95). `exec` holds the sequencing and the end of
the step, so that the step adds nothing but the inputs before it. A word that is rejected is refused
(30_encoding.md R84), so are the two INTS words without a listing (R78; log entry 24), and so is a location
that an instruction has stored to (20_memory.md R61; log entry 45). -/
def Obligations.StepRunsDecoded : Prop :=
  ∀ s : State, s.resetAsserted = false → s.takeInputs.serviceable = none →
    s.takeInputs.idle = false →
    (∀ w : Insn, s.takeInputs.fetch = some w →
      (∀ i, decode w = .instr i → (i = .enaInts ∨ i = .disInts → s.cfg.intsListed = true) →
        step s = exec i s.takeInputs) ∧
      (∀ i, decode w = .instr i → i = .enaInts ∨ i = .disInts → s.cfg.intsListed = false →
        step s = .refused (.undecodable .unlistedWord)) ∧
      (∀ b, decode w = .beyond b → step s = execBeyond b s.takeInputs) ∧
      (∀ e, decode w = .reject e → step s = .refused (.undecodable e))) ∧
    (s.pc ∈ s.pmStored → step s = .refused .storedWord)

/-- An instruction placed for the next step is what the fetch reads; nothing but that word of program
memory changes. The fetch is 20_memory.md R52; the placing from outside (70_reset_and_hazards.md R292, D32)
and the canonical form of the bytes are the model's choice, log entries 9 and 8. -/
def Obligations.PlacedWordIsFetched : Prop :=
  ∀ (s : State) (nbits w : Nat), Memory.wf s.pm →
    (s.withFetchWord nbits w).fetch = some (BitVec.ofNat 24 (w % 2 ^ nbits)) ∧
    Memory.wf (s.withFetchWord nbits w).pm ∧
    (∀ b, b ≠ s.pc → Memory.readWord (s.withFetchWord nbits w).pm b = Memory.readWord s.pm b) ∧
    s.withFetchWord nbits w = s.setPm (s.withFetchWord nbits w).pm

/-! ## Reset -/

/-- The values the spec gives for reset (10_state.md R43, 70_reset_and_hazards.md R290). ASTAT and MSTAT are
its values from general knowledge (log entry 4); the requests, idle, the delays and the kinds are its own
choice D13 (log entry 5). -/
def Obligations.ResetValues : Prop :=
  State.reset.pc = 0 ∧ State.reset.sstat = 0x55 ∧ State.reset.cntrValid = false ∧
  State.reset.imask = 0 ∧ State.reset.intsEnabled = true ∧
  (∀ k, State.reset.req.get k = false) ∧ State.reset.astat = 0 ∧ State.reset.mstat = 0 ∧
  State.reset.idle = false ∧ State.reset.idleDiv = .one ∧ State.reset.imaskHoldoff = 0 ∧
  State.reset.icntlDelay = 0 ∧ State.reset.icntlOld = State.reset.icntl ∧
  State.reset.prevKind = .other ∧ State.reset.prev2Kind = .other ∧ State.reset.depths = [0, 0, 0, 0]

/-- RESET in any state, idle or with an interrupt pending, gives the state after reset, and keeps program
memory, the pins and the configuration (70_reset_and_hazards.md R290, 10_state.md R43; what the spec or the
model chose there is in log entries 1 to 5, and what is kept in log entry 38). -/
def Obligations.ResetWins : Prop :=
  ∀ s : State, s.resetAsserted = true →
    ∃ t, step s = .next t ∧ t = s.takeInputs.restart ∧ t.pc = 0 ∧ t.sstat = 0x55 ∧
      t.depths = [0, 0, 0, 0] ∧ t.cntrValid = false ∧ t.imask = 0 ∧ t.intsEnabled = true ∧
      (∀ k, t.req.get k = false) ∧ t.astat = 0 ∧ t.mstat = 0 ∧ t.idle = false ∧ t.idleDiv = .one ∧
      t.imaskHoldoff = 0 ∧ t.icntlDelay = 0 ∧ t.icntlOld = t.icntl ∧ t.icntlKnown = false ∧
      t.intsDelay = 0 ∧ t.prevKind = .other ∧ t.prev2Kind = .other ∧ t.noLoss = true ∧
      (∀ key, Memory.readByte t.pm key = Memory.readByte s.pm key) ∧ t.pm = s.pm ∧ t.cfg = s.cfg ∧
      t.pins = s.takeInputs.pins

/-- The state after reset meets the invariant. -/
def Obligations.ResetInvariant : Prop := State.reset.Inv

/-! ## Every step -/

/-- Every step keeps the invariant, from every state that meets it. -/
def Obligations.StepKeepsInvariant : Prop := ∀ s t : State, s.Inv → step s = .next t → t.Inv

/-- No step changes program memory or the configuration (20_memory.md R61; the configuration is the
model's, log entry 7). -/
def Obligations.StepKeepsProgram : Prop :=
  ∀ s t : State, step s = .next t →
    (∀ key, Memory.readByte t.pm key = Memory.readByte s.pm key) ∧ t.cfg = s.cfg

/-- A stack's overflow bit, once set, stays set whatever the machine does, until RESET, which clears all
four (10_state.md R29). -/
def Obligations.OverflowIsSticky : Prop :=
  ∀ s t : State, step s = .next t →
    (s.resetAsserted = false →
      (s.pcstk.ovf = true → t.pcstk.ovf = true) ∧ (s.cntstk.ovf = true → t.cntstk.ovf = true) ∧
      (s.lpstk.ovf = true → t.lpstk.ovf = true) ∧ (s.ststk.ovf = true → t.ststk.ovf = true)) ∧
    (s.resetAsserted = true → t.noLoss = true)

/-- The frame of every well-formed instruction: what its rule does not let it write, it leaves as it was,
every byte of memory among it; what ages by one step (the hold-off, the delays of ICNTL and of the global
enable, the kinds of the last instructions) does that and no more; and a latch may become free where a new
ICNTL comes into force and changes the sensitivity of a source that is requested, which is the model's
choice (U13, `State.freed`, log entry 19). -/
def Obligations.InstructionFrame : Prop :=
  ∀ (i : Instr) (s t : State), i.wellFormed = true → exec i s = .next t → KeptBut (mayWrite i s) s t

/-! ## Interrupts -/

/-- The vectors of 60_exceptions.md R246 to R251, highest priority first; the level of a source is its distance
from the timer's vector in slots of four (R256; beyond the ADSP-2101 the levels are the spec's choice D11, log
entry 22); the counts and widths of 00_scope.md R4; and the status stack has a word for every source
(00_scope.md R5, 60_exceptions.md R263). -/
def Obligations.LevelsFollowVectors : Prop :=
  (∀ p : Proc, ∀ k ∈ sources p,
    (vector p k).toNat + 4 * level p k = (vector p .timer).toNat ∧ level p k < wImask p) ∧
  (∀ p : Proc, (sources p).Pairwise fun j k => level p k < level p j) ∧
  ([.adsp2101, .adsp2115, .adsp2105, .adsp2111, .adsp2171, .adsp2181, .adsp21msp58, .adsp21msp59].map
    fun p => (nsrc p, wImask p)) =
      [(6, 6), (6, 6), (4, 6), (8, 8), (10, 10), (10, 10), (10, 10), (10, 10)] ∧
  (∀ p ∈ [Proc.adsp2101, .adsp2115], ((sources p).map fun k => (k, vector p k)) =
    [(.irq2, 0x0004), (.sport0Tx, 0x0008), (.sport0Rx, 0x000C), (.sport1Tx, 0x0010),
      (.sport1Rx, 0x0014), (.timer, 0x0018)]) ∧
  ((sources .adsp2105).map fun k => (k, vector .adsp2105 k)) =
    [(.irq2, 0x0004), (.sport1Tx, 0x0010), (.sport1Rx, 0x0014), (.timer, 0x0018)] ∧
  ((sources .adsp2111).map fun k => (k, vector .adsp2111 k)) =
    [(.irq2, 0x0004), (.hipWrite, 0x0008), (.hipRead, 0x000C), (.sport0Tx, 0x0010),
      (.sport0Rx, 0x0014), (.sport1Tx, 0x0018), (.sport1Rx, 0x001C), (.timer, 0x0020)] ∧
  ((sources .adsp2171).map fun k => (k, vector .adsp2171 k)) =
    [(.irq2, 0x0004), (.hipWrite, 0x0008), (.hipRead, 0x000C), (.sport0Tx, 0x0010),
      (.sport0Rx, 0x0014), (.soft1, 0x0018), (.soft2, 0x001C), (.sport1Tx, 0x0020),
      (.sport1Rx, 0x0024), (.timer, 0x0028)] ∧
  ((sources .adsp2181).map fun k => (k, vector .adsp2181 k)) =
    [(.irq2, 0x0004), (.irql1, 0x0008), (.irql0, 0x000C), (.sport0Tx, 0x0010),
      (.sport0Rx, 0x0014), (.irqe, 0x0018), (.byteDma, 0x001C), (.sport1Tx, 0x0020),
      (.sport1Rx, 0x0024), (.timer, 0x0028)] ∧
  (∀ p ∈ [Proc.adsp21msp58, .adsp21msp59], ((sources p).map fun k => (k, vector p k)) =
    [(.irq2, 0x0004), (.hipWrite, 0x0008), (.hipRead, 0x000C), (.sport0Tx, 0x0010),
      (.sport0Rx, 0x0014), (.dac, 0x0018), (.adc, 0x001C), (.sport1Tx, 0x0020),
      (.sport1Rx, 0x0024), (.timer, 0x0028)]) ∧
  ∀ c : Cfg, nsrc c.proc ≤ c.statusDepth

/-- The interrupt taken is the requested and enabled source with the highest level, and none is taken
while interrupts are disabled or held off (60_exceptions.md R257, R259). A source is requested by its latch
where it is edge-sensitive and by its low pin where it is level-sensitive (R250, R252 to R254). A latch is
set by the fall of an edge-sensitive pin and by no other change of a pin (R252), a level is seen at the pin and
not latched (R253), and an internal event latches its source, the timer's only while MSTAT enables the
timer (R281). The ICNTL bits of the three pins are 10_state.md R34's, from general knowledge (log entry 24);
that the host port's, the byte DMA's and the two software sources are edge-sensitive and raised by internal
events is the model's choice (log entry 36). -/
def Obligations.ServiceableIsHighest : Prop :=
  (∀ (s : State) (k : Source), s.serviceable = some k ↔
    (hasGlobalInts s.cfg.proc = false ∨ s.intsEff = true) ∧ s.imaskHoldoff = 0 ∧
    k ∈ sources s.cfg.proc ∧ s.requested k = true ∧ s.enabled k = true ∧
    ∀ j ∈ sources s.cfg.proc, s.requested j = true → s.enabled j = true →
      level s.cfg.proc j ≤ level s.cfg.proc k) ∧
  (∀ (s : State) (k : Source),
    (s.edge k = true → s.requested k = s.req.get k) ∧
    (s.edge k = false → s.requested k = s.pins.get k)) ∧
  (∀ s : State, s.edge .irq2 = s.icntlEff.getLsbD 2 ∧
    s.edge .sport1Tx = (!s.cfg.sport1IsIrq || s.icntlEff.getLsbD 1) ∧
    s.edge .sport1Rx = (!s.cfg.sport1IsIrq || s.icntlEff.getLsbD 0) ∧
    s.edge .irql1 = false ∧ s.edge .irql0 = false ∧
    ∀ k ∈ [Source.hipWrite, .hipRead, .sport0Tx, .sport0Rx, .soft1, .soft2, .irqe, .byteDma, .dac, .adc,
      .timer], s.edge k = true) ∧
  (∀ (s : State) (k : Source) (low : Bool), hasSource s.cfg.proc k = true →
    k ∈ [Source.irq2, .irql1, .irql0, .irqe] ∨
      (s.cfg.sport1IsIrq = true ∧ k ∈ [Source.sport1Tx, .sport1Rx]) →
    (applyInput s (.pin k low)).pins.get k = low ∧
    (s.edge k = true → low = true → s.pins.get k = false →
      (applyInput s (.pin k low)).req.get k = true) ∧
    (s.edge k = false ∨ low = false ∨ s.pins.get k = true → (applyInput s (.pin k low)).req = s.req) ∧
    (s.edge k = false → (applyInput s (.pin k low)).requested k = low) ∧
    ∀ j, j ≠ k → (applyInput s (.pin k low)).pins.get j = s.pins.get j ∧
      (applyInput s (.pin k low)).req.get j = s.req.get j) ∧
  (∀ (s : State) (k : Source), hasSource s.cfg.proc k = true →
    k ∈ [Source.hipWrite, .hipRead, .sport0Tx, .sport0Rx, .soft1, .soft2, .byteDma, .dac, .adc] ∨
      (s.cfg.sport1IsIrq = false ∧ k ∈ [Source.sport1Tx, .sport1Rx]) ∨
      (k = .timer ∧ s.mstat.getLsbD 5 = true) →
    applyInput s (.event k) = s.setReq (s.req.set k true)) ∧
  ∀ s : State, s.mstat.getLsbD 5 = false → applyInput s (.event .timer) = s

/-- Interrupt entry in place of the instruction at the program counter, in idle too: what it saves, where
it goes, and what it leaves (60_exceptions.md R260, R261; 43_idle_nop.md R162). It clears the latch of an
edge-sensitive source; of the other latches none changes but one that a new ICNTL frees (U13, log entry 19). -/
def Obligations.EntryEffect : Prop :=
  ∀ (s : State) (k : Source), s.resetAsserted = false → s.takeInputs.serviceable = some k →
    ∃ t, step s = .next t ∧ t.pc = vector s.cfg.proc k ∧
      t.pcstk = s.takeInputs.pcstk.push 16 s.pc ∧
      t.ststk = s.takeInputs.ststk.push s.cfg.statusDepth ⟨s.astat, s.mstat, s.imask⟩ ∧
      t.imask = imaskAfter (s.icntlEff.getLsbD 4) (level s.cfg.proc k) s.imask ∧
      t.idle = false ∧
      (∀ j, t.req.get j =
          (if j = k ∧ s.takeInputs.edge k = true then false else s.takeInputs.req.get j) ∨
        (s.takeInputs.freed j ∧ ¬(j = k ∧ s.takeInputs.edge k = true))) ∧
      KeptBut [.pcstk, .ststk, .imask, .idle, .req] s.takeInputs t

/-- IMASK after entry, bit by bit: 0 with nesting off; with nesting on the bits up to the level serviced
are cleared and the bits above keep their values (60_exceptions.md R262). -/
def Obligations.ImaskAfterEntry : Prop :=
  ∀ (nesting : Bool) (lvl : Nat) (m : BitVec 10) (q : Nat), lvl < 10 →
    (imaskAfter nesting lvl m).getLsbD q = (nesting && decide (lvl < q) && m.getLsbD q)

/-- An RTI right after an interrupt entry puts back the address, ASTAT, MSTAT, IMASK and both stacks, if
neither stack was full (41_jump_call_return.md R118, 60_exceptions.md R265). -/
def Obligations.EntryThenReturn : Prop :=
  ∀ (s : State) (k : Source), s.unguarded → s.pcstk.words.length < 16 →
    s.ststk.words.length < s.cfg.statusDepth →
    ∃ t, exec .rti (enterInterrupt k s) = .next t ∧ t.pc = s.pc ∧ t.pcstk = s.pcstk ∧
      t.ststk = s.ststk ∧ t.astat = s.astat ∧ t.mstat = s.mstat ∧ t.imask = s.imask

/-- On the members with the hold-off, a write of IMASK, by a load or by a move, keeps every interrupt away from
the next boundary; the instruction after it, if it does not write IMASK itself, ends that
(60_exceptions.md R258). -/
def Obligations.HoldoffLastsOneInstruction : Prop :=
  ∀ (s t u : State) (w i : Instr), hasHoldoff s.cfg.proc = true →
    ((∃ d, w = .imaskConst d) ∨ ∃ src, w = .toImask src) →
    w.wellFormed = true → i.wellFormed = true → exec w s = .next t → exec i t = .next u →
    t.imaskHoldoff = 1 ∧ t.serviceable = none ∧ (Piece.holdoff ∉ mayWrite i t → u.imaskHoldoff = 0)

/-- A new interrupt configuration, loaded or moved into ICNTL, can be read at once and comes into force one
instruction later (70_reset_and_hazards.md R304). -/
def Obligations.IcntlIsOneStepLate : Prop :=
  ∀ (s t u : State) (w i : Instr) (v : BitVec 5),
    ((∃ d, w = .icntlConst d ∧ v = d.setWidth 5) ∨
      ∃ src b r, w = .toIcntl src ∧ s.readReg src = .ok (b, r) ∧ v = b.setWidth 5) →
    w.wellFormed = true → i.wellFormed = true → exec w s = .next t → exec i t = .next u →
    t.icntl = v ∧ t.icntlEff = s.icntlEff ∧
      (Piece.icntl ∉ mayWrite i t → u.icntl = t.icntl ∧ u.icntlEff = t.icntl)

/-- In idle with nothing serviceable, a step changes nothing but what the environment does: the latches,
the pins, the FI pin and the device registers (43_idle_nop.md R161, R162, R166). -/
def Obligations.IdleWaits : Prop :=
  ∀ s : State, s.resetAsserted = false → s.idle = true → s.takeInputs.serviceable = none →
    step s = .next s.takeInputs ∧
    ∃ l r p f d, s.takeInputs = ((((s.setInputs l).setReq r).setPins p).setFlagIn f).setPorts d

/-! ## Stacks, conditions and the counter -/

/-- `Push` (10_state.md R13), and the pushes less the pops since reset, which a push raises by one and a pop
lowers by one, whether it finds a word or not (R15; U3; log entry 11). -/
def Obligations.PushRule : Prop :=
  ∀ (α : Type) (d : Nat) (st : Stack α) (v : α),
    (st.words.length < d →
      (st.push d v).words = v :: st.words ∧ (st.push d v).ovf = st.ovf ∧
        (st.push d v).lost = st.lost) ∧
    (d ≤ st.words.length → (st.push d v).words = st.words ∧ (st.push d v).ovf = true) ∧
    (st.push d v).balance = st.balance + 1 ∧
    (st.words ≠ [] → st.drop.balance = st.balance - 1) ∧
    (st.words = [] → st.popNone.balance = st.balance - 1)

/-- The eight bits of SSTAT (10_state.md R27, R28; the positions are the spec's general knowledge, log entry
24). A stack is empty where pops have reached pushes (R15; log entry 11). -/
def Obligations.SstatShowsStacks : Prop :=
  ∀ s : State,
    s.sstat.getLsbD 0 = s.pcstk.isEmpty ∧ s.sstat.getLsbD 1 = s.pcstk.ovf ∧
    s.sstat.getLsbD 2 = s.cntstk.isEmpty ∧ s.sstat.getLsbD 3 = s.cntstk.ovf ∧
    s.sstat.getLsbD 4 = s.ststk.isEmpty ∧ s.sstat.getLsbD 5 = s.ststk.ovf ∧
    s.sstat.getLsbD 6 = s.lpstk.isEmpty ∧ s.sstat.getLsbD 7 = s.lpstk.ovf ∧
    (s.pcstk.isEmpty = true ↔ s.pcstk.balance ≤ 0) ∧
    (s.cntstk.isEmpty = true ↔ s.cntstk.balance ≤ 0) ∧
    (s.ststk.isEmpty = true ↔ s.ststk.balance ≤ 0) ∧
    (s.lpstk.isEmpty = true ↔ s.lpstk.balance ≤ 0)

/-- The conditions of IF (45_conditions.md R201), with the positions of 10_state.md R24; the FLAG_IN rows
of the table are in the statement about those instructions. -/
def Obligations.IfConditions : Prop :=
  ∀ (a : BitVec 8) (n : Count),
    (condHolds a n .eq = true ↔ a.getLsbD 0 = true) ∧
    (condHolds a n .ne = true ↔ a.getLsbD 0 = false) ∧
    (condHolds a n .lt = true ↔ (a.getLsbD 1 ^^ a.getLsbD 2) = true) ∧
    (condHolds a n .ge = true ↔ (a.getLsbD 1 ^^ a.getLsbD 2) = false) ∧
    (condHolds a n .le = true ↔ ((a.getLsbD 1 ^^ a.getLsbD 2) || a.getLsbD 0) = true) ∧
    (condHolds a n .gt = true ↔ ((a.getLsbD 1 ^^ a.getLsbD 2) || a.getLsbD 0) = false) ∧
    (condHolds a n .ac = true ↔ a.getLsbD 3 = true) ∧
    (condHolds a n .notAc = true ↔ a.getLsbD 3 = false) ∧
    (condHolds a n .av = true ↔ a.getLsbD 2 = true) ∧
    (condHolds a n .notAv = true ↔ a.getLsbD 2 = false) ∧
    (condHolds a n .mv = true ↔ a.getLsbD 6 = true) ∧
    (condHolds a n .notMv = true ↔ a.getLsbD 6 = false) ∧
    (condHolds a n .neg = true ↔ a.getLsbD 4 = true) ∧
    (condHolds a n .pos = true ↔ a.getLsbD 4 = false) ∧
    (condHolds a n .notCe = true ↔ n ≠ 1)

/-- The termination conditions of DO UNTIL (42_do_until.md R133); CE by 45_conditions.md R202, FOREVER by
42_do_until.md R144. -/
def Obligations.UntilConditions : Prop :=
  ∀ (a : BitVec 8) (n : Count),
    (termHolds a n .eq = true ↔ a.getLsbD 0 = true) ∧
    (termHolds a n .ne = true ↔ a.getLsbD 0 = false) ∧
    (termHolds a n .lt = true ↔ (a.getLsbD 1 ^^ a.getLsbD 2) = true) ∧
    (termHolds a n .ge = true ↔ (a.getLsbD 1 ^^ a.getLsbD 2) = false) ∧
    (termHolds a n .le = true ↔ ((a.getLsbD 1 ^^ a.getLsbD 2) || a.getLsbD 0) = true) ∧
    (termHolds a n .gt = true ↔ ((a.getLsbD 1 ^^ a.getLsbD 2) || a.getLsbD 0) = false) ∧
    (termHolds a n .ac = true ↔ a.getLsbD 3 = true) ∧
    (termHolds a n .notAc = true ↔ a.getLsbD 3 = false) ∧
    (termHolds a n .av = true ↔ a.getLsbD 2 = true) ∧
    (termHolds a n .notAv = true ↔ a.getLsbD 2 = false) ∧
    (termHolds a n .mv = true ↔ a.getLsbD 6 = true) ∧
    (termHolds a n .notMv = true ↔ a.getLsbD 6 = false) ∧
    (termHolds a n .neg = true ↔ a.getLsbD 4 = true) ∧
    (termHolds a n .pos = true ↔ a.getLsbD 4 = false) ∧
    (termHolds a n .ce = true ↔ n = 1) ∧ termHolds a n .forever = false

/-- The decrementing test of CE (45_conditions.md R203), on the counter as it stands. -/
def Obligations.CounterTest : Prop :=
  ∀ s : State,
    ((s.testCe s.cntr).1 = true ↔ s.cntr = 1) ∧
    (s.cntr ≠ 1 → (s.testCe s.cntr).2 = s.setCntr (s.cntr - 1)) ∧
    (∀ c cs, s.cntr = 1 → s.cntstk.words = c :: cs →
      (s.testCe s.cntr).2 = (s.setCntstk { s.cntstk with words := cs }).setCntr c) ∧
    (s.cntr = 1 → s.cntstk.words = [] → s.cntstk.lost = 0 →
      (s.testCe s.cntr).2 = (s.setCntr 0).setCntrValid false)

/-- A count of N passes the test N - 1 times and is found expired at the Nth (42_do_until.md R144,
R136): after k tests it is N - k, and the next test is true exactly when k + 1 = N. A count of 0 passes
2^14 - 1 times (45_conditions.md R203). -/
def Obligations.CountLastsItsValue : Prop :=
  ∀ (s : State) (k : Nat),
    k < (if s.cntr = 0 then 2 ^ 14 else s.cntr.toNat) →
    ((fun u : State => (u.testCe u.cntr).2)^[k] s).cntr = s.cntr - BitVec.ofNat 14 k ∧
    (((((fun u : State => (u.testCe u.cntr).2)^[k] s).testCe
        ((fun u : State => (u.testCe u.cntr).2)^[k] s).cntr).1 = true) ↔
      k + 1 = (if s.cntr = 0 then 2 ^ 14 else s.cntr.toNat))

/-- `EndOfStep` (70_reset_and_hazards.md R302, R303). -/
def Obligations.EndOfStepRule : Prop :=
  ∀ (k : Kind) (s : State),
    (endOfStep k s).imaskHoldoff = s.imaskHoldoff - 1 ∧
    (endOfStep k s).icntlDelay = s.icntlDelay - 1 ∧
    (endOfStep k s).icntlOld = (if s.icntlDelay = 1 then s.icntl else s.icntlOld) ∧
    (endOfStep k s).prev2Kind = s.prevKind ∧ (endOfStep k s).prevKind = k

/-! ## Registers -/

/-- What a move reads from each register of the sequencer (44_status_mode.md R171 to R177): its value,
zero-extended; bit 3 of ICNTL as 0 (10_state.md R34, log entry 21); from CNTR while it is invalid some value
(10_state.md R17); IFC, OWRCNTR and, outside its own form, TOPPCSTACK are refused. -/
def Obligations.ReadRegister : Prop :=
  ∀ s : State,
    s.readReg .astat = .ok (s.astat.setWidth 16, s) ∧
    s.readReg .mstat = .ok (s.mstat.setWidth 16, s) ∧
    s.readReg .sstat = .ok (s.sstat.setWidth 16, s) ∧
    s.readReg .imask = .ok (s.imask.setWidth 16, s) ∧
    s.readReg .icntl = .ok (icntlRead s.icntl, s) ∧
    (∀ j, (icntlRead s.icntl).getLsbD j = (s.icntl.getLsbD j && decide (j ≠ 3))) ∧
    (s.cntrValid = true → s.readReg .cntr = .ok (s.cntr.setWidth 16, s)) ∧
    (s.cntrValid = false → ∃ (c : Count) (n : Nat),
      s.readReg .cntr = .ok (c.setWidth 16, s.setFreeTick n)) ∧
    s.readReg .ifc = .error .badMove ∧ s.readReg .owrcntr = .error .badMove ∧
    s.readReg .toppcstack = .error .badMove ∧
    (∀ r : Reg, r.isPlain = true → s.readReg r = .ok (s.readPlain r, s))

/-- A register outside the sequencer reads back as the low bits of the bus value last written to it
(92_eei_decisions.md D22, log entry 26; widths of log entry 25), every other one as before; AF, MF and the
inactive bank are not reached. -/
def Obligations.PlainRegisters : Prop :=
  ∀ (s : State) (r : Reg) (v : Bus), r.isPlain = true →
    (s.writePlain r v).readPlain r = (v.setWidth (plainWidth r)).setWidth 16 ∧
    OthersKept r s (s.writePlain r v) ∧
    ∃ p q d o, s.writePlain r v = ((s.setBanks p q).setDag d).setPorts o ∧
      (s.mstat.getLsbD 0 = true → p = s.primary) ∧ (s.mstat.getLsbD 0 = false → q = s.shadow)

/-- A write of IFC (44_status_mode.md R178; 60_exceptions.md R270, R271): an edge-sensitive source is forced by
its force bit and cleared by its clear bit, and nothing else changes. With both bits of one source it is
refused, which is U14 (log entry 34). On the ADSP-2101 the bits stand where 10_state.md R36 has them, from
general knowledge; on the other members the sources that have bits have them at open positions, the host port's
have none (60_exceptions.md R272), and whether those have that R272 leaves unsaid is open (log entry 20); the
two software sources have (G8, log entry 36). -/
def Obligations.IfcRule : Prop :=
  (∀ v : Bus, ∀ x ∈ [(Source.timer, 0), (.sport1Rx, 1), (.sport1Tx, 2), (.sport0Rx, 3), (.sport0Tx, 4),
      (.irq2, 5)],
    ifcClears .adsp2101 v x.1 = v.getLsbD x.2 ∧ ifcForces .adsp2101 v x.1 = v.getLsbD (6 + x.2)) ∧
  (∀ (p : Proc) (v : Bus), ∀ k ∈ [Source.hipWrite, .hipRead],
    ifcClears p v k = false ∧ ifcForces p v k = false) ∧
  (∀ (p : Proc) (v : Bus), p ≠ .adsp2101 →
    (∀ k ∈ [Source.irq2, .sport0Tx, .sport0Rx, .sport1Tx, .sport1Rx, .timer, .dac, .adc, .soft1, .soft2],
      ifcClears p v k = v.getLsbD (Config.ifcClearPos p k) ∧
      ifcForces p v k = v.getLsbD (Config.ifcForcePos p k)) ∧
    ∀ k ∈ [Source.irqe, .irql1, .irql0, .byteDma],
      ifcClears p v k = (Config.ifcHasBits p k && v.getLsbD (Config.ifcClearPos p k)) ∧
      ifcForces p v k = (Config.ifcHasBits p k && v.getLsbD (Config.ifcForcePos p k))) ∧
  ∀ (s : State) (v : Bus),
    (ifcConflict s.cfg.proc v = true → s.writeIfc v = .error .ifcForceAndClear) ∧
    (ifcConflict s.cfg.proc v = false → ∃ r, s.writeIfc v = .ok (s.setReq r) ∧
      ∀ k, r.get k =
        if hasSource s.cfg.proc k && s.edge k && ifcForces s.cfg.proc v k then true
        else if hasSource s.cfg.proc k && s.edge k && ifcClears s.cfg.proc v k then false
        else s.req.get k)

/-! ## Jumps, calls and returns -/

/-- JUMP and JUMP (Ix): the program counter is the target and nothing else happens (41_jump_call_return.md
R111, R113), at a loop end too (R120; 40_sequencer.md R96), unless that loop end is in the slot of a TOPPCSTACK
read (46_toppcstack.md R222). -/
def Obligations.JumpResult : Prop :=
  ∀ s : State, s.unguarded → s.slotFree →
    (∀ a, exec (.jump a) s = .next (endOfStep .other (s.setPc a))) ∧
    (∀ x, exec (.jumpInd x) s = .next (endOfStep .other (s.setPc (s.index x))))

/-- The conditional jumps on every condition but NOT CE (41_jump_call_return.md R112, R113): the target
where the condition holds, else in sequence, which at a loop end is the loop's. -/
def Obligations.ConditionalJumpResult : Prop :=
  ∀ (s : State) (c : Cond), c ≠ .notCe → s.unguarded → s.slotFree →
    (condHolds s.astat s.cntr c = true →
      (∀ a, exec (.ifJump c a) s = .next (endOfStep .other (s.setPc a))) ∧
      (∀ x, exec (.ifJumpInd c x) s = .next (endOfStep .other (s.setPc (s.index x))))) ∧
    (condHolds s.astat s.cntr c = false → s.canSequence s →
      (∀ a, ∃ t, SeqNext s s t ∧ exec (.ifJump c a) s = .next (endOfStep .other t)) ∧
      (∀ x, ∃ t, SeqNext s s t ∧ exec (.ifJumpInd c x) s = .next (endOfStep .other t)))

/-- IF NOT CE JUMP (41_jump_call_return.md R112, 45_conditions.md R203): the counter is decremented; with
a counter of 1 there is no jump and the count stack is popped or the counter becomes invalid; in the last
instruction of a CE loop that is refused (U18). With the guard of 45_conditions.md R202 on (U6, vector J10,
log entry 15) every test of NOT CE while the counter is invalid is refused. -/
def Obligations.NotCeJumpResult : Prop :=
  (∀ s : State, s.unguarded → s.slotFree →
    (s.cntr ≠ 1 →
      (∀ a, exec (.ifJump .notCe a) s =
        .next (endOfStep .other ((s.setCntr (s.cntr - 1)).setPc a))) ∧
      (∀ x, exec (.ifJumpInd .notCe x) s =
        .next (endOfStep .other ((s.setCntr (s.cntr - 1)).setPc (s.index x))))) ∧
    (s.cntr = 1 → s.atCeLoopEnd = true →
      (∀ a, exec (.ifJump .notCe a) s = .refused .notCeJumpAtLoopEnd) ∧
      (∀ x, exec (.ifJumpInd .notCe x) s = .refused .notCeJumpAtLoopEnd)) ∧
    (∀ c cs, s.cntr = 1 → s.atCeLoopEnd = false → s.canSequence s → s.cntstk.words = c :: cs →
      (∀ a, ∃ t, SeqNext s ((s.setCntstk { s.cntstk with words := cs }).setCntr c) t ∧
        exec (.ifJump .notCe a) s = .next (endOfStep .other t)) ∧
      (∀ x, ∃ t, SeqNext s ((s.setCntstk { s.cntstk with words := cs }).setCntr c) t ∧
        exec (.ifJumpInd .notCe x) s = .next (endOfStep .other t))) ∧
    (s.cntr = 1 → s.atCeLoopEnd = false → s.canSequence s → s.cntstk.words = [] →
      s.cntstk.lost = 0 →
      (∀ a, ∃ t, SeqNext s ((s.setCntr 0).setCntrValid false) t ∧
        exec (.ifJump .notCe a) s = .next (endOfStep .other t)) ∧
      (∀ x, ∃ t, SeqNext s ((s.setCntr 0).setCntrValid false) t ∧
        exec (.ifJumpInd .notCe x) s = .next (endOfStep .other t)))) ∧
  ∀ s : State, s.cfg.guardInvalidCounter = true → s.cntrValid = false → s.prevKind = .other →
    s.prev2Kind = .other →
    (∀ a, exec (.ifJump .notCe a) s = .refused .invalidCounter) ∧
    (∀ x, exec (.ifJumpInd .notCe x) s = .refused .invalidCounter) ∧
    exec (.ifRts .notCe) s = .refused .invalidCounter ∧
    exec (.ifRti .notCe) s = .refused .invalidCounter

/-- CALL and CALL (Ix) push the address after the call and go to the target, at a loop end too
(41_jump_call_return.md R114, R115). -/
def Obligations.CallResult : Prop :=
  ∀ s : State, s.unguarded → s.prevKind ≠ .toppcRead →
    (∀ a, exec (.call a) s =
      .next (endOfStep .other ((s.setPcstk (s.pcstk.push 16 (inc s.pc))).setPc a))) ∧
    (∀ x, exec (.callInd x) s =
      .next (endOfStep .other ((s.setPcstk (s.pcstk.push 16 (inc s.pc))).setPc (s.index x))))

/-- The conditional calls (41_jump_call_return.md R114, R115): as CALL where the condition holds, else in
sequence with nothing pushed; on NOT CE refused (U7). -/
def Obligations.ConditionalCallResult : Prop :=
  ∀ (s : State) (c : Cond), s.unguarded → s.prevKind ≠ .toppcRead →
    (c ≠ .notCe → condHolds s.astat s.cntr c = true →
      (∀ a, exec (.ifCall c a) s =
        .next (endOfStep .other ((s.setPcstk (s.pcstk.push 16 (inc s.pc))).setPc a))) ∧
      (∀ x, exec (.ifCallInd c x) s =
        .next (endOfStep .other ((s.setPcstk (s.pcstk.push 16 (inc s.pc))).setPc (s.index x))))) ∧
    (c ≠ .notCe → condHolds s.astat s.cntr c = false → s.canSequence s →
      (∀ a, ∃ t, SeqNext s s t ∧ exec (.ifCall c a) s = .next (endOfStep .other t)) ∧
      (∀ x, ∃ t, SeqNext s s t ∧ exec (.ifCallInd c x) s = .next (endOfStep .other t))) ∧
    (c = .notCe →
      (∀ a, exec (.ifCall c a) s = .refused .notCeCall) ∧
      (∀ x, exec (.ifCallInd c x) s = .refused .notCeCall))

/-- The FLAG_IN forms (41_jump_call_return.md R119, 45_conditions.md R205): FLAG_IN acts where the FI pin
is 1 and NOT FLAG_IN where it is 0, and the other polarity goes on in sequence. -/
def Obligations.FlagInResult : Prop :=
  ∀ (s : State) (a : Addr), s.unguarded →
    (s.slotFree → s.flagIn = true →
      exec (.flagInJump a) s = .next (endOfStep .other (s.setPc a))) ∧
    (s.slotFree → s.flagIn = false →
      exec (.notFlagInJump a) s = .next (endOfStep .other (s.setPc a))) ∧
    (s.slotFree → s.canSequence s →
      (s.flagIn = false →
        ∃ t, SeqNext s s t ∧ exec (.flagInJump a) s = .next (endOfStep .other t)) ∧
      (s.flagIn = true →
        ∃ t, SeqNext s s t ∧ exec (.notFlagInJump a) s = .next (endOfStep .other t))) ∧
    (s.prevKind ≠ .toppcRead →
      (s.flagIn = true → exec (.flagInCall a) s =
        .next (endOfStep .other ((s.setPcstk (s.pcstk.push 16 (inc s.pc))).setPc a))) ∧
      (s.flagIn = false → exec (.notFlagInCall a) s =
        .next (endOfStep .other ((s.setPcstk (s.pcstk.push 16 (inc s.pc))).setPc a)))) ∧
    (s.prevKind ≠ .toppcRead → s.canSequence s →
      (s.flagIn = false →
        ∃ t, SeqNext s s t ∧ exec (.flagInCall a) s = .next (endOfStep .other t)) ∧
      (s.flagIn = true →
        ∃ t, SeqNext s s t ∧ exec (.notFlagInCall a) s = .next (endOfStep .other t)))

/-- RTS and IF cond RTS (41_jump_call_return.md R117): to the popped top of the PC stack, refused where it
is empty; a condition that does not hold goes on in sequence, NOT CE without a decrement
(45_conditions.md R204). -/
def Obligations.ReturnResult : Prop :=
  ∀ s : State, s.unguarded → s.prevKind ≠ .toppcRead →
    (∀ a as, s.pcstk.words = a :: as →
      exec .rts s = .next (endOfStep .other ((s.setPcstk { s.pcstk with words := as }).setPc a)) ∧
      ∀ c, condHolds s.astat s.cntr c = true → exec (.ifRts c) s =
        .next (endOfStep .other ((s.setPcstk { s.pcstk with words := as }).setPc a))) ∧
    (s.pcstk.words = [] → exec .rts s = .refused (.emptyStack .pc) ∧
      ∀ c, condHolds s.astat s.cntr c = true → exec (.ifRts c) s = .refused (.emptyStack .pc)) ∧
    (∀ c, condHolds s.astat s.cntr c = false → s.canSequence s →
      ∃ t, SeqNext s s t ∧ exec (.ifRts c) s = .next (endOfStep .other t))

/-- RTI and IF cond RTI (41_jump_call_return.md R118): to the popped top of the PC stack, with ASTAT,
MSTAT and IMASK from the popped status word; under the parameter RTI_STARTS_HOLDOFF (U12) with the
hold-off. -/
def Obligations.ReturnFromInterruptResult : Prop :=
  ∀ s : State, s.unguarded → s.prevKind = .other →
    (∀ a as w ws, s.pcstk.words = a :: as → s.ststk.words = w :: ws →
      ∃ t, exec .rti s = .next t ∧ t.pc = a ∧ t.pcstk = { s.pcstk with words := as } ∧
        t.ststk = { s.ststk with words := ws } ∧ t.astat = w.astat ∧ t.mstat = w.mstat ∧
        t.imask = w.imask ∧
        t.imaskHoldoff = (if s.cfg.rtiStartsHoldoff && hasHoldoff s.cfg.proc then 1
          else s.imaskHoldoff - 1) ∧
        ∀ c, condHolds s.astat s.cntr c = true → exec (.ifRti c) s = .next t) ∧
    (∀ c, condHolds s.astat s.cntr c = false → s.canSequence s →
      ∃ t, SeqNext s s t ∧ exec (.ifRti c) s = .next (endOfStep .other t))

/-! ## Loops, NOP and IDLE -/

/-- DO UNTIL pushes the loop's word on the loop stack and the address after it on the PC stack, and goes on
with the loop's first instruction (42_do_until.md R131). It is refused as the last instruction of a
loop (U9), and with the end of a loop that is already stacked (R148). The loop's word records the depth of the
PC stack that the DO UNTIL leaves, the ghost field of 46_toppcstack.md R230 (log entry 16). -/
def Obligations.DoUntilResult : Prop :=
  ∀ (s : State) (fin : Addr) (term : Term), s.unguarded → s.prevKind ≠ .toppcRead →
    (s.atLoopEnd = false → (∀ w ∈ s.lpstk.words, w.fin ≠ fin) →
      exec (.doUntil fin term) s = .next (endOfStep .other
        (((s.setPcstk (s.pcstk.push 16 (inc s.pc))).setLpstk
          (s.lpstk.push 4 ⟨fin, term, (s.pcstk.push 16 (inc s.pc)).words.length⟩)).setPc (inc s.pc)))) ∧
    (s.atLoopEnd = true → exec (.doUntil fin term) s = .refused .doAtLoopEnd) ∧
    (s.atLoopEnd = false → (∃ w ∈ s.lpstk.words, w.fin = fin) →
      exec (.doUntil fin term) s = .refused .sameLoopEnd)

/-- NOP does nothing but go on in sequence (43_idle_nop.md R160). -/
def Obligations.NopResult : Prop :=
  ∀ s : State, s.unguarded → s.slotFree → s.canSequence s →
    ∃ t, SeqNext s s t ∧ exec .nop s = .next (endOfStep .other t)

/-- IDLE and IDLE (n) wait with the address after them in the program counter, at a loop end too, where
the loop's words stay (43_idle_nop.md R161, R163; 42_do_until.md R146). That IDLE (n) runs on every member is
the model's choice (log entry 44). -/
def Obligations.IdleResult : Prop :=
  ∀ s : State, s.unguarded → s.slotFree →
    exec .idle s =
      .next (endOfStep .other (((s.setIdleDiv .one).setPc (inc s.pc)).setIdle true)) ∧
    ∀ n, exec (.idleN n) s =
      .next (endOfStep .other (((s.setIdleDiv (.by n)).setPc (inc s.pc)).setIdle true))

/-- A loop end (42_do_until.md R141 to R144; 45_conditions.md R203), for the NOP that ends the loop. On a
condition of ASTAT that does not hold it goes back to the loop's start with nothing popped, on one that
holds it goes on with both stacks popped, the counter and the count stack untouched in both. On CE the
counter is decremented on the way back; when it is 1, the loop is left, and the stacked count comes back
or the counter becomes invalid. With the guards on, a loop end at another depth of the PC stack than its
DO UNTIL left (46_toppcstack.md R230, vector T14, log entry 16) and a test of CE while the counter is invalid
(45_conditions.md R202, log entry 15) are refused. -/
def Obligations.LoopEndResult : Prop :=
  (∀ (s : State) (w : LoopWord) (ws : List LoopWord) (a : Addr) (as : List Addr), s.unguarded →
    s.prevKind ≠ .toppcRead → s.lpstk.words = w :: ws → w.fin = s.pc → s.pcstk.words = a :: as →
    ∃ t, exec .nop s = .next t ∧
      (w.term ≠ .ce → t.cntr = s.cntr ∧ t.cntrValid = s.cntrValid ∧ t.cntstk = s.cntstk) ∧
      (termHolds s.astat s.cntr w.term = false →
        t.pc = a ∧ t.lpstk = s.lpstk ∧ t.pcstk = s.pcstk) ∧
      (termHolds s.astat s.cntr w.term = true →
        t.pc = inc s.pc ∧ t.lpstk = { s.lpstk with words := ws } ∧
          t.pcstk = { s.pcstk with words := as }) ∧
      (w.term = .ce → s.cntr ≠ 1 →
        t.cntr = s.cntr - 1 ∧ t.cntrValid = s.cntrValid ∧ t.cntstk = s.cntstk) ∧
      (∀ c cs, w.term = .ce → s.cntr = 1 → s.cntstk.words = c :: cs →
        t.cntr = c ∧ t.cntrValid = s.cntrValid ∧ t.cntstk = { s.cntstk with words := cs }) ∧
      (w.term = .ce → s.cntr = 1 → s.cntstk.words = [] → s.cntstk.lost = 0 →
        t.cntr = 0 ∧ t.cntrValid = false ∧ t.cntstk = s.cntstk)) ∧
  ∀ (s : State) (w : LoopWord) (ws : List LoopWord), s.prevKind ≠ .toppcRead →
    s.lpstk.words = w :: ws → w.fin = s.pc →
    (s.cfg.guardLoopBalance = true → s.pcstk.words.length ≠ w.depth →
      exec .nop s = .refused .unbalancedLoop) ∧
    (s.cfg.guardLoopBalance = false ∨ s.pcstk.words.length = w.depth →
      s.cfg.guardInvalidCounter = true → s.cntrValid = false → w.term = .ce →
      exec .nop s = .refused .invalidCounter)

/-! ## Stack control, modes and the global enable -/

/-- The five rows of the stack-control word, with every part a word can hold beside its own
(44_status_mode.md R182 to R185), where each popped stack holds a word; where the count stack holds none see
`Obligations.PopEmptyCountStack`. At a loop end the pops act before the loop end reads the stacks, which
is log entry 18, and POP STS starts the hold-off under RTI_STARTS_HOLDOFF alone (U12, log entry 23). A word
that pops the loop stack just before the last instruction of the loop whose word it pops is refused (R184,
U10). -/
def Obligations.StackControlResult : Prop :=
  (∀ (s : State) (pp cp : Bool) (spp : BitVec 2), s.unguarded →
    (pp = true → s.prevKind ≠ .toppcRead ∧ s.pcstk.words ≠ []) → s.beforeLoopEnd = true →
    ∀ i ∈ stackRows pp true cp spp, exec i s = .refused .popLoopBeforeEnd) ∧
  ∀ (s : State) (pp lp cp : Bool) (spp : BitVec 2), s.unguarded → s.slotFree →
    (pp = true → s.prevKind ≠ .toppcRead) → canPop pp lp cp spp s →
    s.canSequence (stackEffect pp lp cp spp s) →
    (pp = true → ∃ t, SeqNext s (stackEffect pp lp cp spp s) t ∧
      exec (.popPc lp cp spp) s = .next (endOfStep .other t)) ∧
    (lp = true → ∃ t, SeqNext s (stackEffect pp lp cp spp s) t ∧
      exec (.popLoop pp cp spp) s = .next (endOfStep .other t)) ∧
    (cp = true → ∃ t, SeqNext s (stackEffect pp lp cp spp s) t ∧
      exec (.popCntr pp lp spp) s = .next (endOfStep .other t)) ∧
    (spp = 2 → ∃ t, SeqNext s (stackEffect pp lp cp spp s) t ∧
      exec (.pushSts pp lp cp) s = .next (endOfStep .other t)) ∧
    (spp = 3 → ∃ t, SeqNext s (stackEffect pp lp cp spp s) t ∧
      exec (.popSts pp lp cp) s = .next (endOfStep .other t))

/-- A word that pops the count stack while it holds no word goes on, whatever else it says; what CNTR holds
then, and whether it is valid, is open (44_status_mode.md R183, D6; free in the model, log entry 13). The pop
is counted (10_state.md R15). -/
def Obligations.PopEmptyCountStack : Prop :=
  ∀ (s : State) (pp lp : Bool) (spp : BitVec 2), s.unguarded → s.slotFree →
    (pp = true → s.prevKind ≠ .toppcRead) → canPop pp lp false spp s → s.cntstk.words = [] →
    s.canSequence (stackEffect pp lp false spp s) →
    ∃ c v n t, SeqNext s (((((stackEffect pp lp false spp s).setCntstk s.cntstk.popNone).setCntr
        c).setCntrValid v).setFreeTick n) t ∧
      ∀ i ∈ stackRows pp lp true spp, exec i s = .next (endOfStep .other t)

/-- A pop of an empty PC, loop or status stack is refused (10_state.md R14, U1), in every word that says it: the
parts of a stack-control word act in the order PC, loop, count, status stack. So is a loop end that finds the
PC stack empty. -/
def Obligations.EmptyPopsRefused : Prop :=
  ∀ s : State, s.unguarded → s.prevKind = .other →
    (s.pcstk.words = [] →
      exec .rts s = .refused (.emptyStack .pc) ∧ exec .rti s = .refused (.emptyStack .pc) ∧
      (∀ c, condHolds s.astat s.cntr c = true →
        exec (.ifRts c) s = .refused (.emptyStack .pc) ∧
        exec (.ifRti c) s = .refused (.emptyStack .pc)) ∧
      (∀ lp cp spp, ∀ i ∈ stackRows true lp cp spp, exec i s = .refused (.emptyStack .pc)) ∧
      (s.atLoopEnd = true → exec .nop s = .refused (.emptyStack .pc)) ∧
      ∀ r : Reg, r.toppcOk = true → s.atLoopEnd = false → s.beforeLoopEnd = false →
        exec (.fromToppcstack r) s = .refused (.emptyStack .pc)) ∧
    (s.lpstk.words = [] → ∀ pp cp spp, (pp = true → s.pcstk.words ≠ []) →
      ∀ i ∈ stackRows pp true cp spp, exec i s = .refused (.emptyStack .loop)) ∧
    (s.ststk.words = [] → ∀ pp lp cp, canPop pp lp false 0 s →
      ∀ i ∈ stackRows pp lp cp 3, exec i s = .refused (.emptyStack .status)) ∧
    (s.pcstk.words ≠ [] → s.ststk.words = [] → exec .rti s = .refused (.emptyStack .status) ∧
      ∀ c, condHolds s.astat s.cntr c = true → exec (.ifRti c) s = .refused (.emptyStack .status))

/-- ENA INTS and DIS INTS on the members that have them go on in sequence; with INTS_DELAY 0 the new value is
in force at once, with INTS_DELAY 1 the old value at one more boundary and the new one after the next
instruction, if that is no ENA or DIS INTS (U15, log entry 23). On the other members both are refused
(44_status_mode.md R188). -/
def Obligations.GlobalEnableResult : Prop :=
  ∀ s : State, s.unguarded → s.slotFree →
    (hasGlobalInts s.cfg.proc = true → s.canSequence s →
      (∃ t, SeqNext s (s.setInts true (if s.cfg.intsDelayed then s.intsEff else true)
          (if s.cfg.intsDelayed then 2 else 0)) t ∧ exec .enaInts s = .next (endOfStep .other t)) ∧
      (∃ t, SeqNext s (s.setInts false (if s.cfg.intsDelayed then s.intsEff else false)
          (if s.cfg.intsDelayed then 2 else 0)) t ∧ exec .disInts s = .next (endOfStep .other t))) ∧
    (∀ t, exec .enaInts s = .next t → t.intsEnabled = true ∧
      t.intsEff = (if s.cfg.intsDelayed then s.intsEff else true) ∧
      ∀ i u, i.wellFormed = true → Piece.ints ∉ mayWrite i t → exec i t = .next u →
        u.intsEff = true) ∧
    (∀ t, exec .disInts s = .next t → t.intsEnabled = false ∧
      t.intsEff = (if s.cfg.intsDelayed then s.intsEff else false) ∧
      ∀ i u, i.wellFormed = true → Piece.ints ∉ mayWrite i t → exec i t = .next u →
        u.intsEff = false) ∧
    (hasGlobalInts s.cfg.proc = false →
      exec .enaInts s = .refused .noGlobalInts ∧ exec .disInts s = .refused .noGlobalInts)

/-- The fourteen mode-control rows: each mode named is set or cleared, with all the other fields of the
same word, and every other bit of MSTAT stays (44_status_mode.md R186; 10_state.md R32). -/
def Obligations.ModeControlResult : Prop :=
  ∀ f : ModeFields,
    ModeEffect { f with ti := 3 } (.enaTimer f) ∧ ModeEffect { f with ti := 2 } (.disTimer f) ∧
    ModeEffect { f with mm := 3 } (.enaMMode f) ∧ ModeEffect { f with mm := 2 } (.disMMode f) ∧
    ModeEffect { f with as := 3 } (.enaArSat f) ∧ ModeEffect { f with as := 2 } (.disArSat f) ∧
    ModeEffect { f with ol := 3 } (.enaAvLatch f) ∧ ModeEffect { f with ol := 2 } (.disAvLatch f) ∧
    ModeEffect { f with br := 3 } (.enaBitRev f) ∧ ModeEffect { f with br := 2 } (.disBitRev f) ∧
    ModeEffect { f with sr := 3 } (.enaSecReg f) ∧ ModeEffect { f with sr := 2 } (.disSecReg f) ∧
    ModeEffect { f with gm := 3 } (.enaGMode f) ∧ ModeEffect { f with gm := 2 } (.disGMode f)

/-- The bank that instructions reach is the shadow one exactly while MSTAT bit 0 is 1, and the other bank
is out of their reach (10_state.md R33, 44_status_mode.md R187). -/
def Obligations.BankSelect : Prop :=
  ∀ (s : State) (b : Bank),
    (s.mstat.getLsbD 0 = true → s.bank = s.shadow ∧ (s.setBank b).primary = s.primary) ∧
    (s.mstat.getLsbD 0 = false → s.bank = s.primary ∧ (s.setBank b).shadow = s.shadow) ∧
    (s.setBank b).bank = b

/-! ## Moves -/

/-- The moves from the sequencer's registers put their value, zero-extended, into the destination, and
nothing else (44_status_mode.md R171 to R174, R176, R177); from CNTR while it is invalid, some value
(10_state.md R17). -/
def Obligations.MoveFromResult : Prop :=
  ∀ (s : State) (dst : Reg), dst.isPlain = true → s.unguarded → s.slotFree → s.canSequence s →
    (∃ t, SeqNext s (s.writePlain dst (s.astat.setWidth 16)) t ∧
      exec (.fromAstat dst) s = .next (endOfStep .other t)) ∧
    (∃ t, SeqNext s (s.writePlain dst (s.mstat.setWidth 16)) t ∧
      exec (.fromMstat dst) s = .next (endOfStep .other t)) ∧
    (s.prevKind ≠ .toppcRead → ∃ t, SeqNext s (s.writePlain dst (s.sstat.setWidth 16)) t ∧
      exec (.fromSstat dst) s = .next (endOfStep .other t)) ∧
    (∃ t, SeqNext s (s.writePlain dst (s.imask.setWidth 16)) t ∧
      exec (.fromImask dst) s = .next (endOfStep .other t)) ∧
    (∃ t, SeqNext s (s.writePlain dst (icntlRead s.icntl)) t ∧
      exec (.fromIcntl dst) s = .next (endOfStep .other t)) ∧
    (s.cntrValid = true → ∃ t, SeqNext s (s.writePlain dst (s.cntr.setWidth 16)) t ∧
      exec (.fromCntr dst) s = .next (endOfStep .other t)) ∧
    (s.cntrValid = false → ∃ (c : Count) (n : Nat) (t : State),
      SeqNext s ((s.setFreeTick n).writePlain dst (c.setWidth 16)) t ∧
      exec (.fromCntr dst) s = .next (endOfStep .other t))

/-- A move into a register outside the sequencer leaves every other one (10_state.md R33, R40). -/
def Obligations.MoveFromFrame : Prop :=
  ∀ (s t : State) (dst : Reg) (i : Instr), dst.isPlain = true →
    i ∈ [.fromAstat dst, .fromMstat dst, .fromSstat dst, .fromImask dst, .fromIcntl dst,
      .fromCntr dst, .fromToppcstack dst] →
    exec i s = .next t → OthersKept dst s t

/-- The writes of ASTAT and MSTAT take the low 8 and the low 7 bits of the bus (44_status_mode.md R171,
R172). -/
def Obligations.StatusWriteResult : Prop :=
  ∀ s : State, s.unguarded → s.slotFree → s.canSequence s →
    (∀ src : Reg, src.isSource = true → (src = .sstat → s.prevKind ≠ .toppcRead) →
      ∃ v u t t', s.readReg src = .ok (v, u) ∧
        SeqNext s (u.setAstat (v.setWidth 8)) t ∧
        exec (.toAstat src) s = .next (endOfStep .other t) ∧
        SeqNext s (u.setMstat (v.setWidth 7)) t' ∧
        exec (.toMstat src) s = .next (endOfStep .other t')) ∧
    (∀ d : BitVec 14, ∃ t t',
        SeqNext s (s.setAstat (d.setWidth 8)) t ∧
        exec (.astatConst d) s = .next (endOfStep .other t) ∧
        SeqNext s (s.setMstat (d.setWidth 7)) t' ∧
        exec (.mstatConst d) s = .next (endOfStep .other t'))

/-- The writes of IMASK take the low bits of the bus that the member's IMASK has, start the hold-off on the
members that have it, and go on in sequence (44_status_mode.md R177; 60_exceptions.md R258; the widths are in
log entry 22). To unmask a source before an ICNTL of the program is in force is refused
(70_reset_and_hazards.md R296, U2, vector Z4; log entry 46). -/
def Obligations.ImaskWriteResult : Prop :=
  ∀ s : State, s.unguarded → s.slotFree → s.canSequence s →
    (∀ src : Reg, src.isSource = true → (src = .sstat → s.prevKind ≠ .toppcRead) →
      ∃ v u, s.readReg src = .ok (v, u) ∧
        (s.mayUnmask v → ∃ m t,
          (∀ j, m.getLsbD j = (decide (j < wImask s.cfg.proc) && v.getLsbD j)) ∧
          SeqNext s ((u.setImask m).setHoldoff
            (if hasHoldoff s.cfg.proc then 2 else s.imaskHoldoff)) t ∧
          exec (.toImask src) s = .next (endOfStep .other t)) ∧
        (¬ s.mayUnmask v → exec (.toImask src) s = .refused .unmaskBeforeIcntl)) ∧
    (∀ d : BitVec 14,
      (s.mayUnmask (d.setWidth 16) → ∃ m t,
        (∀ j, m.getLsbD j = (decide (j < wImask s.cfg.proc) && d.getLsbD j)) ∧
        SeqNext s ((s.setImask m).setHoldoff
          (if hasHoldoff s.cfg.proc then 2 else s.imaskHoldoff)) t ∧
        exec (.imaskConst d) s = .next (endOfStep .other t)) ∧
      (¬ s.mayUnmask (d.setWidth 16) → exec (.imaskConst d) s = .refused .unmaskBeforeIcntl))

/-- The writes of ICNTL take the low five bits of the bus and keep the configuration in force for one more
boundary (44_status_mode.md R176; 70_reset_and_hazards.md R304). -/
def Obligations.IcntlWriteResult : Prop :=
  ∀ s : State, s.unguarded → s.slotFree → s.canSequence s →
    (∀ src : Reg, src.isSource = true → (src = .sstat → s.prevKind ≠ .toppcRead) →
      ∃ v u t, s.readReg src = .ok (v, u) ∧
        SeqNext s (u.setIcntl (v.setWidth 5) s.icntlEff 2) t ∧
        exec (.toIcntl src) s = .next (endOfStep .other t)) ∧
    (∀ d : BitVec 14, ∃ t, SeqNext s (s.setIcntl (d.setWidth 5) s.icntlEff 2) t ∧
        exec (.icntlConst d) s = .next (endOfStep .other t))

/-- The loads of CNTR push a valid count first and make the counter valid (44_status_mode.md R174,
10_state.md R18); in the last instruction of a CE loop they are refused (U8). -/
def Obligations.CounterLoadResult : Prop :=
  ∀ s : State, s.unguarded → s.slotFree → s.canSequence s →
    (∀ src : Reg, src.isSource = true → (src = .sstat → s.prevKind ≠ .toppcRead) →
      (s.atCeLoopEnd = false → ∃ v u t, s.readReg src = .ok (v, u) ∧
        SeqNext s (((u.setCntstk (if s.cntrValid then s.cntstk.push 4 s.cntr else s.cntstk)).setCntr
          (v.setWidth 14)).setCntrValid true) t ∧
        exec (.toCntr src) s = .next (endOfStep .other t)) ∧
      (s.atCeLoopEnd = true → exec (.toCntr src) s = .refused .cntrAtLoopEnd)) ∧
    (∀ d : BitVec 14,
      (s.atCeLoopEnd = false → ∃ t,
        SeqNext s (((s.setCntstk (if s.cntrValid then s.cntstk.push 4 s.cntr else s.cntstk)).setCntr
          d).setCntrValid true) t ∧
        exec (.cntrConst d) s = .next (endOfStep .other t)) ∧
      (s.atCeLoopEnd = true → exec (.cntrConst d) s = .refused .cntrAtLoopEnd))

/-- The writes of OWRCNTR write the counter and push nothing; in the last instruction of a loop they are
refused; a read of it is (44_status_mode.md R175). -/
def Obligations.CounterOverwriteResult : Prop :=
  ∀ s : State, s.unguarded → s.slotFree → s.readReg .owrcntr = .error .badMove ∧
    (∀ src : Reg, src.isSource = true → (src = .sstat → s.prevKind ≠ .toppcRead) →
      (s.atLoopEnd = false → ∃ v u, s.readReg src = .ok (v, u) ∧
        exec (.toOwrcntr src) s = .next (endOfStep .other
          (((u.setCntr (v.setWidth 14)).setCntrValid true).setPc (inc s.pc)))) ∧
      (s.atLoopEnd = true → exec (.toOwrcntr src) s = .refused .owrcntrAtLoopEnd)) ∧
    (∀ d : BitVec 14,
      (s.atLoopEnd = false → exec (.owrcntrConst d) s = .next (endOfStep .other
          (((s.setCntr d).setCntrValid true).setPc (inc s.pc)))) ∧
      (s.atLoopEnd = true → exec (.owrcntrConst d) s = .refused .owrcntrAtLoopEnd))

/-- The writes of IFC do to the latches what `State.writeIfc` says (44_status_mode.md R178; see
`Obligations.IfcRule`), and are refused with both bits of one source (U14, log entry 34). -/
def Obligations.IfcWriteResult : Prop :=
  ∀ s : State, s.unguarded → s.slotFree → s.canSequence s →
    (∀ src : Reg, src.isSource = true → (src = .sstat → s.prevKind ≠ .toppcRead) →
      ∃ v u, s.readReg src = .ok (v, u) ∧
        (ifcConflict s.cfg.proc v = false → ∃ w t, u.writeIfc v = .ok w ∧ SeqNext s w t ∧
          exec (.toIfc src) s = .next (endOfStep .other t)) ∧
        (ifcConflict s.cfg.proc v = true → exec (.toIfc src) s = .refused .ifcForceAndClear)) ∧
    (∀ d : BitVec 14,
      (ifcConflict s.cfg.proc (d.setWidth 16) = false → ∃ w t,
        s.writeIfc (d.setWidth 16) = .ok w ∧ SeqNext s w t ∧
        exec (.ifcConst d) s = .next (endOfStep .other t)) ∧
      (ifcConflict s.cfg.proc (d.setWidth 16) = true →
        exec (.ifcConst d) s = .refused .ifcForceAndClear))

/-! ## TOPPCSTACK -/

/-- A read of TOPPCSTACK pops the PC stack into the register and marks its slot; in the last and the
last-but-one instruction of a loop it is refused (46_toppcstack.md R221, R227, R229). -/
def Obligations.ToppcReadResult : Prop :=
  ∀ (s : State) (r : Reg), r.toppcOk = true → s.unguarded → s.prevKind ≠ .toppcRead →
    (∀ a as, s.atLoopEnd = false → s.beforeLoopEnd = false → s.pcstk.words = a :: as →
      exec (.fromToppcstack r) s = .next (endOfStep .toppcRead
        (((s.setPcstk { s.pcstk with words := as }).writePlain r (a.setWidth 16)).setPc
          (inc s.pc)))) ∧
    ((s.atLoopEnd || s.beforeLoopEnd) = true →
      exec (.fromToppcstack r) s = .refused .toppcReadNearLoopEnd)

/-- A write of TOPPCSTACK pushes the low 14 bits of the register on the PC stack, and marks its step
(46_toppcstack.md R223, R227). -/
def Obligations.ToppcWriteResult : Prop :=
  ∀ (s : State) (r : Reg), r.toppcOk = true → s.unguarded → s.prevKind ≠ .toppcRead →
    s.canSequence (s.setPcstk (s.pcstk.push 16 ((s.readPlain r).setWidth 14))) →
    ∃ t, SeqNext s (s.setPcstk (s.pcstk.push 16 ((s.readPlain r).setWidth 14))) t ∧
      exec (.toToppcstack r) s = .next (endOfStep .toppcWrite t)

/-- The slot after a TOPPCSTACK move: after a read, everything that touches the PC stack or SSTAT, and
everything at a loop end, is refused (46_toppcstack.md R222); after a write, RTI is (R228). With the guard
of R231 on (D31, vector T11, log entry 17), RTS, RTI and POP PC are refused up to two instructions after
either move. -/
def Obligations.ToppcSlot : Prop :=
  ∀ s : State,
    (s.prevKind = .toppcRead →
      ∀ i : Instr,
        ((∃ a, i = .call a) ∨ (∃ c a, i = .ifCall c a) ∨ (∃ x, i = .callInd x) ∨
          (∃ c x, i = .ifCallInd c x) ∨ (∃ a, i = .flagInCall a) ∨ (∃ a, i = .notFlagInCall a) ∨
          i = .rts ∨ (∃ c, i = .ifRts c) ∨ i = .rti ∨ (∃ c, i = .ifRti c) ∨
          (∃ a t, i = .doUntil a t) ∨ (∃ l c p, i = .popPc l c p) ∨ (∃ r, i = .fromToppcstack r) ∨
          (∃ r, i = .toToppcstack r) ∨ (∃ r, i = .fromSstat r) ∨
          i ∈ [.toAstat .sstat, .toMstat .sstat, .toImask .sstat, .toIcntl .sstat, .toCntr .sstat,
            .toIfc .sstat, .toOwrcntr .sstat] ∨ s.atLoopEnd = true) →
        exec i s = .refused .afterToppcRead) ∧
    (s.prevKind = .toppcWrite →
      exec .rti s = .refused .rtiAfterToppc ∧ ∀ c, exec (.ifRti c) s = .refused .rtiAfterToppc) ∧
    (s.cfg.guardRestriction4 = true →
      (s.prevKind = .toppcWrite ∨ (s.prevKind = .other ∧ s.prev2Kind ≠ .other) →
        exec .rts s = .refused .restriction4 ∧ (∀ c, exec (.ifRts c) s = .refused .restriction4) ∧
        ∀ lp cp spp, ∀ i ∈ stackRows true lp cp spp, exec i s = .refused .restriction4) ∧
      (s.prevKind = .other → s.prev2Kind ≠ .other →
        exec .rti s = .refused .restriction4 ∧ ∀ c, exec (.ifRti c) s = .refused .restriction4))

/-! ## Words beyond the opcode table -/

/-- The words that no row of the table matches. A word that names nothing does what NOP does, which is the
model's reading of 30_encoding.md R78 and R79 and not R84's refusal (log entry 28). The moves and loads of
registers outside the sequencer write their destination alone (44_status_mode.md R170 with D22; the model's
choice, log entry 29). A word outside the spec is refused, or may change ASTAT, the registers outside the
sequencer and the registers of the sequencer that a move can name, and leaves all else as it was
(20_memory.md R62; log entry 30). -/
def Obligations.BeyondTheTable : Prop :=
  ∀ s : State, s.unguarded → s.slotFree → s.canSequence s →
    execBeyond .inert s = exec .nop s ∧
    (∀ dst src : Reg, dst.isPlain = true → src.isPlain = true →
      ∃ t, SeqNext s (s.writePlain dst (s.readPlain src)) t ∧
        execBeyond (.plainMove dst src) s = .next (endOfStep .other t)) ∧
    (∀ (dst : Reg) (data : BitVec 14), dst.isPlain = true →
      ∃ t, SeqNext s (s.writePlain dst (data.setWidth 16)) t ∧
        execBeyond (.plainLoad dst data) s = .next (endOfStep .other t)) ∧
    ∀ w : Insn, (∃ e, execBeyond (.outOfScope w) s = .refused e) ∨
      ∃ t, execBeyond (.outOfScope w) s = .next t ∧
        KeptBut ([.astat, .mstat, .imask, .holdoff, .icntl, .cntr, .cntstk, .req] ++ s.movePieces ++
          s.loopPieces) s t
end

