-- ==== Sys2Proof/Laws/Encoding.lean ====
section
/-! SUPPORT. The codes read back, the fields of every word the encoder builds (30_encoding.md section 2),
and the format that the top byte of a word selects. -/

namespace Sys2Proof

/-! ## Codes -/

theorem ofCode_condCode (c : Cond) : Cond.ofCode c.code = some c := by cases c <;> rfl
theorem ofCode_termCode (t : Term) : Term.ofCode t.code = t := by cases t <;> rfl
theorem ofCode_ixCode (x : IReg) : IReg.ofCode x.code = x := by cases x <;> rfl
theorem ofCode_divCode (n : Divisor) : Divisor.ofCode n.code = some n := by cases n <;> rfl
theorem ofCode_regCode (r : Reg) : Reg.ofCode r.code.1 r.code.2 = some r := by cases r <;> rfl

/-! ## The format of a word -/

/-- The top six and the top four bits are parts of the top byte. -/
theorem top_fields (w : Insn) :
    field w 18 6 = (field w 16 8).extractLsb' 2 6 ∧ field w 20 4 = (field w 16 8).extractLsb' 4 4 := by
  constructor <;> grind

/-- The formats that one top byte selects (30_encoding.md R83). -/
theorem decode_top (w : Insn) :
    (field w 16 8 = 0x03#8 → decode w = decodeFlagIn w) ∧
    (field w 16 8 = 0x04#8 → decode w = decodeStack w) ∧
    (field w 16 8 = 0x0A#8 → decode w = decodeReturn w) ∧
    (field w 16 8 = 0x0B#8 → decode w = decodeIndirect w) ∧
    (field w 16 8 = 0x0C#8 → decode w = decodeMode w) ∧
    (field w 16 8 = 0x0D#8 → decode w = decodeMove w) := by
  obtain ⟨h6, h4⟩ := top_fields w
  unfold decode
  rw [h6, h4]
  refine ⟨?_, ?_, ?_, ?_, ?_, ?_⟩ <;> (intro h; rw [h]; rfl)

/-! ## Fields -/

/-- The fields of a Type 10 word. -/
theorem fields_directWord (s : BitVec 1) (a : Addr) (c : BitVec 4) :
    field (directWord s a c) 18 6 = 0b00011#5 ++ s ∧ field (directWord s a c) 4 14 = a ∧
      field (directWord s a c) 0 4 = c := by
  unfold directWord
  refine ⟨?_, ?_, ?_⟩ <;> grind

/-- The fields of a Type 11 word. -/
theorem fields_doWord (a : Addr) (c : BitVec 4) :
    field (0b000101#6 ++ a ++ c) 18 6 = 0b000101#6 ∧ field (0b000101#6 ++ a ++ c) 4 14 = a ∧
      field (0b000101#6 ++ a ++ c) 0 4 = c := by
  generalize 0b000101#6 = k
  refine ⟨?_, ?_, ?_⟩ <;> grind

/-- The fields of a Type 19 word. -/
theorem fields_indirectWord (x : IReg) (s : BitVec 1) (c : BitVec 4) :
    field (indirectWord x s c) 16 8 = 0x0B#8 ∧ field (indirectWord x s c) 8 8 = 0#8 ∧
      field (indirectWord x s c) 5 1 = 0#1 ∧ field (indirectWord x s c) 6 2 = x.code ∧
      field (indirectWord x s c) 4 1 = s ∧ field (indirectWord x s c) 0 4 = c := by
  unfold indirectWord
  generalize 0x0B#8 = k
  generalize 0#8 = z
  generalize 0#1 = y
  refine ⟨?_, ?_, ?_, ?_, ?_, ?_⟩ <;> grind

/-- The fields of a Type 20 word. -/
theorem fields_returnWord (t : BitVec 1) (c : BitVec 4) :
    field (returnWord t c) 16 8 = 0x0A#8 ∧ field (returnWord t c) 5 11 = 0#11 ∧
      field (returnWord t c) 4 1 = t ∧ field (returnWord t c) 0 4 = c := by
  unfold returnWord
  generalize 0x0A#8 = k
  generalize 0#11 = z
  refine ⟨?_, ?_, ?_, ?_⟩ <;> grind

/-- The fields of a Type 27 word; its address is in two parts. -/
theorem fields_flagInWord (a : Addr) (x y : BitVec 1) :
    field (flagInWord a x y) 16 8 = 0x03#8 ∧
      field (flagInWord a x y) 2 2 ++ field (flagInWord a x y) 4 12 = a ∧
      field (flagInWord a x y) 1 1 = x ∧ field (flagInWord a x y) 0 1 = y := by
  have h : ∀ (k : BitVec 8) (l : BitVec 12) (h : BitVec 2),
      field (k ++ l ++ h ++ x ++ y) 16 8 = k ∧ field (k ++ l ++ h ++ x ++ y) 2 2 = h ∧
        field (k ++ l ++ h ++ x ++ y) 4 12 = l ∧ field (k ++ l ++ h ++ x ++ y) 1 1 = x ∧
        field (k ++ l ++ h ++ x ++ y) 0 1 = y := by
    intro k l h
    refine ⟨?_, ?_, ?_, ?_, ?_⟩ <;> grind
  obtain ⟨h1, h2, h3, h4, h5⟩ := h 0x03#8 (a.extractLsb' 0 12) (a.extractLsb' 12 2)
  unfold flagInWord
  refine ⟨h1, ?_, h4, h5⟩
  rw [h2, h3]
  grind

/-- The fields of a Type 26 word. -/
theorem fields_stackWord (pp lp cp : Bool) (spp : BitVec 2) :
    field (stackWord pp lp cp spp) 16 8 = 0x04#8 ∧ field (stackWord pp lp cp spp) 5 11 = 0#11 ∧
      field (stackWord pp lp cp spp) 4 1 = BitVec.ofBool pp ∧
      field (stackWord pp lp cp spp) 3 1 = BitVec.ofBool lp ∧
      field (stackWord pp lp cp spp) 2 1 = BitVec.ofBool cp ∧
      field (stackWord pp lp cp spp) 0 2 = spp := by
  unfold stackWord
  generalize 0x04#8 = k
  generalize 0#11 = z
  generalize BitVec.ofBool pp = p
  generalize BitVec.ofBool lp = l
  generalize BitVec.ofBool cp = c
  refine ⟨?_, ?_, ?_, ?_, ?_, ?_⟩ <;> grind

/-- The fields of a Type 18 word. -/
theorem fields_modeWord (f : ModeFields) :
    field (modeWord f) 16 8 = 0x0C#8 ∧ field (modeWord f) 0 2 = 0#2 ∧ modeFields (modeWord f) = f := by
  obtain ⟨ti, mm, as, ol, br, sr, gm⟩ := f
  simp only [modeFields, modeWord, ModeFields.mk.injEq]
  generalize 0x0C#8 = k
  generalize 0#2 = z
  have two : ∀ x y : BitVec 2, x.getLsbD 0 = y.getLsbD 0 → x.getLsbD 1 = y.getLsbD 1 → x = y := by
    intro x y h0 h1
    apply BitVec.eq_of_getLsbD_eq
    intro i hi
    obtain rfl | rfl : i = 0 ∨ i = 1 := by omega
    · exact h0
    · exact h1
  refine ⟨?_, ?_, ?_, ?_, ?_, ?_, ?_, ?_, ?_⟩
  · apply BitVec.eq_of_getLsbD_eq
    intro i hi
    simp only [BitVec.getLsbD_extractLsb', BitVec.getLsbD_append, hi]
    grind
  all_goals
    apply two <;> (simp only [BitVec.getLsbD_extractLsb', BitVec.getLsbD_append]; simp)

/-- The fields of a Type 17 word. -/
theorem fields_moveWord (d r : Reg) :
    field (moveWord d r) 16 8 = 0x0D#8 ∧ field (moveWord d r) 12 4 = 0#4 ∧
      field (moveWord d r) 10 2 = d.code.1 ∧ field (moveWord d r) 8 2 = r.code.1 ∧
      field (moveWord d r) 4 4 = d.code.2 ∧ field (moveWord d r) 0 4 = r.code.2 := by
  unfold moveWord
  generalize 0x0D#8 = k
  generalize 0#4 = z
  refine ⟨?_, ?_, ?_, ?_, ?_, ?_⟩ <;> grind

/-- The fields of a Type 7 word. -/
theorem fields_loadWord (d : Reg) (v : BitVec 14) :
    field (loadWord d v) 20 4 = 0b0011#4 ∧ field (loadWord d v) 18 2 = d.code.1 ∧
      field (loadWord d v) 4 14 = v ∧ field (loadWord d v) 0 4 = d.code.2 := by
  unfold loadWord
  generalize 0b0011#4 = k
  refine ⟨?_, ?_, ?_, ?_⟩ <;> grind

end Sys2Proof
end

