-- ==== Sys2Proof/Laws/Exec.lean ====
section
/-! SUPPORT. What `exec` is for each instruction, as a run over the shared operations.
Each holds by definition; a proof rewrites with them and does not unfold a meaning. -/

namespace Sys2Proof.Machine

theorem exec_jump (addr : Addr) (s : State) :
    exec (.jump addr) s = run jumpTraits s (.ok (s, .taken addr)) := rfl

theorem exec_ifJump (c : Cond) (addr : Addr) (s : State) :
    exec (.ifJump c addr) s = run jumpTraits s (jumpIf s c addr) := rfl

theorem exec_call (addr : Addr) (s : State) :
    exec (.call addr) s = run callTraits s (.ok (callTo s addr)) := rfl

theorem exec_ifCall (c : Cond) (addr : Addr) (s : State) :
    exec (.ifCall c addr) s = run callTraits s (callIf s c addr) := rfl

theorem exec_doUntil (fin : Addr) (term : Term) (s : State) :
    exec (.doUntil fin term) s = runSeq { pcStack := true } s (setUpLoop s fin term) := rfl

theorem exec_jumpInd (ix : IReg) (s : State) :
    exec (.jumpInd ix) s = run jumpTraits s (.ok (s, .taken (s.index ix))) := rfl

theorem exec_ifJumpInd (c : Cond) (ix : IReg) (s : State) :
    exec (.ifJumpInd c ix) s = run jumpTraits s (jumpIf s c (s.index ix)) := rfl

theorem exec_callInd (ix : IReg) (s : State) :
    exec (.callInd ix) s = run callTraits s (.ok (callTo s (s.index ix))) := rfl

theorem exec_ifCallInd (c : Cond) (ix : IReg) (s : State) :
    exec (.ifCallInd c ix) s = run callTraits s (callIf s c (s.index ix)) := rfl

theorem exec_rts (s : State) :
    exec .rts s = run rtsTraits s (returnSub s) := rfl

theorem exec_ifRts (c : Cond) (s : State) :
    exec (.ifRts c) s = run rtsTraits s (whenCond s c (returnSub s)) := rfl

theorem exec_rti (s : State) :
    exec .rti s = run rtiTraits s (returnInt s) := rfl

theorem exec_ifRti (c : Cond) (s : State) :
    exec (.ifRti c) s = run rtiTraits s (whenCond s c (returnInt s)) := rfl

theorem exec_flagInJump (addr : Addr) (s : State) :
    exec (.flagInJump addr) s = run jumpTraits s (.ok (flagJump s s.flagIn addr)) := rfl

theorem exec_notFlagInJump (addr : Addr) (s : State) :
    exec (.notFlagInJump addr) s = run jumpTraits s (.ok (flagJump s (!s.flagIn) addr)) := rfl

theorem exec_flagInCall (addr : Addr) (s : State) :
    exec (.flagInCall addr) s = run callTraits s (.ok (flagCall s s.flagIn addr)) := rfl

theorem exec_notFlagInCall (addr : Addr) (s : State) :
    exec (.notFlagInCall addr) s = run callTraits s (.ok (flagCall s (!s.flagIn) addr)) := rfl

theorem exec_nop (s : State) :
    exec .nop s = runSeq {} s (.ok s) := rfl

theorem exec_idle (s : State) :
    exec .idle s = run {} s (.ok (s.setIdleDiv .one, .idle)) := rfl

theorem exec_idleN (n : Divisor) (s : State) :
    exec (.idleN n) s = run {} s (.ok (s.setIdleDiv (.by n), .idle)) := rfl

theorem exec_popPc (lp cp : Bool) (spp : BitVec 2) (s : State) :
    exec (.popPc lp cp spp) s = runStack true lp cp spp s := rfl

theorem exec_popLoop (pp cp : Bool) (spp : BitVec 2) (s : State) :
    exec (.popLoop pp cp spp) s = runStack pp true cp spp s := rfl

theorem exec_popCntr (pp lp : Bool) (spp : BitVec 2) (s : State) :
    exec (.popCntr pp lp spp) s = runStack pp lp true spp s := rfl

theorem exec_pushSts (pp lp cp : Bool) (s : State) :
    exec (.pushSts pp lp cp) s = runStack pp lp cp 2 s := rfl

theorem exec_popSts (pp lp cp : Bool) (s : State) :
    exec (.popSts pp lp cp) s = runStack pp lp cp 3 s := rfl

theorem exec_enaInts (s : State) :
    exec .enaInts s = runSeq {} s (setGlobalInts true s) := rfl

theorem exec_disInts (s : State) :
    exec .disInts s = runSeq {} s (setGlobalInts false s) := rfl

theorem exec_enaTimer (f : ModeFields) (s : State) :
    exec (.enaTimer f) s = runMode { f with ti := 3 } s := rfl

theorem exec_disTimer (f : ModeFields) (s : State) :
    exec (.disTimer f) s = runMode { f with ti := 2 } s := rfl

theorem exec_enaMMode (f : ModeFields) (s : State) :
    exec (.enaMMode f) s = runMode { f with mm := 3 } s := rfl

theorem exec_disMMode (f : ModeFields) (s : State) :
    exec (.disMMode f) s = runMode { f with mm := 2 } s := rfl

theorem exec_enaArSat (f : ModeFields) (s : State) :
    exec (.enaArSat f) s = runMode { f with as := 3 } s := rfl

theorem exec_disArSat (f : ModeFields) (s : State) :
    exec (.disArSat f) s = runMode { f with as := 2 } s := rfl

theorem exec_enaAvLatch (f : ModeFields) (s : State) :
    exec (.enaAvLatch f) s = runMode { f with ol := 3 } s := rfl

theorem exec_disAvLatch (f : ModeFields) (s : State) :
    exec (.disAvLatch f) s = runMode { f with ol := 2 } s := rfl

theorem exec_enaBitRev (f : ModeFields) (s : State) :
    exec (.enaBitRev f) s = runMode { f with br := 3 } s := rfl

theorem exec_disBitRev (f : ModeFields) (s : State) :
    exec (.disBitRev f) s = runMode { f with br := 2 } s := rfl

theorem exec_enaSecReg (f : ModeFields) (s : State) :
    exec (.enaSecReg f) s = runMode { f with sr := 3 } s := rfl

theorem exec_disSecReg (f : ModeFields) (s : State) :
    exec (.disSecReg f) s = runMode { f with sr := 2 } s := rfl

theorem exec_enaGMode (f : ModeFields) (s : State) :
    exec (.enaGMode f) s = runMode { f with gm := 3 } s := rfl

theorem exec_disGMode (f : ModeFields) (s : State) :
    exec (.disGMode f) s = runMode { f with gm := 2 } s := rfl

theorem exec_fromAstat (dst : Reg) (s : State) :
    exec (.fromAstat dst) s = runMove dst .astat s := rfl

theorem exec_toAstat (src : Reg) (s : State) :
    exec (.toAstat src) s = runMove .astat src s := rfl

theorem exec_fromMstat (dst : Reg) (s : State) :
    exec (.fromMstat dst) s = runMove dst .mstat s := rfl

theorem exec_toMstat (src : Reg) (s : State) :
    exec (.toMstat src) s = runMove .mstat src s := rfl

theorem exec_fromSstat (dst : Reg) (s : State) :
    exec (.fromSstat dst) s = runMove dst .sstat s := rfl

theorem exec_fromImask (dst : Reg) (s : State) :
    exec (.fromImask dst) s = runMove dst .imask s := rfl

theorem exec_toImask (src : Reg) (s : State) :
    exec (.toImask src) s = runMove .imask src s := rfl

theorem exec_fromIcntl (dst : Reg) (s : State) :
    exec (.fromIcntl dst) s = runMove dst .icntl s := rfl

theorem exec_toIcntl (src : Reg) (s : State) :
    exec (.toIcntl src) s = runMove .icntl src s := rfl

theorem exec_fromCntr (dst : Reg) (s : State) :
    exec (.fromCntr dst) s = runMove dst .cntr s := rfl

theorem exec_toCntr (src : Reg) (s : State) :
    exec (.toCntr src) s = runMove .cntr src s := rfl

theorem exec_toIfc (src : Reg) (s : State) :
    exec (.toIfc src) s = runMove .ifc src s := rfl

theorem exec_toOwrcntr (src : Reg) (s : State) :
    exec (.toOwrcntr src) s = runMove .owrcntr src s := rfl

theorem exec_fromToppcstack (dst : Reg) (s : State) :
    exec (.fromToppcstack dst) s =
      runSeq { pcStack := true, kind := .toppcRead } s (readToppc dst s) := rfl

theorem exec_toToppcstack (src : Reg) (s : State) :
    exec (.toToppcstack src) s =
      runSeq { pcStack := true, kind := .toppcWrite } s (writeToppc src s) := rfl

theorem exec_astatConst (data : BitVec 14) (s : State) :
    exec (.astatConst data) s = runLoad .astat data s := rfl

theorem exec_mstatConst (data : BitVec 14) (s : State) :
    exec (.mstatConst data) s = runLoad .mstat data s := rfl

theorem exec_imaskConst (data : BitVec 14) (s : State) :
    exec (.imaskConst data) s = runLoad .imask data s := rfl

theorem exec_icntlConst (data : BitVec 14) (s : State) :
    exec (.icntlConst data) s = runLoad .icntl data s := rfl

theorem exec_cntrConst (data : BitVec 14) (s : State) :
    exec (.cntrConst data) s = runLoad .cntr data s := rfl

theorem exec_ifcConst (data : BitVec 14) (s : State) :
    exec (.ifcConst data) s = runLoad .ifc data s := rfl

theorem exec_owrcntrConst (data : BitVec 14) (s : State) :
    exec (.owrcntrConst data) s = runLoad .owrcntr data s := rfl

end Sys2Proof.Machine
end

