-- ==== Sys2Proof/Laws/State.lean ====
section
/-! SUPPORT. What each update of the state leaves in each field: one lemma per field per update, so that
no later proof unfolds a record update. -/

namespace Sys2Proof.Machine

section setPc
variable (s : State) (v : Addr)

@[simp] theorem State.setPc_pc : (s.setPc v).pc = v := rfl
@[simp] theorem State.setPc_pcstk : (s.setPc v).pcstk = s.pcstk := rfl
@[simp] theorem State.setPc_cntstk : (s.setPc v).cntstk = s.cntstk := rfl
@[simp] theorem State.setPc_lpstk : (s.setPc v).lpstk = s.lpstk := rfl
@[simp] theorem State.setPc_ststk : (s.setPc v).ststk = s.ststk := rfl
@[simp] theorem State.setPc_cntr : (s.setPc v).cntr = s.cntr := rfl
@[simp] theorem State.setPc_cntrValid : (s.setPc v).cntrValid = s.cntrValid := rfl
@[simp] theorem State.setPc_astat : (s.setPc v).astat = s.astat := rfl
@[simp] theorem State.setPc_mstat : (s.setPc v).mstat = s.mstat := rfl
@[simp] theorem State.setPc_icntl : (s.setPc v).icntl = s.icntl := rfl
@[simp] theorem State.setPc_imask : (s.setPc v).imask = s.imask := rfl
@[simp] theorem State.setPc_intsEnabled : (s.setPc v).intsEnabled = s.intsEnabled := rfl
@[simp] theorem State.setPc_req : (s.setPc v).req = s.req := rfl
@[simp] theorem State.setPc_idle : (s.setPc v).idle = s.idle := rfl
@[simp] theorem State.setPc_idleDiv : (s.setPc v).idleDiv = s.idleDiv := rfl
@[simp] theorem State.setPc_imaskHoldoff : (s.setPc v).imaskHoldoff = s.imaskHoldoff := rfl
@[simp] theorem State.setPc_icntlOld : (s.setPc v).icntlOld = s.icntlOld := rfl
@[simp] theorem State.setPc_icntlDelay : (s.setPc v).icntlDelay = s.icntlDelay := rfl
@[simp] theorem State.setPc_icntlKnown : (s.setPc v).icntlKnown = s.icntlKnown := rfl
@[simp] theorem State.setPc_intsOld : (s.setPc v).intsOld = s.intsOld := rfl
@[simp] theorem State.setPc_intsDelay : (s.setPc v).intsDelay = s.intsDelay := rfl
@[simp] theorem State.setPc_prevKind : (s.setPc v).prevKind = s.prevKind := rfl
@[simp] theorem State.setPc_prev2Kind : (s.setPc v).prev2Kind = s.prev2Kind := rfl
@[simp] theorem State.setPc_primary : (s.setPc v).primary = s.primary := rfl
@[simp] theorem State.setPc_shadow : (s.setPc v).shadow = s.shadow := rfl
@[simp] theorem State.setPc_dag : (s.setPc v).dag = s.dag := rfl
@[simp] theorem State.setPc_ports : (s.setPc v).ports = s.ports := rfl
@[simp] theorem State.setPc_pm : (s.setPc v).pm = s.pm := rfl
@[simp] theorem State.setPc_pmStored : (s.setPc v).pmStored = s.pmStored := rfl
@[simp] theorem State.setPc_pins : (s.setPc v).pins = s.pins := rfl
@[simp] theorem State.setPc_flagIn : (s.setPc v).flagIn = s.flagIn := rfl
@[simp] theorem State.setPc_inputs : (s.setPc v).inputs = s.inputs := rfl
@[simp] theorem State.setPc_cfg : (s.setPc v).cfg = s.cfg := rfl
@[simp] theorem State.setPc_freeTick : (s.setPc v).freeTick = s.freeTick := rfl

end setPc

section setPcstk
variable (s : State) (v : Stack Addr)

@[simp] theorem State.setPcstk_pc : (s.setPcstk v).pc = s.pc := rfl
@[simp] theorem State.setPcstk_pcstk : (s.setPcstk v).pcstk = v := rfl
@[simp] theorem State.setPcstk_cntstk : (s.setPcstk v).cntstk = s.cntstk := rfl
@[simp] theorem State.setPcstk_lpstk : (s.setPcstk v).lpstk = s.lpstk := rfl
@[simp] theorem State.setPcstk_ststk : (s.setPcstk v).ststk = s.ststk := rfl
@[simp] theorem State.setPcstk_cntr : (s.setPcstk v).cntr = s.cntr := rfl
@[simp] theorem State.setPcstk_cntrValid : (s.setPcstk v).cntrValid = s.cntrValid := rfl
@[simp] theorem State.setPcstk_astat : (s.setPcstk v).astat = s.astat := rfl
@[simp] theorem State.setPcstk_mstat : (s.setPcstk v).mstat = s.mstat := rfl
@[simp] theorem State.setPcstk_icntl : (s.setPcstk v).icntl = s.icntl := rfl
@[simp] theorem State.setPcstk_imask : (s.setPcstk v).imask = s.imask := rfl
@[simp] theorem State.setPcstk_intsEnabled : (s.setPcstk v).intsEnabled = s.intsEnabled := rfl
@[simp] theorem State.setPcstk_req : (s.setPcstk v).req = s.req := rfl
@[simp] theorem State.setPcstk_idle : (s.setPcstk v).idle = s.idle := rfl
@[simp] theorem State.setPcstk_idleDiv : (s.setPcstk v).idleDiv = s.idleDiv := rfl
@[simp] theorem State.setPcstk_imaskHoldoff : (s.setPcstk v).imaskHoldoff = s.imaskHoldoff := rfl
@[simp] theorem State.setPcstk_icntlOld : (s.setPcstk v).icntlOld = s.icntlOld := rfl
@[simp] theorem State.setPcstk_icntlDelay : (s.setPcstk v).icntlDelay = s.icntlDelay := rfl
@[simp] theorem State.setPcstk_icntlKnown : (s.setPcstk v).icntlKnown = s.icntlKnown := rfl
@[simp] theorem State.setPcstk_intsOld : (s.setPcstk v).intsOld = s.intsOld := rfl
@[simp] theorem State.setPcstk_intsDelay : (s.setPcstk v).intsDelay = s.intsDelay := rfl
@[simp] theorem State.setPcstk_prevKind : (s.setPcstk v).prevKind = s.prevKind := rfl
@[simp] theorem State.setPcstk_prev2Kind : (s.setPcstk v).prev2Kind = s.prev2Kind := rfl
@[simp] theorem State.setPcstk_primary : (s.setPcstk v).primary = s.primary := rfl
@[simp] theorem State.setPcstk_shadow : (s.setPcstk v).shadow = s.shadow := rfl
@[simp] theorem State.setPcstk_dag : (s.setPcstk v).dag = s.dag := rfl
@[simp] theorem State.setPcstk_ports : (s.setPcstk v).ports = s.ports := rfl
@[simp] theorem State.setPcstk_pm : (s.setPcstk v).pm = s.pm := rfl
@[simp] theorem State.setPcstk_pmStored : (s.setPcstk v).pmStored = s.pmStored := rfl
@[simp] theorem State.setPcstk_pins : (s.setPcstk v).pins = s.pins := rfl
@[simp] theorem State.setPcstk_flagIn : (s.setPcstk v).flagIn = s.flagIn := rfl
@[simp] theorem State.setPcstk_inputs : (s.setPcstk v).inputs = s.inputs := rfl
@[simp] theorem State.setPcstk_cfg : (s.setPcstk v).cfg = s.cfg := rfl
@[simp] theorem State.setPcstk_freeTick : (s.setPcstk v).freeTick = s.freeTick := rfl

end setPcstk

section setCntstk
variable (s : State) (v : Stack Count)

@[simp] theorem State.setCntstk_pc : (s.setCntstk v).pc = s.pc := rfl
@[simp] theorem State.setCntstk_pcstk : (s.setCntstk v).pcstk = s.pcstk := rfl
@[simp] theorem State.setCntstk_cntstk : (s.setCntstk v).cntstk = v := rfl
@[simp] theorem State.setCntstk_lpstk : (s.setCntstk v).lpstk = s.lpstk := rfl
@[simp] theorem State.setCntstk_ststk : (s.setCntstk v).ststk = s.ststk := rfl
@[simp] theorem State.setCntstk_cntr : (s.setCntstk v).cntr = s.cntr := rfl
@[simp] theorem State.setCntstk_cntrValid : (s.setCntstk v).cntrValid = s.cntrValid := rfl
@[simp] theorem State.setCntstk_astat : (s.setCntstk v).astat = s.astat := rfl
@[simp] theorem State.setCntstk_mstat : (s.setCntstk v).mstat = s.mstat := rfl
@[simp] theorem State.setCntstk_icntl : (s.setCntstk v).icntl = s.icntl := rfl
@[simp] theorem State.setCntstk_imask : (s.setCntstk v).imask = s.imask := rfl
@[simp] theorem State.setCntstk_intsEnabled : (s.setCntstk v).intsEnabled = s.intsEnabled := rfl
@[simp] theorem State.setCntstk_req : (s.setCntstk v).req = s.req := rfl
@[simp] theorem State.setCntstk_idle : (s.setCntstk v).idle = s.idle := rfl
@[simp] theorem State.setCntstk_idleDiv : (s.setCntstk v).idleDiv = s.idleDiv := rfl
@[simp] theorem State.setCntstk_imaskHoldoff : (s.setCntstk v).imaskHoldoff = s.imaskHoldoff := rfl
@[simp] theorem State.setCntstk_icntlOld : (s.setCntstk v).icntlOld = s.icntlOld := rfl
@[simp] theorem State.setCntstk_icntlDelay : (s.setCntstk v).icntlDelay = s.icntlDelay := rfl
@[simp] theorem State.setCntstk_icntlKnown : (s.setCntstk v).icntlKnown = s.icntlKnown := rfl
@[simp] theorem State.setCntstk_intsOld : (s.setCntstk v).intsOld = s.intsOld := rfl
@[simp] theorem State.setCntstk_intsDelay : (s.setCntstk v).intsDelay = s.intsDelay := rfl
@[simp] theorem State.setCntstk_prevKind : (s.setCntstk v).prevKind = s.prevKind := rfl
@[simp] theorem State.setCntstk_prev2Kind : (s.setCntstk v).prev2Kind = s.prev2Kind := rfl
@[simp] theorem State.setCntstk_primary : (s.setCntstk v).primary = s.primary := rfl
@[simp] theorem State.setCntstk_shadow : (s.setCntstk v).shadow = s.shadow := rfl
@[simp] theorem State.setCntstk_dag : (s.setCntstk v).dag = s.dag := rfl
@[simp] theorem State.setCntstk_ports : (s.setCntstk v).ports = s.ports := rfl
@[simp] theorem State.setCntstk_pm : (s.setCntstk v).pm = s.pm := rfl
@[simp] theorem State.setCntstk_pmStored : (s.setCntstk v).pmStored = s.pmStored := rfl
@[simp] theorem State.setCntstk_pins : (s.setCntstk v).pins = s.pins := rfl
@[simp] theorem State.setCntstk_flagIn : (s.setCntstk v).flagIn = s.flagIn := rfl
@[simp] theorem State.setCntstk_inputs : (s.setCntstk v).inputs = s.inputs := rfl
@[simp] theorem State.setCntstk_cfg : (s.setCntstk v).cfg = s.cfg := rfl
@[simp] theorem State.setCntstk_freeTick : (s.setCntstk v).freeTick = s.freeTick := rfl

end setCntstk

section setLpstk
variable (s : State) (v : Stack LoopWord)

@[simp] theorem State.setLpstk_pc : (s.setLpstk v).pc = s.pc := rfl
@[simp] theorem State.setLpstk_pcstk : (s.setLpstk v).pcstk = s.pcstk := rfl
@[simp] theorem State.setLpstk_cntstk : (s.setLpstk v).cntstk = s.cntstk := rfl
@[simp] theorem State.setLpstk_lpstk : (s.setLpstk v).lpstk = v := rfl
@[simp] theorem State.setLpstk_ststk : (s.setLpstk v).ststk = s.ststk := rfl
@[simp] theorem State.setLpstk_cntr : (s.setLpstk v).cntr = s.cntr := rfl
@[simp] theorem State.setLpstk_cntrValid : (s.setLpstk v).cntrValid = s.cntrValid := rfl
@[simp] theorem State.setLpstk_astat : (s.setLpstk v).astat = s.astat := rfl
@[simp] theorem State.setLpstk_mstat : (s.setLpstk v).mstat = s.mstat := rfl
@[simp] theorem State.setLpstk_icntl : (s.setLpstk v).icntl = s.icntl := rfl
@[simp] theorem State.setLpstk_imask : (s.setLpstk v).imask = s.imask := rfl
@[simp] theorem State.setLpstk_intsEnabled : (s.setLpstk v).intsEnabled = s.intsEnabled := rfl
@[simp] theorem State.setLpstk_req : (s.setLpstk v).req = s.req := rfl
@[simp] theorem State.setLpstk_idle : (s.setLpstk v).idle = s.idle := rfl
@[simp] theorem State.setLpstk_idleDiv : (s.setLpstk v).idleDiv = s.idleDiv := rfl
@[simp] theorem State.setLpstk_imaskHoldoff : (s.setLpstk v).imaskHoldoff = s.imaskHoldoff := rfl
@[simp] theorem State.setLpstk_icntlOld : (s.setLpstk v).icntlOld = s.icntlOld := rfl
@[simp] theorem State.setLpstk_icntlDelay : (s.setLpstk v).icntlDelay = s.icntlDelay := rfl
@[simp] theorem State.setLpstk_icntlKnown : (s.setLpstk v).icntlKnown = s.icntlKnown := rfl
@[simp] theorem State.setLpstk_intsOld : (s.setLpstk v).intsOld = s.intsOld := rfl
@[simp] theorem State.setLpstk_intsDelay : (s.setLpstk v).intsDelay = s.intsDelay := rfl
@[simp] theorem State.setLpstk_prevKind : (s.setLpstk v).prevKind = s.prevKind := rfl
@[simp] theorem State.setLpstk_prev2Kind : (s.setLpstk v).prev2Kind = s.prev2Kind := rfl
@[simp] theorem State.setLpstk_primary : (s.setLpstk v).primary = s.primary := rfl
@[simp] theorem State.setLpstk_shadow : (s.setLpstk v).shadow = s.shadow := rfl
@[simp] theorem State.setLpstk_dag : (s.setLpstk v).dag = s.dag := rfl
@[simp] theorem State.setLpstk_ports : (s.setLpstk v).ports = s.ports := rfl
@[simp] theorem State.setLpstk_pm : (s.setLpstk v).pm = s.pm := rfl
@[simp] theorem State.setLpstk_pmStored : (s.setLpstk v).pmStored = s.pmStored := rfl
@[simp] theorem State.setLpstk_pins : (s.setLpstk v).pins = s.pins := rfl
@[simp] theorem State.setLpstk_flagIn : (s.setLpstk v).flagIn = s.flagIn := rfl
@[simp] theorem State.setLpstk_inputs : (s.setLpstk v).inputs = s.inputs := rfl
@[simp] theorem State.setLpstk_cfg : (s.setLpstk v).cfg = s.cfg := rfl
@[simp] theorem State.setLpstk_freeTick : (s.setLpstk v).freeTick = s.freeTick := rfl

end setLpstk

section setStstk
variable (s : State) (v : Stack StatusWord)

@[simp] theorem State.setStstk_pc : (s.setStstk v).pc = s.pc := rfl
@[simp] theorem State.setStstk_pcstk : (s.setStstk v).pcstk = s.pcstk := rfl
@[simp] theorem State.setStstk_cntstk : (s.setStstk v).cntstk = s.cntstk := rfl
@[simp] theorem State.setStstk_lpstk : (s.setStstk v).lpstk = s.lpstk := rfl
@[simp] theorem State.setStstk_ststk : (s.setStstk v).ststk = v := rfl
@[simp] theorem State.setStstk_cntr : (s.setStstk v).cntr = s.cntr := rfl
@[simp] theorem State.setStstk_cntrValid : (s.setStstk v).cntrValid = s.cntrValid := rfl
@[simp] theorem State.setStstk_astat : (s.setStstk v).astat = s.astat := rfl
@[simp] theorem State.setStstk_mstat : (s.setStstk v).mstat = s.mstat := rfl
@[simp] theorem State.setStstk_icntl : (s.setStstk v).icntl = s.icntl := rfl
@[simp] theorem State.setStstk_imask : (s.setStstk v).imask = s.imask := rfl
@[simp] theorem State.setStstk_intsEnabled : (s.setStstk v).intsEnabled = s.intsEnabled := rfl
@[simp] theorem State.setStstk_req : (s.setStstk v).req = s.req := rfl
@[simp] theorem State.setStstk_idle : (s.setStstk v).idle = s.idle := rfl
@[simp] theorem State.setStstk_idleDiv : (s.setStstk v).idleDiv = s.idleDiv := rfl
@[simp] theorem State.setStstk_imaskHoldoff : (s.setStstk v).imaskHoldoff = s.imaskHoldoff := rfl
@[simp] theorem State.setStstk_icntlOld : (s.setStstk v).icntlOld = s.icntlOld := rfl
@[simp] theorem State.setStstk_icntlDelay : (s.setStstk v).icntlDelay = s.icntlDelay := rfl
@[simp] theorem State.setStstk_icntlKnown : (s.setStstk v).icntlKnown = s.icntlKnown := rfl
@[simp] theorem State.setStstk_intsOld : (s.setStstk v).intsOld = s.intsOld := rfl
@[simp] theorem State.setStstk_intsDelay : (s.setStstk v).intsDelay = s.intsDelay := rfl
@[simp] theorem State.setStstk_prevKind : (s.setStstk v).prevKind = s.prevKind := rfl
@[simp] theorem State.setStstk_prev2Kind : (s.setStstk v).prev2Kind = s.prev2Kind := rfl
@[simp] theorem State.setStstk_primary : (s.setStstk v).primary = s.primary := rfl
@[simp] theorem State.setStstk_shadow : (s.setStstk v).shadow = s.shadow := rfl
@[simp] theorem State.setStstk_dag : (s.setStstk v).dag = s.dag := rfl
@[simp] theorem State.setStstk_ports : (s.setStstk v).ports = s.ports := rfl
@[simp] theorem State.setStstk_pm : (s.setStstk v).pm = s.pm := rfl
@[simp] theorem State.setStstk_pmStored : (s.setStstk v).pmStored = s.pmStored := rfl
@[simp] theorem State.setStstk_pins : (s.setStstk v).pins = s.pins := rfl
@[simp] theorem State.setStstk_flagIn : (s.setStstk v).flagIn = s.flagIn := rfl
@[simp] theorem State.setStstk_inputs : (s.setStstk v).inputs = s.inputs := rfl
@[simp] theorem State.setStstk_cfg : (s.setStstk v).cfg = s.cfg := rfl
@[simp] theorem State.setStstk_freeTick : (s.setStstk v).freeTick = s.freeTick := rfl

end setStstk

section setCntr
variable (s : State) (v : Count)

@[simp] theorem State.setCntr_pc : (s.setCntr v).pc = s.pc := rfl
@[simp] theorem State.setCntr_pcstk : (s.setCntr v).pcstk = s.pcstk := rfl
@[simp] theorem State.setCntr_cntstk : (s.setCntr v).cntstk = s.cntstk := rfl
@[simp] theorem State.setCntr_lpstk : (s.setCntr v).lpstk = s.lpstk := rfl
@[simp] theorem State.setCntr_ststk : (s.setCntr v).ststk = s.ststk := rfl
@[simp] theorem State.setCntr_cntr : (s.setCntr v).cntr = v := rfl
@[simp] theorem State.setCntr_cntrValid : (s.setCntr v).cntrValid = s.cntrValid := rfl
@[simp] theorem State.setCntr_astat : (s.setCntr v).astat = s.astat := rfl
@[simp] theorem State.setCntr_mstat : (s.setCntr v).mstat = s.mstat := rfl
@[simp] theorem State.setCntr_icntl : (s.setCntr v).icntl = s.icntl := rfl
@[simp] theorem State.setCntr_imask : (s.setCntr v).imask = s.imask := rfl
@[simp] theorem State.setCntr_intsEnabled : (s.setCntr v).intsEnabled = s.intsEnabled := rfl
@[simp] theorem State.setCntr_req : (s.setCntr v).req = s.req := rfl
@[simp] theorem State.setCntr_idle : (s.setCntr v).idle = s.idle := rfl
@[simp] theorem State.setCntr_idleDiv : (s.setCntr v).idleDiv = s.idleDiv := rfl
@[simp] theorem State.setCntr_imaskHoldoff : (s.setCntr v).imaskHoldoff = s.imaskHoldoff := rfl
@[simp] theorem State.setCntr_icntlOld : (s.setCntr v).icntlOld = s.icntlOld := rfl
@[simp] theorem State.setCntr_icntlDelay : (s.setCntr v).icntlDelay = s.icntlDelay := rfl
@[simp] theorem State.setCntr_icntlKnown : (s.setCntr v).icntlKnown = s.icntlKnown := rfl
@[simp] theorem State.setCntr_intsOld : (s.setCntr v).intsOld = s.intsOld := rfl
@[simp] theorem State.setCntr_intsDelay : (s.setCntr v).intsDelay = s.intsDelay := rfl
@[simp] theorem State.setCntr_prevKind : (s.setCntr v).prevKind = s.prevKind := rfl
@[simp] theorem State.setCntr_prev2Kind : (s.setCntr v).prev2Kind = s.prev2Kind := rfl
@[simp] theorem State.setCntr_primary : (s.setCntr v).primary = s.primary := rfl
@[simp] theorem State.setCntr_shadow : (s.setCntr v).shadow = s.shadow := rfl
@[simp] theorem State.setCntr_dag : (s.setCntr v).dag = s.dag := rfl
@[simp] theorem State.setCntr_ports : (s.setCntr v).ports = s.ports := rfl
@[simp] theorem State.setCntr_pm : (s.setCntr v).pm = s.pm := rfl
@[simp] theorem State.setCntr_pmStored : (s.setCntr v).pmStored = s.pmStored := rfl
@[simp] theorem State.setCntr_pins : (s.setCntr v).pins = s.pins := rfl
@[simp] theorem State.setCntr_flagIn : (s.setCntr v).flagIn = s.flagIn := rfl
@[simp] theorem State.setCntr_inputs : (s.setCntr v).inputs = s.inputs := rfl
@[simp] theorem State.setCntr_cfg : (s.setCntr v).cfg = s.cfg := rfl
@[simp] theorem State.setCntr_freeTick : (s.setCntr v).freeTick = s.freeTick := rfl

end setCntr

section setCntrValid
variable (s : State) (v : Bool)

@[simp] theorem State.setCntrValid_pc : (s.setCntrValid v).pc = s.pc := rfl
@[simp] theorem State.setCntrValid_pcstk : (s.setCntrValid v).pcstk = s.pcstk := rfl
@[simp] theorem State.setCntrValid_cntstk : (s.setCntrValid v).cntstk = s.cntstk := rfl
@[simp] theorem State.setCntrValid_lpstk : (s.setCntrValid v).lpstk = s.lpstk := rfl
@[simp] theorem State.setCntrValid_ststk : (s.setCntrValid v).ststk = s.ststk := rfl
@[simp] theorem State.setCntrValid_cntr : (s.setCntrValid v).cntr = s.cntr := rfl
@[simp] theorem State.setCntrValid_cntrValid : (s.setCntrValid v).cntrValid = v := rfl
@[simp] theorem State.setCntrValid_astat : (s.setCntrValid v).astat = s.astat := rfl
@[simp] theorem State.setCntrValid_mstat : (s.setCntrValid v).mstat = s.mstat := rfl
@[simp] theorem State.setCntrValid_icntl : (s.setCntrValid v).icntl = s.icntl := rfl
@[simp] theorem State.setCntrValid_imask : (s.setCntrValid v).imask = s.imask := rfl
@[simp] theorem State.setCntrValid_intsEnabled : (s.setCntrValid v).intsEnabled = s.intsEnabled := rfl
@[simp] theorem State.setCntrValid_req : (s.setCntrValid v).req = s.req := rfl
@[simp] theorem State.setCntrValid_idle : (s.setCntrValid v).idle = s.idle := rfl
@[simp] theorem State.setCntrValid_idleDiv : (s.setCntrValid v).idleDiv = s.idleDiv := rfl
@[simp] theorem State.setCntrValid_imaskHoldoff : (s.setCntrValid v).imaskHoldoff = s.imaskHoldoff := rfl
@[simp] theorem State.setCntrValid_icntlOld : (s.setCntrValid v).icntlOld = s.icntlOld := rfl
@[simp] theorem State.setCntrValid_icntlDelay : (s.setCntrValid v).icntlDelay = s.icntlDelay := rfl
@[simp] theorem State.setCntrValid_icntlKnown : (s.setCntrValid v).icntlKnown = s.icntlKnown := rfl
@[simp] theorem State.setCntrValid_intsOld : (s.setCntrValid v).intsOld = s.intsOld := rfl
@[simp] theorem State.setCntrValid_intsDelay : (s.setCntrValid v).intsDelay = s.intsDelay := rfl
@[simp] theorem State.setCntrValid_prevKind : (s.setCntrValid v).prevKind = s.prevKind := rfl
@[simp] theorem State.setCntrValid_prev2Kind : (s.setCntrValid v).prev2Kind = s.prev2Kind := rfl
@[simp] theorem State.setCntrValid_primary : (s.setCntrValid v).primary = s.primary := rfl
@[simp] theorem State.setCntrValid_shadow : (s.setCntrValid v).shadow = s.shadow := rfl
@[simp] theorem State.setCntrValid_dag : (s.setCntrValid v).dag = s.dag := rfl
@[simp] theorem State.setCntrValid_ports : (s.setCntrValid v).ports = s.ports := rfl
@[simp] theorem State.setCntrValid_pm : (s.setCntrValid v).pm = s.pm := rfl
@[simp] theorem State.setCntrValid_pmStored : (s.setCntrValid v).pmStored = s.pmStored := rfl
@[simp] theorem State.setCntrValid_pins : (s.setCntrValid v).pins = s.pins := rfl
@[simp] theorem State.setCntrValid_flagIn : (s.setCntrValid v).flagIn = s.flagIn := rfl
@[simp] theorem State.setCntrValid_inputs : (s.setCntrValid v).inputs = s.inputs := rfl
@[simp] theorem State.setCntrValid_cfg : (s.setCntrValid v).cfg = s.cfg := rfl
@[simp] theorem State.setCntrValid_freeTick : (s.setCntrValid v).freeTick = s.freeTick := rfl

end setCntrValid

section setAstat
variable (s : State) (v : BitVec 8)

@[simp] theorem State.setAstat_pc : (s.setAstat v).pc = s.pc := rfl
@[simp] theorem State.setAstat_pcstk : (s.setAstat v).pcstk = s.pcstk := rfl
@[simp] theorem State.setAstat_cntstk : (s.setAstat v).cntstk = s.cntstk := rfl
@[simp] theorem State.setAstat_lpstk : (s.setAstat v).lpstk = s.lpstk := rfl
@[simp] theorem State.setAstat_ststk : (s.setAstat v).ststk = s.ststk := rfl
@[simp] theorem State.setAstat_cntr : (s.setAstat v).cntr = s.cntr := rfl
@[simp] theorem State.setAstat_cntrValid : (s.setAstat v).cntrValid = s.cntrValid := rfl
@[simp] theorem State.setAstat_astat : (s.setAstat v).astat = v := rfl
@[simp] theorem State.setAstat_mstat : (s.setAstat v).mstat = s.mstat := rfl
@[simp] theorem State.setAstat_icntl : (s.setAstat v).icntl = s.icntl := rfl
@[simp] theorem State.setAstat_imask : (s.setAstat v).imask = s.imask := rfl
@[simp] theorem State.setAstat_intsEnabled : (s.setAstat v).intsEnabled = s.intsEnabled := rfl
@[simp] theorem State.setAstat_req : (s.setAstat v).req = s.req := rfl
@[simp] theorem State.setAstat_idle : (s.setAstat v).idle = s.idle := rfl
@[simp] theorem State.setAstat_idleDiv : (s.setAstat v).idleDiv = s.idleDiv := rfl
@[simp] theorem State.setAstat_imaskHoldoff : (s.setAstat v).imaskHoldoff = s.imaskHoldoff := rfl
@[simp] theorem State.setAstat_icntlOld : (s.setAstat v).icntlOld = s.icntlOld := rfl
@[simp] theorem State.setAstat_icntlDelay : (s.setAstat v).icntlDelay = s.icntlDelay := rfl
@[simp] theorem State.setAstat_icntlKnown : (s.setAstat v).icntlKnown = s.icntlKnown := rfl
@[simp] theorem State.setAstat_intsOld : (s.setAstat v).intsOld = s.intsOld := rfl
@[simp] theorem State.setAstat_intsDelay : (s.setAstat v).intsDelay = s.intsDelay := rfl
@[simp] theorem State.setAstat_prevKind : (s.setAstat v).prevKind = s.prevKind := rfl
@[simp] theorem State.setAstat_prev2Kind : (s.setAstat v).prev2Kind = s.prev2Kind := rfl
@[simp] theorem State.setAstat_primary : (s.setAstat v).primary = s.primary := rfl
@[simp] theorem State.setAstat_shadow : (s.setAstat v).shadow = s.shadow := rfl
@[simp] theorem State.setAstat_dag : (s.setAstat v).dag = s.dag := rfl
@[simp] theorem State.setAstat_ports : (s.setAstat v).ports = s.ports := rfl
@[simp] theorem State.setAstat_pm : (s.setAstat v).pm = s.pm := rfl
@[simp] theorem State.setAstat_pmStored : (s.setAstat v).pmStored = s.pmStored := rfl
@[simp] theorem State.setAstat_pins : (s.setAstat v).pins = s.pins := rfl
@[simp] theorem State.setAstat_flagIn : (s.setAstat v).flagIn = s.flagIn := rfl
@[simp] theorem State.setAstat_inputs : (s.setAstat v).inputs = s.inputs := rfl
@[simp] theorem State.setAstat_cfg : (s.setAstat v).cfg = s.cfg := rfl
@[simp] theorem State.setAstat_freeTick : (s.setAstat v).freeTick = s.freeTick := rfl

end setAstat

section setMstat
variable (s : State) (v : BitVec 7)

@[simp] theorem State.setMstat_pc : (s.setMstat v).pc = s.pc := rfl
@[simp] theorem State.setMstat_pcstk : (s.setMstat v).pcstk = s.pcstk := rfl
@[simp] theorem State.setMstat_cntstk : (s.setMstat v).cntstk = s.cntstk := rfl
@[simp] theorem State.setMstat_lpstk : (s.setMstat v).lpstk = s.lpstk := rfl
@[simp] theorem State.setMstat_ststk : (s.setMstat v).ststk = s.ststk := rfl
@[simp] theorem State.setMstat_cntr : (s.setMstat v).cntr = s.cntr := rfl
@[simp] theorem State.setMstat_cntrValid : (s.setMstat v).cntrValid = s.cntrValid := rfl
@[simp] theorem State.setMstat_astat : (s.setMstat v).astat = s.astat := rfl
@[simp] theorem State.setMstat_mstat : (s.setMstat v).mstat = v := rfl
@[simp] theorem State.setMstat_icntl : (s.setMstat v).icntl = s.icntl := rfl
@[simp] theorem State.setMstat_imask : (s.setMstat v).imask = s.imask := rfl
@[simp] theorem State.setMstat_intsEnabled : (s.setMstat v).intsEnabled = s.intsEnabled := rfl
@[simp] theorem State.setMstat_req : (s.setMstat v).req = s.req := rfl
@[simp] theorem State.setMstat_idle : (s.setMstat v).idle = s.idle := rfl
@[simp] theorem State.setMstat_idleDiv : (s.setMstat v).idleDiv = s.idleDiv := rfl
@[simp] theorem State.setMstat_imaskHoldoff : (s.setMstat v).imaskHoldoff = s.imaskHoldoff := rfl
@[simp] theorem State.setMstat_icntlOld : (s.setMstat v).icntlOld = s.icntlOld := rfl
@[simp] theorem State.setMstat_icntlDelay : (s.setMstat v).icntlDelay = s.icntlDelay := rfl
@[simp] theorem State.setMstat_icntlKnown : (s.setMstat v).icntlKnown = s.icntlKnown := rfl
@[simp] theorem State.setMstat_intsOld : (s.setMstat v).intsOld = s.intsOld := rfl
@[simp] theorem State.setMstat_intsDelay : (s.setMstat v).intsDelay = s.intsDelay := rfl
@[simp] theorem State.setMstat_prevKind : (s.setMstat v).prevKind = s.prevKind := rfl
@[simp] theorem State.setMstat_prev2Kind : (s.setMstat v).prev2Kind = s.prev2Kind := rfl
@[simp] theorem State.setMstat_primary : (s.setMstat v).primary = s.primary := rfl
@[simp] theorem State.setMstat_shadow : (s.setMstat v).shadow = s.shadow := rfl
@[simp] theorem State.setMstat_dag : (s.setMstat v).dag = s.dag := rfl
@[simp] theorem State.setMstat_ports : (s.setMstat v).ports = s.ports := rfl
@[simp] theorem State.setMstat_pm : (s.setMstat v).pm = s.pm := rfl
@[simp] theorem State.setMstat_pmStored : (s.setMstat v).pmStored = s.pmStored := rfl
@[simp] theorem State.setMstat_pins : (s.setMstat v).pins = s.pins := rfl
@[simp] theorem State.setMstat_flagIn : (s.setMstat v).flagIn = s.flagIn := rfl
@[simp] theorem State.setMstat_inputs : (s.setMstat v).inputs = s.inputs := rfl
@[simp] theorem State.setMstat_cfg : (s.setMstat v).cfg = s.cfg := rfl
@[simp] theorem State.setMstat_freeTick : (s.setMstat v).freeTick = s.freeTick := rfl

end setMstat

section setIcntl
variable (s : State) (v : BitVec 5) (w : BitVec 5) (x : Nat)

@[simp] theorem State.setIcntl_pc : (s.setIcntl v w x).pc = s.pc := rfl
@[simp] theorem State.setIcntl_pcstk : (s.setIcntl v w x).pcstk = s.pcstk := rfl
@[simp] theorem State.setIcntl_cntstk : (s.setIcntl v w x).cntstk = s.cntstk := rfl
@[simp] theorem State.setIcntl_lpstk : (s.setIcntl v w x).lpstk = s.lpstk := rfl
@[simp] theorem State.setIcntl_ststk : (s.setIcntl v w x).ststk = s.ststk := rfl
@[simp] theorem State.setIcntl_cntr : (s.setIcntl v w x).cntr = s.cntr := rfl
@[simp] theorem State.setIcntl_cntrValid : (s.setIcntl v w x).cntrValid = s.cntrValid := rfl
@[simp] theorem State.setIcntl_astat : (s.setIcntl v w x).astat = s.astat := rfl
@[simp] theorem State.setIcntl_mstat : (s.setIcntl v w x).mstat = s.mstat := rfl
@[simp] theorem State.setIcntl_icntl : (s.setIcntl v w x).icntl = v := rfl
@[simp] theorem State.setIcntl_imask : (s.setIcntl v w x).imask = s.imask := rfl
@[simp] theorem State.setIcntl_intsEnabled : (s.setIcntl v w x).intsEnabled = s.intsEnabled := rfl
@[simp] theorem State.setIcntl_req : (s.setIcntl v w x).req = s.req := rfl
@[simp] theorem State.setIcntl_idle : (s.setIcntl v w x).idle = s.idle := rfl
@[simp] theorem State.setIcntl_idleDiv : (s.setIcntl v w x).idleDiv = s.idleDiv := rfl
@[simp] theorem State.setIcntl_imaskHoldoff : (s.setIcntl v w x).imaskHoldoff = s.imaskHoldoff := rfl
@[simp] theorem State.setIcntl_icntlOld : (s.setIcntl v w x).icntlOld = w := rfl
@[simp] theorem State.setIcntl_icntlDelay : (s.setIcntl v w x).icntlDelay = x := rfl
@[simp] theorem State.setIcntl_icntlKnown : (s.setIcntl v w x).icntlKnown = s.icntlKnown := rfl
@[simp] theorem State.setIcntl_intsOld : (s.setIcntl v w x).intsOld = s.intsOld := rfl
@[simp] theorem State.setIcntl_intsDelay : (s.setIcntl v w x).intsDelay = s.intsDelay := rfl
@[simp] theorem State.setIcntl_prevKind : (s.setIcntl v w x).prevKind = s.prevKind := rfl
@[simp] theorem State.setIcntl_prev2Kind : (s.setIcntl v w x).prev2Kind = s.prev2Kind := rfl
@[simp] theorem State.setIcntl_primary : (s.setIcntl v w x).primary = s.primary := rfl
@[simp] theorem State.setIcntl_shadow : (s.setIcntl v w x).shadow = s.shadow := rfl
@[simp] theorem State.setIcntl_dag : (s.setIcntl v w x).dag = s.dag := rfl
@[simp] theorem State.setIcntl_ports : (s.setIcntl v w x).ports = s.ports := rfl
@[simp] theorem State.setIcntl_pm : (s.setIcntl v w x).pm = s.pm := rfl
@[simp] theorem State.setIcntl_pmStored : (s.setIcntl v w x).pmStored = s.pmStored := rfl
@[simp] theorem State.setIcntl_pins : (s.setIcntl v w x).pins = s.pins := rfl
@[simp] theorem State.setIcntl_flagIn : (s.setIcntl v w x).flagIn = s.flagIn := rfl
@[simp] theorem State.setIcntl_inputs : (s.setIcntl v w x).inputs = s.inputs := rfl
@[simp] theorem State.setIcntl_cfg : (s.setIcntl v w x).cfg = s.cfg := rfl
@[simp] theorem State.setIcntl_freeTick : (s.setIcntl v w x).freeTick = s.freeTick := rfl

end setIcntl

section setImask
variable (s : State) (v : BitVec 10)

@[simp] theorem State.setImask_pc : (s.setImask v).pc = s.pc := rfl
@[simp] theorem State.setImask_pcstk : (s.setImask v).pcstk = s.pcstk := rfl
@[simp] theorem State.setImask_cntstk : (s.setImask v).cntstk = s.cntstk := rfl
@[simp] theorem State.setImask_lpstk : (s.setImask v).lpstk = s.lpstk := rfl
@[simp] theorem State.setImask_ststk : (s.setImask v).ststk = s.ststk := rfl
@[simp] theorem State.setImask_cntr : (s.setImask v).cntr = s.cntr := rfl
@[simp] theorem State.setImask_cntrValid : (s.setImask v).cntrValid = s.cntrValid := rfl
@[simp] theorem State.setImask_astat : (s.setImask v).astat = s.astat := rfl
@[simp] theorem State.setImask_mstat : (s.setImask v).mstat = s.mstat := rfl
@[simp] theorem State.setImask_icntl : (s.setImask v).icntl = s.icntl := rfl
@[simp] theorem State.setImask_imask : (s.setImask v).imask = v := rfl
@[simp] theorem State.setImask_intsEnabled : (s.setImask v).intsEnabled = s.intsEnabled := rfl
@[simp] theorem State.setImask_req : (s.setImask v).req = s.req := rfl
@[simp] theorem State.setImask_idle : (s.setImask v).idle = s.idle := rfl
@[simp] theorem State.setImask_idleDiv : (s.setImask v).idleDiv = s.idleDiv := rfl
@[simp] theorem State.setImask_imaskHoldoff : (s.setImask v).imaskHoldoff = s.imaskHoldoff := rfl
@[simp] theorem State.setImask_icntlOld : (s.setImask v).icntlOld = s.icntlOld := rfl
@[simp] theorem State.setImask_icntlDelay : (s.setImask v).icntlDelay = s.icntlDelay := rfl
@[simp] theorem State.setImask_icntlKnown : (s.setImask v).icntlKnown = s.icntlKnown := rfl
@[simp] theorem State.setImask_intsOld : (s.setImask v).intsOld = s.intsOld := rfl
@[simp] theorem State.setImask_intsDelay : (s.setImask v).intsDelay = s.intsDelay := rfl
@[simp] theorem State.setImask_prevKind : (s.setImask v).prevKind = s.prevKind := rfl
@[simp] theorem State.setImask_prev2Kind : (s.setImask v).prev2Kind = s.prev2Kind := rfl
@[simp] theorem State.setImask_primary : (s.setImask v).primary = s.primary := rfl
@[simp] theorem State.setImask_shadow : (s.setImask v).shadow = s.shadow := rfl
@[simp] theorem State.setImask_dag : (s.setImask v).dag = s.dag := rfl
@[simp] theorem State.setImask_ports : (s.setImask v).ports = s.ports := rfl
@[simp] theorem State.setImask_pm : (s.setImask v).pm = s.pm := rfl
@[simp] theorem State.setImask_pmStored : (s.setImask v).pmStored = s.pmStored := rfl
@[simp] theorem State.setImask_pins : (s.setImask v).pins = s.pins := rfl
@[simp] theorem State.setImask_flagIn : (s.setImask v).flagIn = s.flagIn := rfl
@[simp] theorem State.setImask_inputs : (s.setImask v).inputs = s.inputs := rfl
@[simp] theorem State.setImask_cfg : (s.setImask v).cfg = s.cfg := rfl
@[simp] theorem State.setImask_freeTick : (s.setImask v).freeTick = s.freeTick := rfl

end setImask

section setHoldoff
variable (s : State) (v : Nat)

@[simp] theorem State.setHoldoff_pc : (s.setHoldoff v).pc = s.pc := rfl
@[simp] theorem State.setHoldoff_pcstk : (s.setHoldoff v).pcstk = s.pcstk := rfl
@[simp] theorem State.setHoldoff_cntstk : (s.setHoldoff v).cntstk = s.cntstk := rfl
@[simp] theorem State.setHoldoff_lpstk : (s.setHoldoff v).lpstk = s.lpstk := rfl
@[simp] theorem State.setHoldoff_ststk : (s.setHoldoff v).ststk = s.ststk := rfl
@[simp] theorem State.setHoldoff_cntr : (s.setHoldoff v).cntr = s.cntr := rfl
@[simp] theorem State.setHoldoff_cntrValid : (s.setHoldoff v).cntrValid = s.cntrValid := rfl
@[simp] theorem State.setHoldoff_astat : (s.setHoldoff v).astat = s.astat := rfl
@[simp] theorem State.setHoldoff_mstat : (s.setHoldoff v).mstat = s.mstat := rfl
@[simp] theorem State.setHoldoff_icntl : (s.setHoldoff v).icntl = s.icntl := rfl
@[simp] theorem State.setHoldoff_imask : (s.setHoldoff v).imask = s.imask := rfl
@[simp] theorem State.setHoldoff_intsEnabled : (s.setHoldoff v).intsEnabled = s.intsEnabled := rfl
@[simp] theorem State.setHoldoff_req : (s.setHoldoff v).req = s.req := rfl
@[simp] theorem State.setHoldoff_idle : (s.setHoldoff v).idle = s.idle := rfl
@[simp] theorem State.setHoldoff_idleDiv : (s.setHoldoff v).idleDiv = s.idleDiv := rfl
@[simp] theorem State.setHoldoff_imaskHoldoff : (s.setHoldoff v).imaskHoldoff = v := rfl
@[simp] theorem State.setHoldoff_icntlOld : (s.setHoldoff v).icntlOld = s.icntlOld := rfl
@[simp] theorem State.setHoldoff_icntlDelay : (s.setHoldoff v).icntlDelay = s.icntlDelay := rfl
@[simp] theorem State.setHoldoff_icntlKnown : (s.setHoldoff v).icntlKnown = s.icntlKnown := rfl
@[simp] theorem State.setHoldoff_intsOld : (s.setHoldoff v).intsOld = s.intsOld := rfl
@[simp] theorem State.setHoldoff_intsDelay : (s.setHoldoff v).intsDelay = s.intsDelay := rfl
@[simp] theorem State.setHoldoff_prevKind : (s.setHoldoff v).prevKind = s.prevKind := rfl
@[simp] theorem State.setHoldoff_prev2Kind : (s.setHoldoff v).prev2Kind = s.prev2Kind := rfl
@[simp] theorem State.setHoldoff_primary : (s.setHoldoff v).primary = s.primary := rfl
@[simp] theorem State.setHoldoff_shadow : (s.setHoldoff v).shadow = s.shadow := rfl
@[simp] theorem State.setHoldoff_dag : (s.setHoldoff v).dag = s.dag := rfl
@[simp] theorem State.setHoldoff_ports : (s.setHoldoff v).ports = s.ports := rfl
@[simp] theorem State.setHoldoff_pm : (s.setHoldoff v).pm = s.pm := rfl
@[simp] theorem State.setHoldoff_pmStored : (s.setHoldoff v).pmStored = s.pmStored := rfl
@[simp] theorem State.setHoldoff_pins : (s.setHoldoff v).pins = s.pins := rfl
@[simp] theorem State.setHoldoff_flagIn : (s.setHoldoff v).flagIn = s.flagIn := rfl
@[simp] theorem State.setHoldoff_inputs : (s.setHoldoff v).inputs = s.inputs := rfl
@[simp] theorem State.setHoldoff_cfg : (s.setHoldoff v).cfg = s.cfg := rfl
@[simp] theorem State.setHoldoff_freeTick : (s.setHoldoff v).freeTick = s.freeTick := rfl

end setHoldoff

section setInts
variable (s : State) (v : Bool) (w : Bool) (x : Nat)

@[simp] theorem State.setInts_pc : (s.setInts v w x).pc = s.pc := rfl
@[simp] theorem State.setInts_pcstk : (s.setInts v w x).pcstk = s.pcstk := rfl
@[simp] theorem State.setInts_cntstk : (s.setInts v w x).cntstk = s.cntstk := rfl
@[simp] theorem State.setInts_lpstk : (s.setInts v w x).lpstk = s.lpstk := rfl
@[simp] theorem State.setInts_ststk : (s.setInts v w x).ststk = s.ststk := rfl
@[simp] theorem State.setInts_cntr : (s.setInts v w x).cntr = s.cntr := rfl
@[simp] theorem State.setInts_cntrValid : (s.setInts v w x).cntrValid = s.cntrValid := rfl
@[simp] theorem State.setInts_astat : (s.setInts v w x).astat = s.astat := rfl
@[simp] theorem State.setInts_mstat : (s.setInts v w x).mstat = s.mstat := rfl
@[simp] theorem State.setInts_icntl : (s.setInts v w x).icntl = s.icntl := rfl
@[simp] theorem State.setInts_imask : (s.setInts v w x).imask = s.imask := rfl
@[simp] theorem State.setInts_intsEnabled : (s.setInts v w x).intsEnabled = v := rfl
@[simp] theorem State.setInts_req : (s.setInts v w x).req = s.req := rfl
@[simp] theorem State.setInts_idle : (s.setInts v w x).idle = s.idle := rfl
@[simp] theorem State.setInts_idleDiv : (s.setInts v w x).idleDiv = s.idleDiv := rfl
@[simp] theorem State.setInts_imaskHoldoff : (s.setInts v w x).imaskHoldoff = s.imaskHoldoff := rfl
@[simp] theorem State.setInts_icntlOld : (s.setInts v w x).icntlOld = s.icntlOld := rfl
@[simp] theorem State.setInts_icntlDelay : (s.setInts v w x).icntlDelay = s.icntlDelay := rfl
@[simp] theorem State.setInts_icntlKnown : (s.setInts v w x).icntlKnown = s.icntlKnown := rfl
@[simp] theorem State.setInts_intsOld : (s.setInts v w x).intsOld = w := rfl
@[simp] theorem State.setInts_intsDelay : (s.setInts v w x).intsDelay = x := rfl
@[simp] theorem State.setInts_prevKind : (s.setInts v w x).prevKind = s.prevKind := rfl
@[simp] theorem State.setInts_prev2Kind : (s.setInts v w x).prev2Kind = s.prev2Kind := rfl
@[simp] theorem State.setInts_primary : (s.setInts v w x).primary = s.primary := rfl
@[simp] theorem State.setInts_shadow : (s.setInts v w x).shadow = s.shadow := rfl
@[simp] theorem State.setInts_dag : (s.setInts v w x).dag = s.dag := rfl
@[simp] theorem State.setInts_ports : (s.setInts v w x).ports = s.ports := rfl
@[simp] theorem State.setInts_pm : (s.setInts v w x).pm = s.pm := rfl
@[simp] theorem State.setInts_pmStored : (s.setInts v w x).pmStored = s.pmStored := rfl
@[simp] theorem State.setInts_pins : (s.setInts v w x).pins = s.pins := rfl
@[simp] theorem State.setInts_flagIn : (s.setInts v w x).flagIn = s.flagIn := rfl
@[simp] theorem State.setInts_inputs : (s.setInts v w x).inputs = s.inputs := rfl
@[simp] theorem State.setInts_cfg : (s.setInts v w x).cfg = s.cfg := rfl
@[simp] theorem State.setInts_freeTick : (s.setInts v w x).freeTick = s.freeTick := rfl

end setInts

section setReq
variable (s : State) (v : SourceBits)

@[simp] theorem State.setReq_pc : (s.setReq v).pc = s.pc := rfl
@[simp] theorem State.setReq_pcstk : (s.setReq v).pcstk = s.pcstk := rfl
@[simp] theorem State.setReq_cntstk : (s.setReq v).cntstk = s.cntstk := rfl
@[simp] theorem State.setReq_lpstk : (s.setReq v).lpstk = s.lpstk := rfl
@[simp] theorem State.setReq_ststk : (s.setReq v).ststk = s.ststk := rfl
@[simp] theorem State.setReq_cntr : (s.setReq v).cntr = s.cntr := rfl
@[simp] theorem State.setReq_cntrValid : (s.setReq v).cntrValid = s.cntrValid := rfl
@[simp] theorem State.setReq_astat : (s.setReq v).astat = s.astat := rfl
@[simp] theorem State.setReq_mstat : (s.setReq v).mstat = s.mstat := rfl
@[simp] theorem State.setReq_icntl : (s.setReq v).icntl = s.icntl := rfl
@[simp] theorem State.setReq_imask : (s.setReq v).imask = s.imask := rfl
@[simp] theorem State.setReq_intsEnabled : (s.setReq v).intsEnabled = s.intsEnabled := rfl
@[simp] theorem State.setReq_req : (s.setReq v).req = v := rfl
@[simp] theorem State.setReq_idle : (s.setReq v).idle = s.idle := rfl
@[simp] theorem State.setReq_idleDiv : (s.setReq v).idleDiv = s.idleDiv := rfl
@[simp] theorem State.setReq_imaskHoldoff : (s.setReq v).imaskHoldoff = s.imaskHoldoff := rfl
@[simp] theorem State.setReq_icntlOld : (s.setReq v).icntlOld = s.icntlOld := rfl
@[simp] theorem State.setReq_icntlDelay : (s.setReq v).icntlDelay = s.icntlDelay := rfl
@[simp] theorem State.setReq_icntlKnown : (s.setReq v).icntlKnown = s.icntlKnown := rfl
@[simp] theorem State.setReq_intsOld : (s.setReq v).intsOld = s.intsOld := rfl
@[simp] theorem State.setReq_intsDelay : (s.setReq v).intsDelay = s.intsDelay := rfl
@[simp] theorem State.setReq_prevKind : (s.setReq v).prevKind = s.prevKind := rfl
@[simp] theorem State.setReq_prev2Kind : (s.setReq v).prev2Kind = s.prev2Kind := rfl
@[simp] theorem State.setReq_primary : (s.setReq v).primary = s.primary := rfl
@[simp] theorem State.setReq_shadow : (s.setReq v).shadow = s.shadow := rfl
@[simp] theorem State.setReq_dag : (s.setReq v).dag = s.dag := rfl
@[simp] theorem State.setReq_ports : (s.setReq v).ports = s.ports := rfl
@[simp] theorem State.setReq_pm : (s.setReq v).pm = s.pm := rfl
@[simp] theorem State.setReq_pmStored : (s.setReq v).pmStored = s.pmStored := rfl
@[simp] theorem State.setReq_pins : (s.setReq v).pins = s.pins := rfl
@[simp] theorem State.setReq_flagIn : (s.setReq v).flagIn = s.flagIn := rfl
@[simp] theorem State.setReq_inputs : (s.setReq v).inputs = s.inputs := rfl
@[simp] theorem State.setReq_cfg : (s.setReq v).cfg = s.cfg := rfl
@[simp] theorem State.setReq_freeTick : (s.setReq v).freeTick = s.freeTick := rfl

end setReq

section setIdle
variable (s : State) (v : Bool)

@[simp] theorem State.setIdle_pc : (s.setIdle v).pc = s.pc := rfl
@[simp] theorem State.setIdle_pcstk : (s.setIdle v).pcstk = s.pcstk := rfl
@[simp] theorem State.setIdle_cntstk : (s.setIdle v).cntstk = s.cntstk := rfl
@[simp] theorem State.setIdle_lpstk : (s.setIdle v).lpstk = s.lpstk := rfl
@[simp] theorem State.setIdle_ststk : (s.setIdle v).ststk = s.ststk := rfl
@[simp] theorem State.setIdle_cntr : (s.setIdle v).cntr = s.cntr := rfl
@[simp] theorem State.setIdle_cntrValid : (s.setIdle v).cntrValid = s.cntrValid := rfl
@[simp] theorem State.setIdle_astat : (s.setIdle v).astat = s.astat := rfl
@[simp] theorem State.setIdle_mstat : (s.setIdle v).mstat = s.mstat := rfl
@[simp] theorem State.setIdle_icntl : (s.setIdle v).icntl = s.icntl := rfl
@[simp] theorem State.setIdle_imask : (s.setIdle v).imask = s.imask := rfl
@[simp] theorem State.setIdle_intsEnabled : (s.setIdle v).intsEnabled = s.intsEnabled := rfl
@[simp] theorem State.setIdle_req : (s.setIdle v).req = s.req := rfl
@[simp] theorem State.setIdle_idle : (s.setIdle v).idle = v := rfl
@[simp] theorem State.setIdle_idleDiv : (s.setIdle v).idleDiv = s.idleDiv := rfl
@[simp] theorem State.setIdle_imaskHoldoff : (s.setIdle v).imaskHoldoff = s.imaskHoldoff := rfl
@[simp] theorem State.setIdle_icntlOld : (s.setIdle v).icntlOld = s.icntlOld := rfl
@[simp] theorem State.setIdle_icntlDelay : (s.setIdle v).icntlDelay = s.icntlDelay := rfl
@[simp] theorem State.setIdle_icntlKnown : (s.setIdle v).icntlKnown = s.icntlKnown := rfl
@[simp] theorem State.setIdle_intsOld : (s.setIdle v).intsOld = s.intsOld := rfl
@[simp] theorem State.setIdle_intsDelay : (s.setIdle v).intsDelay = s.intsDelay := rfl
@[simp] theorem State.setIdle_prevKind : (s.setIdle v).prevKind = s.prevKind := rfl
@[simp] theorem State.setIdle_prev2Kind : (s.setIdle v).prev2Kind = s.prev2Kind := rfl
@[simp] theorem State.setIdle_primary : (s.setIdle v).primary = s.primary := rfl
@[simp] theorem State.setIdle_shadow : (s.setIdle v).shadow = s.shadow := rfl
@[simp] theorem State.setIdle_dag : (s.setIdle v).dag = s.dag := rfl
@[simp] theorem State.setIdle_ports : (s.setIdle v).ports = s.ports := rfl
@[simp] theorem State.setIdle_pm : (s.setIdle v).pm = s.pm := rfl
@[simp] theorem State.setIdle_pmStored : (s.setIdle v).pmStored = s.pmStored := rfl
@[simp] theorem State.setIdle_pins : (s.setIdle v).pins = s.pins := rfl
@[simp] theorem State.setIdle_flagIn : (s.setIdle v).flagIn = s.flagIn := rfl
@[simp] theorem State.setIdle_inputs : (s.setIdle v).inputs = s.inputs := rfl
@[simp] theorem State.setIdle_cfg : (s.setIdle v).cfg = s.cfg := rfl
@[simp] theorem State.setIdle_freeTick : (s.setIdle v).freeTick = s.freeTick := rfl

end setIdle

section setIdleDiv
variable (s : State) (v : IdleDiv)

@[simp] theorem State.setIdleDiv_pc : (s.setIdleDiv v).pc = s.pc := rfl
@[simp] theorem State.setIdleDiv_pcstk : (s.setIdleDiv v).pcstk = s.pcstk := rfl
@[simp] theorem State.setIdleDiv_cntstk : (s.setIdleDiv v).cntstk = s.cntstk := rfl
@[simp] theorem State.setIdleDiv_lpstk : (s.setIdleDiv v).lpstk = s.lpstk := rfl
@[simp] theorem State.setIdleDiv_ststk : (s.setIdleDiv v).ststk = s.ststk := rfl
@[simp] theorem State.setIdleDiv_cntr : (s.setIdleDiv v).cntr = s.cntr := rfl
@[simp] theorem State.setIdleDiv_cntrValid : (s.setIdleDiv v).cntrValid = s.cntrValid := rfl
@[simp] theorem State.setIdleDiv_astat : (s.setIdleDiv v).astat = s.astat := rfl
@[simp] theorem State.setIdleDiv_mstat : (s.setIdleDiv v).mstat = s.mstat := rfl
@[simp] theorem State.setIdleDiv_icntl : (s.setIdleDiv v).icntl = s.icntl := rfl
@[simp] theorem State.setIdleDiv_imask : (s.setIdleDiv v).imask = s.imask := rfl
@[simp] theorem State.setIdleDiv_intsEnabled : (s.setIdleDiv v).intsEnabled = s.intsEnabled := rfl
@[simp] theorem State.setIdleDiv_req : (s.setIdleDiv v).req = s.req := rfl
@[simp] theorem State.setIdleDiv_idle : (s.setIdleDiv v).idle = s.idle := rfl
@[simp] theorem State.setIdleDiv_idleDiv : (s.setIdleDiv v).idleDiv = v := rfl
@[simp] theorem State.setIdleDiv_imaskHoldoff : (s.setIdleDiv v).imaskHoldoff = s.imaskHoldoff := rfl
@[simp] theorem State.setIdleDiv_icntlOld : (s.setIdleDiv v).icntlOld = s.icntlOld := rfl
@[simp] theorem State.setIdleDiv_icntlDelay : (s.setIdleDiv v).icntlDelay = s.icntlDelay := rfl
@[simp] theorem State.setIdleDiv_icntlKnown : (s.setIdleDiv v).icntlKnown = s.icntlKnown := rfl
@[simp] theorem State.setIdleDiv_intsOld : (s.setIdleDiv v).intsOld = s.intsOld := rfl
@[simp] theorem State.setIdleDiv_intsDelay : (s.setIdleDiv v).intsDelay = s.intsDelay := rfl
@[simp] theorem State.setIdleDiv_prevKind : (s.setIdleDiv v).prevKind = s.prevKind := rfl
@[simp] theorem State.setIdleDiv_prev2Kind : (s.setIdleDiv v).prev2Kind = s.prev2Kind := rfl
@[simp] theorem State.setIdleDiv_primary : (s.setIdleDiv v).primary = s.primary := rfl
@[simp] theorem State.setIdleDiv_shadow : (s.setIdleDiv v).shadow = s.shadow := rfl
@[simp] theorem State.setIdleDiv_dag : (s.setIdleDiv v).dag = s.dag := rfl
@[simp] theorem State.setIdleDiv_ports : (s.setIdleDiv v).ports = s.ports := rfl
@[simp] theorem State.setIdleDiv_pm : (s.setIdleDiv v).pm = s.pm := rfl
@[simp] theorem State.setIdleDiv_pmStored : (s.setIdleDiv v).pmStored = s.pmStored := rfl
@[simp] theorem State.setIdleDiv_pins : (s.setIdleDiv v).pins = s.pins := rfl
@[simp] theorem State.setIdleDiv_flagIn : (s.setIdleDiv v).flagIn = s.flagIn := rfl
@[simp] theorem State.setIdleDiv_inputs : (s.setIdleDiv v).inputs = s.inputs := rfl
@[simp] theorem State.setIdleDiv_cfg : (s.setIdleDiv v).cfg = s.cfg := rfl
@[simp] theorem State.setIdleDiv_freeTick : (s.setIdleDiv v).freeTick = s.freeTick := rfl

end setIdleDiv

section setKinds
variable (s : State) (v : Kind) (w : Kind)

@[simp] theorem State.setKinds_pc : (s.setKinds v w).pc = s.pc := rfl
@[simp] theorem State.setKinds_pcstk : (s.setKinds v w).pcstk = s.pcstk := rfl
@[simp] theorem State.setKinds_cntstk : (s.setKinds v w).cntstk = s.cntstk := rfl
@[simp] theorem State.setKinds_lpstk : (s.setKinds v w).lpstk = s.lpstk := rfl
@[simp] theorem State.setKinds_ststk : (s.setKinds v w).ststk = s.ststk := rfl
@[simp] theorem State.setKinds_cntr : (s.setKinds v w).cntr = s.cntr := rfl
@[simp] theorem State.setKinds_cntrValid : (s.setKinds v w).cntrValid = s.cntrValid := rfl
@[simp] theorem State.setKinds_astat : (s.setKinds v w).astat = s.astat := rfl
@[simp] theorem State.setKinds_mstat : (s.setKinds v w).mstat = s.mstat := rfl
@[simp] theorem State.setKinds_icntl : (s.setKinds v w).icntl = s.icntl := rfl
@[simp] theorem State.setKinds_imask : (s.setKinds v w).imask = s.imask := rfl
@[simp] theorem State.setKinds_intsEnabled : (s.setKinds v w).intsEnabled = s.intsEnabled := rfl
@[simp] theorem State.setKinds_req : (s.setKinds v w).req = s.req := rfl
@[simp] theorem State.setKinds_idle : (s.setKinds v w).idle = s.idle := rfl
@[simp] theorem State.setKinds_idleDiv : (s.setKinds v w).idleDiv = s.idleDiv := rfl
@[simp] theorem State.setKinds_imaskHoldoff : (s.setKinds v w).imaskHoldoff = s.imaskHoldoff := rfl
@[simp] theorem State.setKinds_icntlOld : (s.setKinds v w).icntlOld = s.icntlOld := rfl
@[simp] theorem State.setKinds_icntlDelay : (s.setKinds v w).icntlDelay = s.icntlDelay := rfl
@[simp] theorem State.setKinds_icntlKnown : (s.setKinds v w).icntlKnown = s.icntlKnown := rfl
@[simp] theorem State.setKinds_intsOld : (s.setKinds v w).intsOld = s.intsOld := rfl
@[simp] theorem State.setKinds_intsDelay : (s.setKinds v w).intsDelay = s.intsDelay := rfl
@[simp] theorem State.setKinds_prevKind : (s.setKinds v w).prevKind = v := rfl
@[simp] theorem State.setKinds_prev2Kind : (s.setKinds v w).prev2Kind = w := rfl
@[simp] theorem State.setKinds_primary : (s.setKinds v w).primary = s.primary := rfl
@[simp] theorem State.setKinds_shadow : (s.setKinds v w).shadow = s.shadow := rfl
@[simp] theorem State.setKinds_dag : (s.setKinds v w).dag = s.dag := rfl
@[simp] theorem State.setKinds_ports : (s.setKinds v w).ports = s.ports := rfl
@[simp] theorem State.setKinds_pm : (s.setKinds v w).pm = s.pm := rfl
@[simp] theorem State.setKinds_pmStored : (s.setKinds v w).pmStored = s.pmStored := rfl
@[simp] theorem State.setKinds_pins : (s.setKinds v w).pins = s.pins := rfl
@[simp] theorem State.setKinds_flagIn : (s.setKinds v w).flagIn = s.flagIn := rfl
@[simp] theorem State.setKinds_inputs : (s.setKinds v w).inputs = s.inputs := rfl
@[simp] theorem State.setKinds_cfg : (s.setKinds v w).cfg = s.cfg := rfl
@[simp] theorem State.setKinds_freeTick : (s.setKinds v w).freeTick = s.freeTick := rfl

end setKinds

section setBanks
variable (s : State) (v : Bank) (w : Bank)

@[simp] theorem State.setBanks_pc : (s.setBanks v w).pc = s.pc := rfl
@[simp] theorem State.setBanks_pcstk : (s.setBanks v w).pcstk = s.pcstk := rfl
@[simp] theorem State.setBanks_cntstk : (s.setBanks v w).cntstk = s.cntstk := rfl
@[simp] theorem State.setBanks_lpstk : (s.setBanks v w).lpstk = s.lpstk := rfl
@[simp] theorem State.setBanks_ststk : (s.setBanks v w).ststk = s.ststk := rfl
@[simp] theorem State.setBanks_cntr : (s.setBanks v w).cntr = s.cntr := rfl
@[simp] theorem State.setBanks_cntrValid : (s.setBanks v w).cntrValid = s.cntrValid := rfl
@[simp] theorem State.setBanks_astat : (s.setBanks v w).astat = s.astat := rfl
@[simp] theorem State.setBanks_mstat : (s.setBanks v w).mstat = s.mstat := rfl
@[simp] theorem State.setBanks_icntl : (s.setBanks v w).icntl = s.icntl := rfl
@[simp] theorem State.setBanks_imask : (s.setBanks v w).imask = s.imask := rfl
@[simp] theorem State.setBanks_intsEnabled : (s.setBanks v w).intsEnabled = s.intsEnabled := rfl
@[simp] theorem State.setBanks_req : (s.setBanks v w).req = s.req := rfl
@[simp] theorem State.setBanks_idle : (s.setBanks v w).idle = s.idle := rfl
@[simp] theorem State.setBanks_idleDiv : (s.setBanks v w).idleDiv = s.idleDiv := rfl
@[simp] theorem State.setBanks_imaskHoldoff : (s.setBanks v w).imaskHoldoff = s.imaskHoldoff := rfl
@[simp] theorem State.setBanks_icntlOld : (s.setBanks v w).icntlOld = s.icntlOld := rfl
@[simp] theorem State.setBanks_icntlDelay : (s.setBanks v w).icntlDelay = s.icntlDelay := rfl
@[simp] theorem State.setBanks_icntlKnown : (s.setBanks v w).icntlKnown = s.icntlKnown := rfl
@[simp] theorem State.setBanks_intsOld : (s.setBanks v w).intsOld = s.intsOld := rfl
@[simp] theorem State.setBanks_intsDelay : (s.setBanks v w).intsDelay = s.intsDelay := rfl
@[simp] theorem State.setBanks_prevKind : (s.setBanks v w).prevKind = s.prevKind := rfl
@[simp] theorem State.setBanks_prev2Kind : (s.setBanks v w).prev2Kind = s.prev2Kind := rfl
@[simp] theorem State.setBanks_primary : (s.setBanks v w).primary = v := rfl
@[simp] theorem State.setBanks_shadow : (s.setBanks v w).shadow = w := rfl
@[simp] theorem State.setBanks_dag : (s.setBanks v w).dag = s.dag := rfl
@[simp] theorem State.setBanks_ports : (s.setBanks v w).ports = s.ports := rfl
@[simp] theorem State.setBanks_pm : (s.setBanks v w).pm = s.pm := rfl
@[simp] theorem State.setBanks_pmStored : (s.setBanks v w).pmStored = s.pmStored := rfl
@[simp] theorem State.setBanks_pins : (s.setBanks v w).pins = s.pins := rfl
@[simp] theorem State.setBanks_flagIn : (s.setBanks v w).flagIn = s.flagIn := rfl
@[simp] theorem State.setBanks_inputs : (s.setBanks v w).inputs = s.inputs := rfl
@[simp] theorem State.setBanks_cfg : (s.setBanks v w).cfg = s.cfg := rfl
@[simp] theorem State.setBanks_freeTick : (s.setBanks v w).freeTick = s.freeTick := rfl

end setBanks

section setDag
variable (s : State) (v : Dag)

@[simp] theorem State.setDag_pc : (s.setDag v).pc = s.pc := rfl
@[simp] theorem State.setDag_pcstk : (s.setDag v).pcstk = s.pcstk := rfl
@[simp] theorem State.setDag_cntstk : (s.setDag v).cntstk = s.cntstk := rfl
@[simp] theorem State.setDag_lpstk : (s.setDag v).lpstk = s.lpstk := rfl
@[simp] theorem State.setDag_ststk : (s.setDag v).ststk = s.ststk := rfl
@[simp] theorem State.setDag_cntr : (s.setDag v).cntr = s.cntr := rfl
@[simp] theorem State.setDag_cntrValid : (s.setDag v).cntrValid = s.cntrValid := rfl
@[simp] theorem State.setDag_astat : (s.setDag v).astat = s.astat := rfl
@[simp] theorem State.setDag_mstat : (s.setDag v).mstat = s.mstat := rfl
@[simp] theorem State.setDag_icntl : (s.setDag v).icntl = s.icntl := rfl
@[simp] theorem State.setDag_imask : (s.setDag v).imask = s.imask := rfl
@[simp] theorem State.setDag_intsEnabled : (s.setDag v).intsEnabled = s.intsEnabled := rfl
@[simp] theorem State.setDag_req : (s.setDag v).req = s.req := rfl
@[simp] theorem State.setDag_idle : (s.setDag v).idle = s.idle := rfl
@[simp] theorem State.setDag_idleDiv : (s.setDag v).idleDiv = s.idleDiv := rfl
@[simp] theorem State.setDag_imaskHoldoff : (s.setDag v).imaskHoldoff = s.imaskHoldoff := rfl
@[simp] theorem State.setDag_icntlOld : (s.setDag v).icntlOld = s.icntlOld := rfl
@[simp] theorem State.setDag_icntlDelay : (s.setDag v).icntlDelay = s.icntlDelay := rfl
@[simp] theorem State.setDag_icntlKnown : (s.setDag v).icntlKnown = s.icntlKnown := rfl
@[simp] theorem State.setDag_intsOld : (s.setDag v).intsOld = s.intsOld := rfl
@[simp] theorem State.setDag_intsDelay : (s.setDag v).intsDelay = s.intsDelay := rfl
@[simp] theorem State.setDag_prevKind : (s.setDag v).prevKind = s.prevKind := rfl
@[simp] theorem State.setDag_prev2Kind : (s.setDag v).prev2Kind = s.prev2Kind := rfl
@[simp] theorem State.setDag_primary : (s.setDag v).primary = s.primary := rfl
@[simp] theorem State.setDag_shadow : (s.setDag v).shadow = s.shadow := rfl
@[simp] theorem State.setDag_dag : (s.setDag v).dag = v := rfl
@[simp] theorem State.setDag_ports : (s.setDag v).ports = s.ports := rfl
@[simp] theorem State.setDag_pm : (s.setDag v).pm = s.pm := rfl
@[simp] theorem State.setDag_pmStored : (s.setDag v).pmStored = s.pmStored := rfl
@[simp] theorem State.setDag_pins : (s.setDag v).pins = s.pins := rfl
@[simp] theorem State.setDag_flagIn : (s.setDag v).flagIn = s.flagIn := rfl
@[simp] theorem State.setDag_inputs : (s.setDag v).inputs = s.inputs := rfl
@[simp] theorem State.setDag_cfg : (s.setDag v).cfg = s.cfg := rfl
@[simp] theorem State.setDag_freeTick : (s.setDag v).freeTick = s.freeTick := rfl

end setDag

section setPorts
variable (s : State) (v : Ports)

@[simp] theorem State.setPorts_pc : (s.setPorts v).pc = s.pc := rfl
@[simp] theorem State.setPorts_pcstk : (s.setPorts v).pcstk = s.pcstk := rfl
@[simp] theorem State.setPorts_cntstk : (s.setPorts v).cntstk = s.cntstk := rfl
@[simp] theorem State.setPorts_lpstk : (s.setPorts v).lpstk = s.lpstk := rfl
@[simp] theorem State.setPorts_ststk : (s.setPorts v).ststk = s.ststk := rfl
@[simp] theorem State.setPorts_cntr : (s.setPorts v).cntr = s.cntr := rfl
@[simp] theorem State.setPorts_cntrValid : (s.setPorts v).cntrValid = s.cntrValid := rfl
@[simp] theorem State.setPorts_astat : (s.setPorts v).astat = s.astat := rfl
@[simp] theorem State.setPorts_mstat : (s.setPorts v).mstat = s.mstat := rfl
@[simp] theorem State.setPorts_icntl : (s.setPorts v).icntl = s.icntl := rfl
@[simp] theorem State.setPorts_imask : (s.setPorts v).imask = s.imask := rfl
@[simp] theorem State.setPorts_intsEnabled : (s.setPorts v).intsEnabled = s.intsEnabled := rfl
@[simp] theorem State.setPorts_req : (s.setPorts v).req = s.req := rfl
@[simp] theorem State.setPorts_idle : (s.setPorts v).idle = s.idle := rfl
@[simp] theorem State.setPorts_idleDiv : (s.setPorts v).idleDiv = s.idleDiv := rfl
@[simp] theorem State.setPorts_imaskHoldoff : (s.setPorts v).imaskHoldoff = s.imaskHoldoff := rfl
@[simp] theorem State.setPorts_icntlOld : (s.setPorts v).icntlOld = s.icntlOld := rfl
@[simp] theorem State.setPorts_icntlDelay : (s.setPorts v).icntlDelay = s.icntlDelay := rfl
@[simp] theorem State.setPorts_icntlKnown : (s.setPorts v).icntlKnown = s.icntlKnown := rfl
@[simp] theorem State.setPorts_intsOld : (s.setPorts v).intsOld = s.intsOld := rfl
@[simp] theorem State.setPorts_intsDelay : (s.setPorts v).intsDelay = s.intsDelay := rfl
@[simp] theorem State.setPorts_prevKind : (s.setPorts v).prevKind = s.prevKind := rfl
@[simp] theorem State.setPorts_prev2Kind : (s.setPorts v).prev2Kind = s.prev2Kind := rfl
@[simp] theorem State.setPorts_primary : (s.setPorts v).primary = s.primary := rfl
@[simp] theorem State.setPorts_shadow : (s.setPorts v).shadow = s.shadow := rfl
@[simp] theorem State.setPorts_dag : (s.setPorts v).dag = s.dag := rfl
@[simp] theorem State.setPorts_ports : (s.setPorts v).ports = v := rfl
@[simp] theorem State.setPorts_pm : (s.setPorts v).pm = s.pm := rfl
@[simp] theorem State.setPorts_pmStored : (s.setPorts v).pmStored = s.pmStored := rfl
@[simp] theorem State.setPorts_pins : (s.setPorts v).pins = s.pins := rfl
@[simp] theorem State.setPorts_flagIn : (s.setPorts v).flagIn = s.flagIn := rfl
@[simp] theorem State.setPorts_inputs : (s.setPorts v).inputs = s.inputs := rfl
@[simp] theorem State.setPorts_cfg : (s.setPorts v).cfg = s.cfg := rfl
@[simp] theorem State.setPorts_freeTick : (s.setPorts v).freeTick = s.freeTick := rfl

end setPorts

section setPm
variable (s : State) (v : List Host.Cell)

@[simp] theorem State.setPm_pc : (s.setPm v).pc = s.pc := rfl
@[simp] theorem State.setPm_pcstk : (s.setPm v).pcstk = s.pcstk := rfl
@[simp] theorem State.setPm_cntstk : (s.setPm v).cntstk = s.cntstk := rfl
@[simp] theorem State.setPm_lpstk : (s.setPm v).lpstk = s.lpstk := rfl
@[simp] theorem State.setPm_ststk : (s.setPm v).ststk = s.ststk := rfl
@[simp] theorem State.setPm_cntr : (s.setPm v).cntr = s.cntr := rfl
@[simp] theorem State.setPm_cntrValid : (s.setPm v).cntrValid = s.cntrValid := rfl
@[simp] theorem State.setPm_astat : (s.setPm v).astat = s.astat := rfl
@[simp] theorem State.setPm_mstat : (s.setPm v).mstat = s.mstat := rfl
@[simp] theorem State.setPm_icntl : (s.setPm v).icntl = s.icntl := rfl
@[simp] theorem State.setPm_imask : (s.setPm v).imask = s.imask := rfl
@[simp] theorem State.setPm_intsEnabled : (s.setPm v).intsEnabled = s.intsEnabled := rfl
@[simp] theorem State.setPm_req : (s.setPm v).req = s.req := rfl
@[simp] theorem State.setPm_idle : (s.setPm v).idle = s.idle := rfl
@[simp] theorem State.setPm_idleDiv : (s.setPm v).idleDiv = s.idleDiv := rfl
@[simp] theorem State.setPm_imaskHoldoff : (s.setPm v).imaskHoldoff = s.imaskHoldoff := rfl
@[simp] theorem State.setPm_icntlOld : (s.setPm v).icntlOld = s.icntlOld := rfl
@[simp] theorem State.setPm_icntlDelay : (s.setPm v).icntlDelay = s.icntlDelay := rfl
@[simp] theorem State.setPm_icntlKnown : (s.setPm v).icntlKnown = s.icntlKnown := rfl
@[simp] theorem State.setPm_intsOld : (s.setPm v).intsOld = s.intsOld := rfl
@[simp] theorem State.setPm_intsDelay : (s.setPm v).intsDelay = s.intsDelay := rfl
@[simp] theorem State.setPm_prevKind : (s.setPm v).prevKind = s.prevKind := rfl
@[simp] theorem State.setPm_prev2Kind : (s.setPm v).prev2Kind = s.prev2Kind := rfl
@[simp] theorem State.setPm_primary : (s.setPm v).primary = s.primary := rfl
@[simp] theorem State.setPm_shadow : (s.setPm v).shadow = s.shadow := rfl
@[simp] theorem State.setPm_dag : (s.setPm v).dag = s.dag := rfl
@[simp] theorem State.setPm_ports : (s.setPm v).ports = s.ports := rfl
@[simp] theorem State.setPm_pm : (s.setPm v).pm = v := rfl
@[simp] theorem State.setPm_pmStored : (s.setPm v).pmStored = [] := rfl
@[simp] theorem State.setPm_pins : (s.setPm v).pins = s.pins := rfl
@[simp] theorem State.setPm_flagIn : (s.setPm v).flagIn = s.flagIn := rfl
@[simp] theorem State.setPm_inputs : (s.setPm v).inputs = s.inputs := rfl
@[simp] theorem State.setPm_cfg : (s.setPm v).cfg = s.cfg := rfl
@[simp] theorem State.setPm_freeTick : (s.setPm v).freeTick = s.freeTick := rfl

end setPm

section setPins
variable (s : State) (v : SourceBits)

@[simp] theorem State.setPins_pc : (s.setPins v).pc = s.pc := rfl
@[simp] theorem State.setPins_pcstk : (s.setPins v).pcstk = s.pcstk := rfl
@[simp] theorem State.setPins_cntstk : (s.setPins v).cntstk = s.cntstk := rfl
@[simp] theorem State.setPins_lpstk : (s.setPins v).lpstk = s.lpstk := rfl
@[simp] theorem State.setPins_ststk : (s.setPins v).ststk = s.ststk := rfl
@[simp] theorem State.setPins_cntr : (s.setPins v).cntr = s.cntr := rfl
@[simp] theorem State.setPins_cntrValid : (s.setPins v).cntrValid = s.cntrValid := rfl
@[simp] theorem State.setPins_astat : (s.setPins v).astat = s.astat := rfl
@[simp] theorem State.setPins_mstat : (s.setPins v).mstat = s.mstat := rfl
@[simp] theorem State.setPins_icntl : (s.setPins v).icntl = s.icntl := rfl
@[simp] theorem State.setPins_imask : (s.setPins v).imask = s.imask := rfl
@[simp] theorem State.setPins_intsEnabled : (s.setPins v).intsEnabled = s.intsEnabled := rfl
@[simp] theorem State.setPins_req : (s.setPins v).req = s.req := rfl
@[simp] theorem State.setPins_idle : (s.setPins v).idle = s.idle := rfl
@[simp] theorem State.setPins_idleDiv : (s.setPins v).idleDiv = s.idleDiv := rfl
@[simp] theorem State.setPins_imaskHoldoff : (s.setPins v).imaskHoldoff = s.imaskHoldoff := rfl
@[simp] theorem State.setPins_icntlOld : (s.setPins v).icntlOld = s.icntlOld := rfl
@[simp] theorem State.setPins_icntlDelay : (s.setPins v).icntlDelay = s.icntlDelay := rfl
@[simp] theorem State.setPins_icntlKnown : (s.setPins v).icntlKnown = s.icntlKnown := rfl
@[simp] theorem State.setPins_intsOld : (s.setPins v).intsOld = s.intsOld := rfl
@[simp] theorem State.setPins_intsDelay : (s.setPins v).intsDelay = s.intsDelay := rfl
@[simp] theorem State.setPins_prevKind : (s.setPins v).prevKind = s.prevKind := rfl
@[simp] theorem State.setPins_prev2Kind : (s.setPins v).prev2Kind = s.prev2Kind := rfl
@[simp] theorem State.setPins_primary : (s.setPins v).primary = s.primary := rfl
@[simp] theorem State.setPins_shadow : (s.setPins v).shadow = s.shadow := rfl
@[simp] theorem State.setPins_dag : (s.setPins v).dag = s.dag := rfl
@[simp] theorem State.setPins_ports : (s.setPins v).ports = s.ports := rfl
@[simp] theorem State.setPins_pm : (s.setPins v).pm = s.pm := rfl
@[simp] theorem State.setPins_pmStored : (s.setPins v).pmStored = s.pmStored := rfl
@[simp] theorem State.setPins_pins : (s.setPins v).pins = v := rfl
@[simp] theorem State.setPins_flagIn : (s.setPins v).flagIn = s.flagIn := rfl
@[simp] theorem State.setPins_inputs : (s.setPins v).inputs = s.inputs := rfl
@[simp] theorem State.setPins_cfg : (s.setPins v).cfg = s.cfg := rfl
@[simp] theorem State.setPins_freeTick : (s.setPins v).freeTick = s.freeTick := rfl

end setPins

section setFlagIn
variable (s : State) (v : Bool)

@[simp] theorem State.setFlagIn_pc : (s.setFlagIn v).pc = s.pc := rfl
@[simp] theorem State.setFlagIn_pcstk : (s.setFlagIn v).pcstk = s.pcstk := rfl
@[simp] theorem State.setFlagIn_cntstk : (s.setFlagIn v).cntstk = s.cntstk := rfl
@[simp] theorem State.setFlagIn_lpstk : (s.setFlagIn v).lpstk = s.lpstk := rfl
@[simp] theorem State.setFlagIn_ststk : (s.setFlagIn v).ststk = s.ststk := rfl
@[simp] theorem State.setFlagIn_cntr : (s.setFlagIn v).cntr = s.cntr := rfl
@[simp] theorem State.setFlagIn_cntrValid : (s.setFlagIn v).cntrValid = s.cntrValid := rfl
@[simp] theorem State.setFlagIn_astat : (s.setFlagIn v).astat = s.astat := rfl
@[simp] theorem State.setFlagIn_mstat : (s.setFlagIn v).mstat = s.mstat := rfl
@[simp] theorem State.setFlagIn_icntl : (s.setFlagIn v).icntl = s.icntl := rfl
@[simp] theorem State.setFlagIn_imask : (s.setFlagIn v).imask = s.imask := rfl
@[simp] theorem State.setFlagIn_intsEnabled : (s.setFlagIn v).intsEnabled = s.intsEnabled := rfl
@[simp] theorem State.setFlagIn_req : (s.setFlagIn v).req = s.req := rfl
@[simp] theorem State.setFlagIn_idle : (s.setFlagIn v).idle = s.idle := rfl
@[simp] theorem State.setFlagIn_idleDiv : (s.setFlagIn v).idleDiv = s.idleDiv := rfl
@[simp] theorem State.setFlagIn_imaskHoldoff : (s.setFlagIn v).imaskHoldoff = s.imaskHoldoff := rfl
@[simp] theorem State.setFlagIn_icntlOld : (s.setFlagIn v).icntlOld = s.icntlOld := rfl
@[simp] theorem State.setFlagIn_icntlDelay : (s.setFlagIn v).icntlDelay = s.icntlDelay := rfl
@[simp] theorem State.setFlagIn_icntlKnown : (s.setFlagIn v).icntlKnown = s.icntlKnown := rfl
@[simp] theorem State.setFlagIn_intsOld : (s.setFlagIn v).intsOld = s.intsOld := rfl
@[simp] theorem State.setFlagIn_intsDelay : (s.setFlagIn v).intsDelay = s.intsDelay := rfl
@[simp] theorem State.setFlagIn_prevKind : (s.setFlagIn v).prevKind = s.prevKind := rfl
@[simp] theorem State.setFlagIn_prev2Kind : (s.setFlagIn v).prev2Kind = s.prev2Kind := rfl
@[simp] theorem State.setFlagIn_primary : (s.setFlagIn v).primary = s.primary := rfl
@[simp] theorem State.setFlagIn_shadow : (s.setFlagIn v).shadow = s.shadow := rfl
@[simp] theorem State.setFlagIn_dag : (s.setFlagIn v).dag = s.dag := rfl
@[simp] theorem State.setFlagIn_ports : (s.setFlagIn v).ports = s.ports := rfl
@[simp] theorem State.setFlagIn_pm : (s.setFlagIn v).pm = s.pm := rfl
@[simp] theorem State.setFlagIn_pmStored : (s.setFlagIn v).pmStored = s.pmStored := rfl
@[simp] theorem State.setFlagIn_pins : (s.setFlagIn v).pins = s.pins := rfl
@[simp] theorem State.setFlagIn_flagIn : (s.setFlagIn v).flagIn = v := rfl
@[simp] theorem State.setFlagIn_inputs : (s.setFlagIn v).inputs = s.inputs := rfl
@[simp] theorem State.setFlagIn_cfg : (s.setFlagIn v).cfg = s.cfg := rfl
@[simp] theorem State.setFlagIn_freeTick : (s.setFlagIn v).freeTick = s.freeTick := rfl

end setFlagIn

section setInputs
variable (s : State) (v : List (List Input))

@[simp] theorem State.setInputs_pc : (s.setInputs v).pc = s.pc := rfl
@[simp] theorem State.setInputs_pcstk : (s.setInputs v).pcstk = s.pcstk := rfl
@[simp] theorem State.setInputs_cntstk : (s.setInputs v).cntstk = s.cntstk := rfl
@[simp] theorem State.setInputs_lpstk : (s.setInputs v).lpstk = s.lpstk := rfl
@[simp] theorem State.setInputs_ststk : (s.setInputs v).ststk = s.ststk := rfl
@[simp] theorem State.setInputs_cntr : (s.setInputs v).cntr = s.cntr := rfl
@[simp] theorem State.setInputs_cntrValid : (s.setInputs v).cntrValid = s.cntrValid := rfl
@[simp] theorem State.setInputs_astat : (s.setInputs v).astat = s.astat := rfl
@[simp] theorem State.setInputs_mstat : (s.setInputs v).mstat = s.mstat := rfl
@[simp] theorem State.setInputs_icntl : (s.setInputs v).icntl = s.icntl := rfl
@[simp] theorem State.setInputs_imask : (s.setInputs v).imask = s.imask := rfl
@[simp] theorem State.setInputs_intsEnabled : (s.setInputs v).intsEnabled = s.intsEnabled := rfl
@[simp] theorem State.setInputs_req : (s.setInputs v).req = s.req := rfl
@[simp] theorem State.setInputs_idle : (s.setInputs v).idle = s.idle := rfl
@[simp] theorem State.setInputs_idleDiv : (s.setInputs v).idleDiv = s.idleDiv := rfl
@[simp] theorem State.setInputs_imaskHoldoff : (s.setInputs v).imaskHoldoff = s.imaskHoldoff := rfl
@[simp] theorem State.setInputs_icntlOld : (s.setInputs v).icntlOld = s.icntlOld := rfl
@[simp] theorem State.setInputs_icntlDelay : (s.setInputs v).icntlDelay = s.icntlDelay := rfl
@[simp] theorem State.setInputs_icntlKnown : (s.setInputs v).icntlKnown = s.icntlKnown := rfl
@[simp] theorem State.setInputs_intsOld : (s.setInputs v).intsOld = s.intsOld := rfl
@[simp] theorem State.setInputs_intsDelay : (s.setInputs v).intsDelay = s.intsDelay := rfl
@[simp] theorem State.setInputs_prevKind : (s.setInputs v).prevKind = s.prevKind := rfl
@[simp] theorem State.setInputs_prev2Kind : (s.setInputs v).prev2Kind = s.prev2Kind := rfl
@[simp] theorem State.setInputs_primary : (s.setInputs v).primary = s.primary := rfl
@[simp] theorem State.setInputs_shadow : (s.setInputs v).shadow = s.shadow := rfl
@[simp] theorem State.setInputs_dag : (s.setInputs v).dag = s.dag := rfl
@[simp] theorem State.setInputs_ports : (s.setInputs v).ports = s.ports := rfl
@[simp] theorem State.setInputs_pm : (s.setInputs v).pm = s.pm := rfl
@[simp] theorem State.setInputs_pmStored : (s.setInputs v).pmStored = s.pmStored := rfl
@[simp] theorem State.setInputs_pins : (s.setInputs v).pins = s.pins := rfl
@[simp] theorem State.setInputs_flagIn : (s.setInputs v).flagIn = s.flagIn := rfl
@[simp] theorem State.setInputs_inputs : (s.setInputs v).inputs = v := rfl
@[simp] theorem State.setInputs_cfg : (s.setInputs v).cfg = s.cfg := rfl
@[simp] theorem State.setInputs_freeTick : (s.setInputs v).freeTick = s.freeTick := rfl

end setInputs

section setFreeTick
variable (s : State) (v : Nat)

@[simp] theorem State.setFreeTick_pc : (s.setFreeTick v).pc = s.pc := rfl
@[simp] theorem State.setFreeTick_pcstk : (s.setFreeTick v).pcstk = s.pcstk := rfl
@[simp] theorem State.setFreeTick_cntstk : (s.setFreeTick v).cntstk = s.cntstk := rfl
@[simp] theorem State.setFreeTick_lpstk : (s.setFreeTick v).lpstk = s.lpstk := rfl
@[simp] theorem State.setFreeTick_ststk : (s.setFreeTick v).ststk = s.ststk := rfl
@[simp] theorem State.setFreeTick_cntr : (s.setFreeTick v).cntr = s.cntr := rfl
@[simp] theorem State.setFreeTick_cntrValid : (s.setFreeTick v).cntrValid = s.cntrValid := rfl
@[simp] theorem State.setFreeTick_astat : (s.setFreeTick v).astat = s.astat := rfl
@[simp] theorem State.setFreeTick_mstat : (s.setFreeTick v).mstat = s.mstat := rfl
@[simp] theorem State.setFreeTick_icntl : (s.setFreeTick v).icntl = s.icntl := rfl
@[simp] theorem State.setFreeTick_imask : (s.setFreeTick v).imask = s.imask := rfl
@[simp] theorem State.setFreeTick_intsEnabled : (s.setFreeTick v).intsEnabled = s.intsEnabled := rfl
@[simp] theorem State.setFreeTick_req : (s.setFreeTick v).req = s.req := rfl
@[simp] theorem State.setFreeTick_idle : (s.setFreeTick v).idle = s.idle := rfl
@[simp] theorem State.setFreeTick_idleDiv : (s.setFreeTick v).idleDiv = s.idleDiv := rfl
@[simp] theorem State.setFreeTick_imaskHoldoff : (s.setFreeTick v).imaskHoldoff = s.imaskHoldoff := rfl
@[simp] theorem State.setFreeTick_icntlOld : (s.setFreeTick v).icntlOld = s.icntlOld := rfl
@[simp] theorem State.setFreeTick_icntlDelay : (s.setFreeTick v).icntlDelay = s.icntlDelay := rfl
@[simp] theorem State.setFreeTick_icntlKnown : (s.setFreeTick v).icntlKnown = s.icntlKnown := rfl
@[simp] theorem State.setFreeTick_intsOld : (s.setFreeTick v).intsOld = s.intsOld := rfl
@[simp] theorem State.setFreeTick_intsDelay : (s.setFreeTick v).intsDelay = s.intsDelay := rfl
@[simp] theorem State.setFreeTick_prevKind : (s.setFreeTick v).prevKind = s.prevKind := rfl
@[simp] theorem State.setFreeTick_prev2Kind : (s.setFreeTick v).prev2Kind = s.prev2Kind := rfl
@[simp] theorem State.setFreeTick_primary : (s.setFreeTick v).primary = s.primary := rfl
@[simp] theorem State.setFreeTick_shadow : (s.setFreeTick v).shadow = s.shadow := rfl
@[simp] theorem State.setFreeTick_dag : (s.setFreeTick v).dag = s.dag := rfl
@[simp] theorem State.setFreeTick_ports : (s.setFreeTick v).ports = s.ports := rfl
@[simp] theorem State.setFreeTick_pm : (s.setFreeTick v).pm = s.pm := rfl
@[simp] theorem State.setFreeTick_pmStored : (s.setFreeTick v).pmStored = s.pmStored := rfl
@[simp] theorem State.setFreeTick_pins : (s.setFreeTick v).pins = s.pins := rfl
@[simp] theorem State.setFreeTick_flagIn : (s.setFreeTick v).flagIn = s.flagIn := rfl
@[simp] theorem State.setFreeTick_inputs : (s.setFreeTick v).inputs = s.inputs := rfl
@[simp] theorem State.setFreeTick_cfg : (s.setFreeTick v).cfg = s.cfg := rfl
@[simp] theorem State.setFreeTick_freeTick : (s.setFreeTick v).freeTick = v := rfl

end setFreeTick

section setIcntlKnown
variable (s : State) (v : Bool)

@[simp] theorem State.setIcntlKnown_pc : (s.setIcntlKnown v).pc = s.pc := rfl
@[simp] theorem State.setIcntlKnown_pcstk : (s.setIcntlKnown v).pcstk = s.pcstk := rfl
@[simp] theorem State.setIcntlKnown_cntstk : (s.setIcntlKnown v).cntstk = s.cntstk := rfl
@[simp] theorem State.setIcntlKnown_lpstk : (s.setIcntlKnown v).lpstk = s.lpstk := rfl
@[simp] theorem State.setIcntlKnown_ststk : (s.setIcntlKnown v).ststk = s.ststk := rfl
@[simp] theorem State.setIcntlKnown_cntr : (s.setIcntlKnown v).cntr = s.cntr := rfl
@[simp] theorem State.setIcntlKnown_cntrValid : (s.setIcntlKnown v).cntrValid = s.cntrValid := rfl
@[simp] theorem State.setIcntlKnown_astat : (s.setIcntlKnown v).astat = s.astat := rfl
@[simp] theorem State.setIcntlKnown_mstat : (s.setIcntlKnown v).mstat = s.mstat := rfl
@[simp] theorem State.setIcntlKnown_icntl : (s.setIcntlKnown v).icntl = s.icntl := rfl
@[simp] theorem State.setIcntlKnown_imask : (s.setIcntlKnown v).imask = s.imask := rfl
@[simp] theorem State.setIcntlKnown_intsEnabled : (s.setIcntlKnown v).intsEnabled = s.intsEnabled := rfl
@[simp] theorem State.setIcntlKnown_req : (s.setIcntlKnown v).req = s.req := rfl
@[simp] theorem State.setIcntlKnown_idle : (s.setIcntlKnown v).idle = s.idle := rfl
@[simp] theorem State.setIcntlKnown_idleDiv : (s.setIcntlKnown v).idleDiv = s.idleDiv := rfl
@[simp] theorem State.setIcntlKnown_imaskHoldoff : (s.setIcntlKnown v).imaskHoldoff = s.imaskHoldoff := rfl
@[simp] theorem State.setIcntlKnown_icntlOld : (s.setIcntlKnown v).icntlOld = s.icntlOld := rfl
@[simp] theorem State.setIcntlKnown_icntlDelay : (s.setIcntlKnown v).icntlDelay = s.icntlDelay := rfl
@[simp] theorem State.setIcntlKnown_icntlKnown : (s.setIcntlKnown v).icntlKnown = v := rfl
@[simp] theorem State.setIcntlKnown_intsOld : (s.setIcntlKnown v).intsOld = s.intsOld := rfl
@[simp] theorem State.setIcntlKnown_intsDelay : (s.setIcntlKnown v).intsDelay = s.intsDelay := rfl
@[simp] theorem State.setIcntlKnown_prevKind : (s.setIcntlKnown v).prevKind = s.prevKind := rfl
@[simp] theorem State.setIcntlKnown_prev2Kind : (s.setIcntlKnown v).prev2Kind = s.prev2Kind := rfl
@[simp] theorem State.setIcntlKnown_primary : (s.setIcntlKnown v).primary = s.primary := rfl
@[simp] theorem State.setIcntlKnown_shadow : (s.setIcntlKnown v).shadow = s.shadow := rfl
@[simp] theorem State.setIcntlKnown_dag : (s.setIcntlKnown v).dag = s.dag := rfl
@[simp] theorem State.setIcntlKnown_ports : (s.setIcntlKnown v).ports = s.ports := rfl
@[simp] theorem State.setIcntlKnown_pm : (s.setIcntlKnown v).pm = s.pm := rfl
@[simp] theorem State.setIcntlKnown_pmStored : (s.setIcntlKnown v).pmStored = s.pmStored := rfl
@[simp] theorem State.setIcntlKnown_pins : (s.setIcntlKnown v).pins = s.pins := rfl
@[simp] theorem State.setIcntlKnown_flagIn : (s.setIcntlKnown v).flagIn = s.flagIn := rfl
@[simp] theorem State.setIcntlKnown_inputs : (s.setIcntlKnown v).inputs = s.inputs := rfl
@[simp] theorem State.setIcntlKnown_cfg : (s.setIcntlKnown v).cfg = s.cfg := rfl
@[simp] theorem State.setIcntlKnown_freeTick : (s.setIcntlKnown v).freeTick = s.freeTick := rfl

end setIcntlKnown

section setPmStored
variable (s : State) (v : List Addr)

@[simp] theorem State.setPmStored_pc : (s.setPmStored v).pc = s.pc := rfl
@[simp] theorem State.setPmStored_pcstk : (s.setPmStored v).pcstk = s.pcstk := rfl
@[simp] theorem State.setPmStored_cntstk : (s.setPmStored v).cntstk = s.cntstk := rfl
@[simp] theorem State.setPmStored_lpstk : (s.setPmStored v).lpstk = s.lpstk := rfl
@[simp] theorem State.setPmStored_ststk : (s.setPmStored v).ststk = s.ststk := rfl
@[simp] theorem State.setPmStored_cntr : (s.setPmStored v).cntr = s.cntr := rfl
@[simp] theorem State.setPmStored_cntrValid : (s.setPmStored v).cntrValid = s.cntrValid := rfl
@[simp] theorem State.setPmStored_astat : (s.setPmStored v).astat = s.astat := rfl
@[simp] theorem State.setPmStored_mstat : (s.setPmStored v).mstat = s.mstat := rfl
@[simp] theorem State.setPmStored_icntl : (s.setPmStored v).icntl = s.icntl := rfl
@[simp] theorem State.setPmStored_imask : (s.setPmStored v).imask = s.imask := rfl
@[simp] theorem State.setPmStored_intsEnabled : (s.setPmStored v).intsEnabled = s.intsEnabled := rfl
@[simp] theorem State.setPmStored_req : (s.setPmStored v).req = s.req := rfl
@[simp] theorem State.setPmStored_idle : (s.setPmStored v).idle = s.idle := rfl
@[simp] theorem State.setPmStored_idleDiv : (s.setPmStored v).idleDiv = s.idleDiv := rfl
@[simp] theorem State.setPmStored_imaskHoldoff : (s.setPmStored v).imaskHoldoff = s.imaskHoldoff := rfl
@[simp] theorem State.setPmStored_icntlOld : (s.setPmStored v).icntlOld = s.icntlOld := rfl
@[simp] theorem State.setPmStored_icntlDelay : (s.setPmStored v).icntlDelay = s.icntlDelay := rfl
@[simp] theorem State.setPmStored_icntlKnown : (s.setPmStored v).icntlKnown = s.icntlKnown := rfl
@[simp] theorem State.setPmStored_intsOld : (s.setPmStored v).intsOld = s.intsOld := rfl
@[simp] theorem State.setPmStored_intsDelay : (s.setPmStored v).intsDelay = s.intsDelay := rfl
@[simp] theorem State.setPmStored_prevKind : (s.setPmStored v).prevKind = s.prevKind := rfl
@[simp] theorem State.setPmStored_prev2Kind : (s.setPmStored v).prev2Kind = s.prev2Kind := rfl
@[simp] theorem State.setPmStored_primary : (s.setPmStored v).primary = s.primary := rfl
@[simp] theorem State.setPmStored_shadow : (s.setPmStored v).shadow = s.shadow := rfl
@[simp] theorem State.setPmStored_dag : (s.setPmStored v).dag = s.dag := rfl
@[simp] theorem State.setPmStored_ports : (s.setPmStored v).ports = s.ports := rfl
@[simp] theorem State.setPmStored_pm : (s.setPmStored v).pm = s.pm := rfl
@[simp] theorem State.setPmStored_pmStored : (s.setPmStored v).pmStored = v := rfl
@[simp] theorem State.setPmStored_pins : (s.setPmStored v).pins = s.pins := rfl
@[simp] theorem State.setPmStored_flagIn : (s.setPmStored v).flagIn = s.flagIn := rfl
@[simp] theorem State.setPmStored_inputs : (s.setPmStored v).inputs = s.inputs := rfl
@[simp] theorem State.setPmStored_cfg : (s.setPmStored v).cfg = s.cfg := rfl
@[simp] theorem State.setPmStored_freeTick : (s.setPmStored v).freeTick = s.freeTick := rfl

end setPmStored

section self
variable (s : State)

@[simp] theorem State.setPc_self : s.setPc s.pc = s := rfl
@[simp] theorem State.setPcstk_self : s.setPcstk s.pcstk = s := rfl
@[simp] theorem State.setCntstk_self : s.setCntstk s.cntstk = s := rfl
@[simp] theorem State.setLpstk_self : s.setLpstk s.lpstk = s := rfl
@[simp] theorem State.setStstk_self : s.setStstk s.ststk = s := rfl
@[simp] theorem State.setCntr_self : s.setCntr s.cntr = s := rfl
@[simp] theorem State.setCntrValid_self : s.setCntrValid s.cntrValid = s := rfl
@[simp] theorem State.setAstat_self : s.setAstat s.astat = s := rfl
@[simp] theorem State.setMstat_self : s.setMstat s.mstat = s := rfl
@[simp] theorem State.setImask_self : s.setImask s.imask = s := rfl
@[simp] theorem State.setHoldoff_self : s.setHoldoff s.imaskHoldoff = s := rfl
@[simp] theorem State.setReq_self : s.setReq s.req = s := rfl
@[simp] theorem State.setIdle_self : s.setIdle s.idle = s := rfl
@[simp] theorem State.setIdleDiv_self : s.setIdleDiv s.idleDiv = s := rfl
@[simp] theorem State.setDag_self : s.setDag s.dag = s := rfl
@[simp] theorem State.setPorts_self : s.setPorts s.ports = s := rfl
@[simp] theorem State.setPm_self : s.setPm s.pm = s.setPmStored [] := rfl
@[simp] theorem State.setPmStored_self : s.setPmStored s.pmStored = s := rfl
@[simp] theorem State.setIcntlKnown_self : s.setIcntlKnown s.icntlKnown = s := rfl
@[simp] theorem State.setPins_self : s.setPins s.pins = s := rfl
@[simp] theorem State.setFlagIn_self : s.setFlagIn s.flagIn = s := rfl
@[simp] theorem State.setInputs_self : s.setInputs s.inputs = s := rfl
@[simp] theorem State.setFreeTick_self : s.setFreeTick s.freeTick = s := rfl
@[simp] theorem State.setIcntl_self : s.setIcntl s.icntl s.icntlOld s.icntlDelay = s := rfl
@[simp] theorem State.setInts_self : s.setInts s.intsEnabled s.intsOld s.intsDelay = s := rfl
@[simp] theorem State.setKinds_self : s.setKinds s.prevKind s.prev2Kind = s := rfl
@[simp] theorem State.setBanks_self : s.setBanks s.primary s.shadow = s := rfl

end self

end Sys2Proof.Machine
end

