-- ==== Sys2Proof/Laws/Ops.lean ====
section
/-! SUPPORT. What the shared operations of Machine/Ops.lean can do, said once for each. -/

namespace Sys2Proof.Machine

/-! ## One bit for each source -/

/-- Reading a bit after setting one. -/
theorem get_set (b : SourceBits) (k l : Source) (v : Bool) :
    (b.set k v).get l = if l = k then v else b.get l := by
  cases k <;> cases l <;> rfl

/-! ## Stacks -/

/-- A push never makes a stack deeper than it is or than it may be. -/
theorem push_length {α : Type} (d : Nat) (st : Stack α) (v : α) (h : st.words.length ≤ d) :
    (st.push d v).words.length ≤ d := by
  unfold Stack.push
  split_ifs
  · simp; omega
  · exact h
  · exact h

/-- A push with room. -/
theorem push_room {α : Type} (d : Nat) (st : Stack α) (v : α) (h : st.words.length < d) :
    st.push d v = { st with words := v :: st.words } := by simp [Stack.push, h]

/-- A push on a full stack keeps the words and sets the overflow bit. -/
theorem push_full {α : Type} (d : Nat) (st : Stack α) (v : α) (h : d ≤ st.words.length) :
    (st.push d v).words = st.words ∧ (st.push d v).ovf = true := by
  unfold Stack.push
  rw [if_neg (Nat.not_lt.2 h)]
  split <;> simp

/-- A push adds one to the pushes less the pops. -/
theorem push_balance {α : Type} (d : Nat) (st : Stack α) (v : α) :
    ((st.push d v).words.length + (st.push d v).lost : Int) - (st.push d v).surplus =
      st.words.length + st.lost - st.surplus + 1 := by
  unfold Stack.push
  split_ifs <;> simp <;> omega

/-- A pop takes one from the pushes less the pops, whether it finds a word or not. -/
theorem pop_balance {α : Type} (st : Stack α) :
    (st.words ≠ [] → (st.drop.words.length + st.drop.lost : Int) - st.drop.surplus =
      st.words.length + st.lost - st.surplus - 1) ∧
    (st.words = [] → (st.popNone.words.length + st.popNone.lost : Int) - st.popNone.surplus =
      st.words.length + st.lost - st.surplus - 1) := by
  constructor
  · intro h
    obtain ⟨w, ws, h⟩ := List.exists_cons_of_ne_nil h
    simp [Stack.drop, h]; omega
  · intro h
    unfold Stack.popNone
    split_ifs <;> simp <;> omega

/-- A push never leaves both a lost push and a surplus pop where there was none of one kind. -/
theorem push_either {α : Type} (d : Nat) (st : Stack α) (v : α) (h : st.lost = 0 ∨ st.surplus = 0) :
    (st.push d v).lost = 0 ∨ (st.push d v).surplus = 0 := by
  unfold Stack.push
  split_ifs <;> simp_all

/-- A push on a stack without surplus pops makes none. -/
theorem push_surplus {α : Type} (d : Nat) (st : Stack α) (v : α) (h : st.surplus = 0) :
    (st.push d v).surplus = 0 := by
  unfold Stack.push
  split_ifs <;> simp_all

/-- A pop that finds no word leaves the words and the overflow bit. -/
@[simp] theorem popNone_words {α : Type} (st : Stack α) : st.popNone.words = st.words := by
  unfold Stack.popNone; split <;> rfl
@[simp] theorem popNone_ovf {α : Type} (st : Stack α) : st.popNone.ovf = st.ovf := by
  unfold Stack.popNone; split <;> rfl

/-- A push keeps a set overflow bit. -/
theorem push_ovf {α : Type} (d : Nat) (st : Stack α) (v : α) (h : st.ovf = true) :
    (st.push d v).ovf = true := by
  unfold Stack.push
  split_ifs <;> simp [h]

/-- A push keeps the rule that lost words are shown. -/
theorem push_lost {α : Type} (d : Nat) (st : Stack α) (v : α) (h : st.lost ≠ 0 → st.ovf = true) :
    (st.push d v).lost ≠ 0 → (st.push d v).ovf = true := by
  unfold Stack.push
  split_ifs
  · exact h
  · simp
  · simp

/-- A pop of a PC stack that holds a word. -/
theorem popPc_cons (s : State) (a : Addr) (as : List Addr) (h : s.pcstk.words = a :: as) :
    s.popPc = .ok (a, s.setPcstk { s.pcstk with words := as }) := by
  simp [State.popPc, h, Stack.drop]

/-- A pop of the PC stack that is not refused found a word. -/
theorem popPc_ok {s t : State} {a : Addr} (h : s.popPc = .ok (a, t)) :
    ∃ as, s.pcstk.words = a :: as ∧ t = s.setPcstk { s.pcstk with words := as } := by
  unfold State.popPc at h
  split at h
  · cases h
  · rename_i b bs hw
    simp only [Except.ok.injEq, Prod.mk.injEq] at h
    obtain ⟨rfl, rfl⟩ := h
    exact ⟨bs, hw, by simp [Stack.drop, hw]⟩

/-- A pop of the loop stack that is not refused found a word. -/
theorem popLoop_ok {s t : State} {w : LoopWord} (h : s.popLoop = .ok (w, t)) :
    ∃ ws, s.lpstk.words = w :: ws ∧ t = s.setLpstk { s.lpstk with words := ws } := by
  unfold State.popLoop at h
  split at h
  · cases h
  · rename_i b bs hw
    simp only [Except.ok.injEq, Prod.mk.injEq] at h
    obtain ⟨rfl, rfl⟩ := h
    exact ⟨bs, hw, by simp [Stack.drop, hw]⟩

/-- A pop of the status stack that is not refused found a word and restores it. -/
theorem popStatus_ok {s t : State} (h : s.popStatus = .ok t) :
    ∃ w ws, s.ststk.words = w :: ws ∧
      t = (s.setStstk { s.ststk with words := ws }).restoreStatus w := by
  unfold State.popStatus at h
  split at h
  · cases h
  · rename_i b bs hw
    simp only [Except.ok.injEq] at h
    exact ⟨b, bs, hw, by simp [← h, Stack.drop, hw]⟩

/-- A return from an interrupt that is not refused found a word on both stacks. -/
theorem returnFromInterrupt_ok {s t : State} {a : Addr} (h : returnFromInterrupt s = .ok (a, t)) :
    ∃ as w ws, s.pcstk.words = a :: as ∧ s.ststk.words = w :: ws ∧
      t = ((s.setPcstk { s.pcstk with words := as }).setStstk
        { s.ststk with words := ws }).restoreStatus w := by
  unfold returnFromInterrupt at h
  split at h
  · cases h
  · rename_i b u hp
    obtain ⟨as, hw, rfl⟩ := popPc_ok hp
    split at h
    · cases h
    · rename_i v hs
      obtain ⟨w, ws, hst, rfl⟩ := popStatus_ok hs
      simp only [Except.ok.injEq, Prod.mk.injEq] at h
      obtain ⟨rfl, rfl⟩ := h
      exact ⟨as, w, ws, hw, hst, rfl⟩

/-- The end of a loop word is in the top word of the loop stack. -/
theorem atLoopEnd_cons {s : State} (h : s.atLoopEnd = true) :
    ∃ w ws, s.lpstk.words = w :: ws ∧ w.fin = s.pc := by
  unfold State.atLoopEnd at h
  split at h
  · cases h
  · rename_i w ws hw
    exact ⟨w, ws, hw, by simpa using h⟩

/-! ## The count stack -/

/-- An expired counter touches nothing but the counter, the count stack and the counter of free values. -/
theorem expireCount_shape (s : State) :
    ∃ st c v f, s.expireCount = (((s.setCntstk st).setCntr c).setCntrValid v).setFreeTick f := by
  unfold State.expireCount
  split
  · rename_i v vs _
    exact ⟨s.cntstk.drop, v, s.cntrValid, s.freeTick, by apply State.ext <;> simp⟩
  · split
    · exact ⟨s.cntstk, s.cntr, false, s.freeTick, by apply State.ext <;> simp⟩
    · exact ⟨{ s.cntstk with lost := s.cntstk.lost - 1 }, Config.freeCount s.freeTick, s.cntrValid,
        s.freeTick + 1, by apply State.ext <;> simp⟩

section expireCount
variable (s : State)

@[simp] theorem State.expireCount_pc : s.expireCount.pc = s.pc := by
  obtain ⟨_, _, _, _, h⟩ := expireCount_shape s
  rw [h]; simp
@[simp] theorem State.expireCount_pcstk : s.expireCount.pcstk = s.pcstk := by
  obtain ⟨_, _, _, _, h⟩ := expireCount_shape s
  rw [h]; simp
@[simp] theorem State.expireCount_lpstk : s.expireCount.lpstk = s.lpstk := by
  obtain ⟨_, _, _, _, h⟩ := expireCount_shape s
  rw [h]; simp
@[simp] theorem State.expireCount_ststk : s.expireCount.ststk = s.ststk := by
  obtain ⟨_, _, _, _, h⟩ := expireCount_shape s
  rw [h]; simp
@[simp] theorem State.expireCount_astat : s.expireCount.astat = s.astat := by
  obtain ⟨_, _, _, _, h⟩ := expireCount_shape s
  rw [h]; simp
@[simp] theorem State.expireCount_mstat : s.expireCount.mstat = s.mstat := by
  obtain ⟨_, _, _, _, h⟩ := expireCount_shape s
  rw [h]; simp
@[simp] theorem State.expireCount_icntl : s.expireCount.icntl = s.icntl := by
  obtain ⟨_, _, _, _, h⟩ := expireCount_shape s
  rw [h]; simp
@[simp] theorem State.expireCount_imask : s.expireCount.imask = s.imask := by
  obtain ⟨_, _, _, _, h⟩ := expireCount_shape s
  rw [h]; simp
@[simp] theorem State.expireCount_intsEnabled : s.expireCount.intsEnabled = s.intsEnabled := by
  obtain ⟨_, _, _, _, h⟩ := expireCount_shape s
  rw [h]; simp
@[simp] theorem State.expireCount_req : s.expireCount.req = s.req := by
  obtain ⟨_, _, _, _, h⟩ := expireCount_shape s
  rw [h]; simp
@[simp] theorem State.expireCount_idle : s.expireCount.idle = s.idle := by
  obtain ⟨_, _, _, _, h⟩ := expireCount_shape s
  rw [h]; simp
@[simp] theorem State.expireCount_idleDiv : s.expireCount.idleDiv = s.idleDiv := by
  obtain ⟨_, _, _, _, h⟩ := expireCount_shape s
  rw [h]; simp
@[simp] theorem State.expireCount_imaskHoldoff : s.expireCount.imaskHoldoff = s.imaskHoldoff := by
  obtain ⟨_, _, _, _, h⟩ := expireCount_shape s
  rw [h]; simp
@[simp] theorem State.expireCount_icntlOld : s.expireCount.icntlOld = s.icntlOld := by
  obtain ⟨_, _, _, _, h⟩ := expireCount_shape s
  rw [h]; simp
@[simp] theorem State.expireCount_icntlDelay : s.expireCount.icntlDelay = s.icntlDelay := by
  obtain ⟨_, _, _, _, h⟩ := expireCount_shape s
  rw [h]; simp
@[simp] theorem State.expireCount_icntlKnown : s.expireCount.icntlKnown = s.icntlKnown := by
  obtain ⟨_, _, _, _, h⟩ := expireCount_shape s
  rw [h]; simp
@[simp] theorem State.expireCount_intsOld : s.expireCount.intsOld = s.intsOld := by
  obtain ⟨_, _, _, _, h⟩ := expireCount_shape s
  rw [h]; simp
@[simp] theorem State.expireCount_intsDelay : s.expireCount.intsDelay = s.intsDelay := by
  obtain ⟨_, _, _, _, h⟩ := expireCount_shape s
  rw [h]; simp
@[simp] theorem State.expireCount_prevKind : s.expireCount.prevKind = s.prevKind := by
  obtain ⟨_, _, _, _, h⟩ := expireCount_shape s
  rw [h]; simp
@[simp] theorem State.expireCount_prev2Kind : s.expireCount.prev2Kind = s.prev2Kind := by
  obtain ⟨_, _, _, _, h⟩ := expireCount_shape s
  rw [h]; simp
@[simp] theorem State.expireCount_primary : s.expireCount.primary = s.primary := by
  obtain ⟨_, _, _, _, h⟩ := expireCount_shape s
  rw [h]; simp
@[simp] theorem State.expireCount_shadow : s.expireCount.shadow = s.shadow := by
  obtain ⟨_, _, _, _, h⟩ := expireCount_shape s
  rw [h]; simp
@[simp] theorem State.expireCount_dag : s.expireCount.dag = s.dag := by
  obtain ⟨_, _, _, _, h⟩ := expireCount_shape s
  rw [h]; simp
@[simp] theorem State.expireCount_ports : s.expireCount.ports = s.ports := by
  obtain ⟨_, _, _, _, h⟩ := expireCount_shape s
  rw [h]; simp
@[simp] theorem State.expireCount_pm : s.expireCount.pm = s.pm := by
  obtain ⟨_, _, _, _, h⟩ := expireCount_shape s
  rw [h]; simp
@[simp] theorem State.expireCount_pmStored : s.expireCount.pmStored = s.pmStored := by
  obtain ⟨_, _, _, _, h⟩ := expireCount_shape s
  rw [h]; simp
@[simp] theorem State.expireCount_pins : s.expireCount.pins = s.pins := by
  obtain ⟨_, _, _, _, h⟩ := expireCount_shape s
  rw [h]; simp
@[simp] theorem State.expireCount_flagIn : s.expireCount.flagIn = s.flagIn := by
  obtain ⟨_, _, _, _, h⟩ := expireCount_shape s
  rw [h]; simp
@[simp] theorem State.expireCount_inputs : s.expireCount.inputs = s.inputs := by
  obtain ⟨_, _, _, _, h⟩ := expireCount_shape s
  rw [h]; simp
@[simp] theorem State.expireCount_cfg : s.expireCount.cfg = s.cfg := by
  obtain ⟨_, _, _, _, h⟩ := expireCount_shape s
  rw [h]; simp

end expireCount

/-- A pop of the count stack touches nothing but the counter, the count stack and the counter of free values. -/
theorem popCount_shape (s : State) :
    ∃ st c v f, s.popCount = (((s.setCntstk st).setCntr c).setCntrValid v).setFreeTick f := by
  unfold State.popCount
  split
  · rename_i v vs _
    exact ⟨s.cntstk.drop, v, s.cntrValid, s.freeTick, by apply State.ext <;> simp⟩
  · exact ⟨_, _, _, _, rfl⟩

section popCount
variable (s : State)

@[simp] theorem State.popCount_pc : s.popCount.pc = s.pc := by
  obtain ⟨_, _, _, _, h⟩ := popCount_shape s
  rw [h]; simp
@[simp] theorem State.popCount_pcstk : s.popCount.pcstk = s.pcstk := by
  obtain ⟨_, _, _, _, h⟩ := popCount_shape s
  rw [h]; simp
@[simp] theorem State.popCount_lpstk : s.popCount.lpstk = s.lpstk := by
  obtain ⟨_, _, _, _, h⟩ := popCount_shape s
  rw [h]; simp
@[simp] theorem State.popCount_ststk : s.popCount.ststk = s.ststk := by
  obtain ⟨_, _, _, _, h⟩ := popCount_shape s
  rw [h]; simp
@[simp] theorem State.popCount_astat : s.popCount.astat = s.astat := by
  obtain ⟨_, _, _, _, h⟩ := popCount_shape s
  rw [h]; simp
@[simp] theorem State.popCount_mstat : s.popCount.mstat = s.mstat := by
  obtain ⟨_, _, _, _, h⟩ := popCount_shape s
  rw [h]; simp
@[simp] theorem State.popCount_icntl : s.popCount.icntl = s.icntl := by
  obtain ⟨_, _, _, _, h⟩ := popCount_shape s
  rw [h]; simp
@[simp] theorem State.popCount_imask : s.popCount.imask = s.imask := by
  obtain ⟨_, _, _, _, h⟩ := popCount_shape s
  rw [h]; simp
@[simp] theorem State.popCount_intsEnabled : s.popCount.intsEnabled = s.intsEnabled := by
  obtain ⟨_, _, _, _, h⟩ := popCount_shape s
  rw [h]; simp
@[simp] theorem State.popCount_req : s.popCount.req = s.req := by
  obtain ⟨_, _, _, _, h⟩ := popCount_shape s
  rw [h]; simp
@[simp] theorem State.popCount_idle : s.popCount.idle = s.idle := by
  obtain ⟨_, _, _, _, h⟩ := popCount_shape s
  rw [h]; simp
@[simp] theorem State.popCount_idleDiv : s.popCount.idleDiv = s.idleDiv := by
  obtain ⟨_, _, _, _, h⟩ := popCount_shape s
  rw [h]; simp
@[simp] theorem State.popCount_imaskHoldoff : s.popCount.imaskHoldoff = s.imaskHoldoff := by
  obtain ⟨_, _, _, _, h⟩ := popCount_shape s
  rw [h]; simp
@[simp] theorem State.popCount_icntlOld : s.popCount.icntlOld = s.icntlOld := by
  obtain ⟨_, _, _, _, h⟩ := popCount_shape s
  rw [h]; simp
@[simp] theorem State.popCount_icntlDelay : s.popCount.icntlDelay = s.icntlDelay := by
  obtain ⟨_, _, _, _, h⟩ := popCount_shape s
  rw [h]; simp
@[simp] theorem State.popCount_icntlKnown : s.popCount.icntlKnown = s.icntlKnown := by
  obtain ⟨_, _, _, _, h⟩ := popCount_shape s
  rw [h]; simp
@[simp] theorem State.popCount_intsOld : s.popCount.intsOld = s.intsOld := by
  obtain ⟨_, _, _, _, h⟩ := popCount_shape s
  rw [h]; simp
@[simp] theorem State.popCount_intsDelay : s.popCount.intsDelay = s.intsDelay := by
  obtain ⟨_, _, _, _, h⟩ := popCount_shape s
  rw [h]; simp
@[simp] theorem State.popCount_prevKind : s.popCount.prevKind = s.prevKind := by
  obtain ⟨_, _, _, _, h⟩ := popCount_shape s
  rw [h]; simp
@[simp] theorem State.popCount_prev2Kind : s.popCount.prev2Kind = s.prev2Kind := by
  obtain ⟨_, _, _, _, h⟩ := popCount_shape s
  rw [h]; simp
@[simp] theorem State.popCount_primary : s.popCount.primary = s.primary := by
  obtain ⟨_, _, _, _, h⟩ := popCount_shape s
  rw [h]; simp
@[simp] theorem State.popCount_shadow : s.popCount.shadow = s.shadow := by
  obtain ⟨_, _, _, _, h⟩ := popCount_shape s
  rw [h]; simp
@[simp] theorem State.popCount_dag : s.popCount.dag = s.dag := by
  obtain ⟨_, _, _, _, h⟩ := popCount_shape s
  rw [h]; simp
@[simp] theorem State.popCount_ports : s.popCount.ports = s.ports := by
  obtain ⟨_, _, _, _, h⟩ := popCount_shape s
  rw [h]; simp
@[simp] theorem State.popCount_pm : s.popCount.pm = s.pm := by
  obtain ⟨_, _, _, _, h⟩ := popCount_shape s
  rw [h]; simp
@[simp] theorem State.popCount_pmStored : s.popCount.pmStored = s.pmStored := by
  obtain ⟨_, _, _, _, h⟩ := popCount_shape s
  rw [h]; simp
@[simp] theorem State.popCount_pins : s.popCount.pins = s.pins := by
  obtain ⟨_, _, _, _, h⟩ := popCount_shape s
  rw [h]; simp
@[simp] theorem State.popCount_flagIn : s.popCount.flagIn = s.flagIn := by
  obtain ⟨_, _, _, _, h⟩ := popCount_shape s
  rw [h]; simp
@[simp] theorem State.popCount_inputs : s.popCount.inputs = s.inputs := by
  obtain ⟨_, _, _, _, h⟩ := popCount_shape s
  rw [h]; simp
@[simp] theorem State.popCount_cfg : s.popCount.cfg = s.cfg := by
  obtain ⟨_, _, _, _, h⟩ := popCount_shape s
  rw [h]; simp

end popCount

/-! ## The end of a step -/

/-- A change of one source's sensitivity touches nothing but the latches and the counter of free values. -/
theorem resense_shape (o n : BitVec 5) (s : State) (k : Source) :
    ∃ r f, State.resense o n s k = (s.setReq r).setFreeTick f := by
  simp only [State.resense]
  split_ifs
  · exact ⟨_, _, rfl⟩
  · exact ⟨s.req, s.freeTick, rfl⟩
  · exact ⟨_, _, rfl⟩
  · exact ⟨s.req, s.freeTick, rfl⟩

/-- The request of a source under an interrupt configuration. -/
def requestUnder (s : State) (icntl : BitVec 5) (k : Source) : Bool :=
  if edgeUnder s.cfg icntl k then s.req.get k else s.pins.get k

/-- A change of one source's sensitivity leaves the other latches, and its own if it changes nothing or no
request is present. -/
theorem resense_req (o n : BitVec 5) (s : State) (k j : Source) :
    (State.resense o n s k).req.get j = s.req.get j ∨
      (j = k ∧ edgeUnder s.cfg o j ≠ edgeUnder s.cfg n j ∧ requestUnder s o j = true) := by
  by_cases hj : j = k
  · subst hj
    simp only [State.resense, requestUnder]
    split_ifs with h1 h2 h2
    all_goals first
      | exact .inl rfl
      | (right; simp_all)
  · left
    simp only [State.resense]
    split_ifs <;> simp [get_set, hj]

/-- A change of sensitivity touches nothing but the latches and the counter of free values; and of the
latches those whose sensitivity changes while their request is present. -/
theorem foldl_resense (o n : BitVec 5) (l : List Source) (s : State) :
    ∃ r f, l.foldl (State.resense o n) s = (s.setReq r).setFreeTick f ∧
      ∀ j, r.get j = s.req.get j ∨
        (edgeUnder s.cfg o j ≠ edgeUnder s.cfg n j ∧ requestUnder s o j = true) := by
  induction l generalizing s with
  | nil => exact ⟨s.req, s.freeTick, rfl, fun _ => .inl rfl⟩
  | cons k l ih =>
    simp only [List.foldl_cons]
    obtain ⟨r, f, he, hr⟩ := ih (State.resense o n s k)
    have hs := resense_req o n s k
    obtain ⟨r', f', h'⟩ := resense_shape o n s k
    refine ⟨r, f, by rw [he, h']; rfl, fun j => ?_⟩
    rw [h'] at hr hs
    rcases hr j with h | ⟨h, g⟩
    · rcases hs j with h2 | ⟨-, h2⟩
      · exact .inl (h.trans h2)
      · exact .inr h2
    · rcases hs j with h2 | ⟨-, h2⟩
      · refine .inr ⟨h, ?_⟩
        simp only [requestUnder, State.setFreeTick_cfg, State.setReq_cfg, State.setFreeTick_req,
          State.setFreeTick_pins, State.setReq_pins] at g h2 ⊢
        rwa [h2] at g
      · exact .inr h2

/-- All that the end of a step changes (70_reset_and_hazards.md R302, R303). -/
theorem endOfStep_shape (k : Kind) (s : State) :
    ∃ r f, endOfStep k s = ((((((s.setHoldoff (s.imaskHoldoff - 1)).setIcntl s.icntl
        (if s.icntlDelay = 1 then s.icntl else s.icntlOld) (s.icntlDelay - 1)).setIcntlKnown
        (if s.icntlDelay = 1 then true else s.icntlKnown)).setInts s.intsEnabled
        (if s.intsDelay = 1 then s.intsEnabled else s.intsOld) (s.intsDelay - 1)).setKinds k
        s.prevKind).setReq r).setFreeTick f ∧
      (∀ j, r.get j = s.req.get j ∨
        (s.icntlDelay = 1 ∧ edgeUnder s.cfg s.icntlOld j ≠ edgeUnder s.cfg s.icntl j ∧
          requestUnder s s.icntlOld j = true)) ∧
      (s.icntlDelay ≠ 1 → r = s.req ∧ f = s.freeTick) := by
  unfold endOfStep State.ageIcntl State.ageInts
  simp only [State.setHoldoff_icntl, State.setHoldoff_icntlDelay,
    State.setHoldoff_icntlOld]
  by_cases h : s.icntlDelay = 1
  · simp only [h, if_true]
    obtain ⟨r, f, he, hr⟩ := foldl_resense s.icntlOld s.icntl sensedSources
      (((s.setHoldoff (s.imaskHoldoff - 1)).setIcntl s.icntl s.icntl 0).setIcntlKnown true)
    refine ⟨r, f, by rw [he]; apply State.ext <;> simp ; rfl, fun j => ?_, by simp⟩
    have hj := hr j
    simp only [requestUnder, State.setIcntlKnown_req, State.setIcntl_req, State.setHoldoff_req,
      State.setIcntlKnown_pins, State.setIcntl_pins, State.setHoldoff_pins, State.setIcntlKnown_cfg,
      State.setIcntl_cfg, State.setHoldoff_cfg] at hj ⊢
    exact hj.imp_right fun h => ⟨trivial, h⟩
  · simp only [h, if_false]
    exact ⟨s.req, s.freeTick, rfl, fun _ => .inl rfl, fun _ => ⟨rfl, rfl⟩⟩

/-- The end of a step keeps `pc`. -/
@[simp] theorem endOfStep_pc (k : Kind) (s : State) : (endOfStep k s).pc = s.pc := by
  obtain ⟨r, f, h, -⟩ := endOfStep_shape k s
  rw [h]; simp

/-- The end of a step keeps `pcstk`. -/
@[simp] theorem endOfStep_pcstk (k : Kind) (s : State) : (endOfStep k s).pcstk = s.pcstk := by
  obtain ⟨r, f, h, -⟩ := endOfStep_shape k s
  rw [h]; simp

/-- The end of a step keeps `cntstk`. -/
@[simp] theorem endOfStep_cntstk (k : Kind) (s : State) : (endOfStep k s).cntstk = s.cntstk := by
  obtain ⟨r, f, h, -⟩ := endOfStep_shape k s
  rw [h]; simp

/-- The end of a step keeps `lpstk`. -/
@[simp] theorem endOfStep_lpstk (k : Kind) (s : State) : (endOfStep k s).lpstk = s.lpstk := by
  obtain ⟨r, f, h, -⟩ := endOfStep_shape k s
  rw [h]; simp

/-- The end of a step keeps `ststk`. -/
@[simp] theorem endOfStep_ststk (k : Kind) (s : State) : (endOfStep k s).ststk = s.ststk := by
  obtain ⟨r, f, h, -⟩ := endOfStep_shape k s
  rw [h]; simp

/-- The end of a step keeps `cntr`. -/
@[simp] theorem endOfStep_cntr (k : Kind) (s : State) : (endOfStep k s).cntr = s.cntr := by
  obtain ⟨r, f, h, -⟩ := endOfStep_shape k s
  rw [h]; simp

/-- The end of a step keeps `cntrValid`. -/
@[simp] theorem endOfStep_cntrValid (k : Kind) (s : State) : (endOfStep k s).cntrValid = s.cntrValid := by
  obtain ⟨r, f, h, -⟩ := endOfStep_shape k s
  rw [h]; simp

/-- The end of a step keeps `astat`. -/
@[simp] theorem endOfStep_astat (k : Kind) (s : State) : (endOfStep k s).astat = s.astat := by
  obtain ⟨r, f, h, -⟩ := endOfStep_shape k s
  rw [h]; simp

/-- The end of a step keeps `mstat`. -/
@[simp] theorem endOfStep_mstat (k : Kind) (s : State) : (endOfStep k s).mstat = s.mstat := by
  obtain ⟨r, f, h, -⟩ := endOfStep_shape k s
  rw [h]; simp

/-- The end of a step keeps `icntl`. -/
@[simp] theorem endOfStep_icntl (k : Kind) (s : State) : (endOfStep k s).icntl = s.icntl := by
  obtain ⟨r, f, h, -⟩ := endOfStep_shape k s
  rw [h]; simp

/-- The end of a step keeps `imask`. -/
@[simp] theorem endOfStep_imask (k : Kind) (s : State) : (endOfStep k s).imask = s.imask := by
  obtain ⟨r, f, h, -⟩ := endOfStep_shape k s
  rw [h]; simp

/-- The end of a step keeps `intsEnabled`. -/
@[simp] theorem endOfStep_intsEnabled (k : Kind) (s : State) : (endOfStep k s).intsEnabled = s.intsEnabled := by
  obtain ⟨r, f, h, -⟩ := endOfStep_shape k s
  rw [h]; simp

/-- The end of a step keeps `idle`. -/
@[simp] theorem endOfStep_idle (k : Kind) (s : State) : (endOfStep k s).idle = s.idle := by
  obtain ⟨r, f, h, -⟩ := endOfStep_shape k s
  rw [h]; simp

/-- The end of a step keeps `idleDiv`. -/
@[simp] theorem endOfStep_idleDiv (k : Kind) (s : State) : (endOfStep k s).idleDiv = s.idleDiv := by
  obtain ⟨r, f, h, -⟩ := endOfStep_shape k s
  rw [h]; simp

/-- The end of a step keeps `primary`. -/
@[simp] theorem endOfStep_primary (k : Kind) (s : State) : (endOfStep k s).primary = s.primary := by
  obtain ⟨r, f, h, -⟩ := endOfStep_shape k s
  rw [h]; simp

/-- The end of a step keeps `shadow`. -/
@[simp] theorem endOfStep_shadow (k : Kind) (s : State) : (endOfStep k s).shadow = s.shadow := by
  obtain ⟨r, f, h, -⟩ := endOfStep_shape k s
  rw [h]; simp

/-- The end of a step keeps `dag`. -/
@[simp] theorem endOfStep_dag (k : Kind) (s : State) : (endOfStep k s).dag = s.dag := by
  obtain ⟨r, f, h, -⟩ := endOfStep_shape k s
  rw [h]; simp

/-- The end of a step keeps `ports`. -/
@[simp] theorem endOfStep_ports (k : Kind) (s : State) : (endOfStep k s).ports = s.ports := by
  obtain ⟨r, f, h, -⟩ := endOfStep_shape k s
  rw [h]; simp

/-- The end of a step keeps `pm`. -/
@[simp] theorem endOfStep_pm (k : Kind) (s : State) : (endOfStep k s).pm = s.pm := by
  obtain ⟨r, f, h, -⟩ := endOfStep_shape k s
  rw [h]; simp

/-- The end of a step keeps `pmStored`. -/
@[simp] theorem endOfStep_pmStored (k : Kind) (s : State) : (endOfStep k s).pmStored = s.pmStored := by
  obtain ⟨r, f, h, -⟩ := endOfStep_shape k s
  rw [h]; simp

/-- The end of a step keeps `pins`. -/
@[simp] theorem endOfStep_pins (k : Kind) (s : State) : (endOfStep k s).pins = s.pins := by
  obtain ⟨r, f, h, -⟩ := endOfStep_shape k s
  rw [h]; simp

/-- The end of a step keeps `flagIn`. -/
@[simp] theorem endOfStep_flagIn (k : Kind) (s : State) : (endOfStep k s).flagIn = s.flagIn := by
  obtain ⟨r, f, h, -⟩ := endOfStep_shape k s
  rw [h]; simp

/-- The end of a step keeps `inputs`. -/
@[simp] theorem endOfStep_inputs (k : Kind) (s : State) : (endOfStep k s).inputs = s.inputs := by
  obtain ⟨r, f, h, -⟩ := endOfStep_shape k s
  rw [h]; simp

/-- The end of a step keeps `cfg`. -/
@[simp] theorem endOfStep_cfg (k : Kind) (s : State) : (endOfStep k s).cfg = s.cfg := by
  obtain ⟨r, f, h, -⟩ := endOfStep_shape k s
  rw [h]; simp

/-- The end of a step counts the hold-off down. -/
@[simp] theorem endOfStep_imaskHoldoff (k : Kind) (s : State) :
    (endOfStep k s).imaskHoldoff = s.imaskHoldoff - 1 := by
  obtain ⟨r, f, h, -⟩ := endOfStep_shape k s
  rw [h]; simp

/-- The end of a step counts the delay of ICNTL down. -/
@[simp] theorem endOfStep_icntlDelay (k : Kind) (s : State) :
    (endOfStep k s).icntlDelay = s.icntlDelay - 1 := by
  obtain ⟨r, f, h, -⟩ := endOfStep_shape k s
  rw [h]; simp

/-- The end of a step brings a new interrupt configuration into force when its delay ends. -/
@[simp] theorem endOfStep_icntlOld (k : Kind) (s : State) :
    (endOfStep k s).icntlOld = if s.icntlDelay = 1 then s.icntl else s.icntlOld := by
  obtain ⟨r, f, h, -⟩ := endOfStep_shape k s
  rw [h]; simp

/-- The end of a step makes the configuration known when its delay ends. -/
@[simp] theorem endOfStep_icntlKnown (k : Kind) (s : State) :
    (endOfStep k s).icntlKnown = if s.icntlDelay = 1 then true else s.icntlKnown := by
  obtain ⟨r, f, h, -⟩ := endOfStep_shape k s
  rw [h]; simp

/-- The end of a step counts the delay of the global enable down. -/
@[simp] theorem endOfStep_intsDelay (k : Kind) (s : State) :
    (endOfStep k s).intsDelay = s.intsDelay - 1 := by
  obtain ⟨r, f, h, -⟩ := endOfStep_shape k s
  rw [h]; simp

/-- The end of a step brings a new global enable into force when its delay ends. -/
@[simp] theorem endOfStep_intsOld (k : Kind) (s : State) :
    (endOfStep k s).intsOld = if s.intsDelay = 1 then s.intsEnabled else s.intsOld := by
  obtain ⟨r, f, h, -⟩ := endOfStep_shape k s
  rw [h]; simp

/-- The end of a step records the kind of the step. -/
@[simp] theorem endOfStep_prevKind (k : Kind) (s : State) : (endOfStep k s).prevKind = k := by
  obtain ⟨r, f, h, -⟩ := endOfStep_shape k s
  rw [h]; simp

/-- The end of a step keeps the kind of the step before. -/
@[simp] theorem endOfStep_prev2Kind (k : Kind) (s : State) :
    (endOfStep k s).prev2Kind = s.prevKind := by
  obtain ⟨r, f, h, -⟩ := endOfStep_shape k s
  rw [h]; simp

/-- The end of a step changes no latch but, when an interrupt configuration comes into force, that of a
source whose sensitivity changes while its request is present (U13). -/
theorem endOfStep_req (k : Kind) (s : State) (j : Source) :
    (endOfStep k s).req.get j = s.req.get j ∨
      (s.icntlDelay = 1 ∧ s.edge j ≠ edgeUnder s.cfg s.icntl j ∧ s.requested j = true) := by
  obtain ⟨r, f, h, hr, -⟩ := endOfStep_shape k s
  rw [h]
  rcases hr j with hj | ⟨h1, h2, h3⟩
  · exact .inl hj
  · have he : s.icntlEff = s.icntlOld := by simp [State.icntlEff, h1]
    refine .inr ⟨h1, ?_, ?_⟩
    · simpa only [State.edge, he] using h2
    · simpa only [State.requested, State.edge, he, requestUnder] using h3

/-! ## Stores of the instructions outside the spec -/

/-- The record of a store touches nothing but itself. -/
theorem noteStore_shape (s : State) (a : Option Addr) : ∃ l, s.noteStore a = s.setPmStored l := by
  unfold State.noteStore
  split
  · exact ⟨s.pmStored, rfl⟩
  · split
    · exact ⟨s.pmStored, rfl⟩
    · exact ⟨_, rfl⟩

/-! ## Inputs -/

/-- An input changes nothing but the latches, the pins, the FI pin and the device registers. -/
theorem applyInput_shape (s : State) (i : Input) :
    ∃ r p f d, applyInput s i = (((s.setReq r).setPins p).setFlagIn f).setPorts d := by
  cases i with
  | reset => exact ⟨s.req, s.pins, s.flagIn, s.ports, by simp [applyInput]⟩
  | event k =>
    simp only [applyInput]
    split
    · exact ⟨s.req.set k true, s.pins, s.flagIn, s.ports, by apply State.ext <;> simp [State.latch]⟩
    · exact ⟨s.req, s.pins, s.flagIn, s.ports, by simp⟩
  | pin k low =>
    simp only [applyInput]
    split
    · split
      · exact ⟨s.req.set k true, s.pins.set k low, s.flagIn, s.ports, by apply State.ext <;> simp [State.latch]⟩
      · exact ⟨s.req, s.pins.set k low, s.flagIn, s.ports, by apply State.ext <;> simp⟩
    · exact ⟨s.req, s.pins, s.flagIn, s.ports, by simp⟩
  | flagIn v => exact ⟨s.req, s.pins, v, s.ports, by apply State.ext <;> simp [applyInput]⟩
  | port r v => exact ⟨s.req, s.pins, s.flagIn, s.ports.put r v, by simp [applyInput]⟩

/-- A list of inputs changes no more than one input does. -/
theorem foldl_applyInput (l : List Input) (s : State) :
    ∃ r p f d, l.foldl applyInput s = (((s.setReq r).setPins p).setFlagIn f).setPorts d := by
  induction l generalizing s with
  | nil => exact ⟨s.req, s.pins, s.flagIn, s.ports, by simp⟩
  | cons i l ih =>
    obtain ⟨r, p, f, d, h⟩ := applyInput_shape s i
    obtain ⟨r', p', f', d', h'⟩ := ih (applyInput s i)
    exact ⟨r', p', f', d', by rw [List.foldl_cons, h', h]; apply State.ext <;> simp⟩

/-- The inputs before a step change no register of the sequencer. -/
theorem takeInputs_shape (s : State) :
    ∃ l r p f d, s.takeInputs = ((((s.setInputs l).setReq r).setPins p).setFlagIn f).setPorts d := by
  unfold State.takeInputs
  split
  · exact ⟨s.inputs, s.req, s.pins, s.flagIn, s.ports, by simp⟩
  · rename_i b rest _
    obtain ⟨r, p, f, d, h⟩ := foldl_applyInput b (s.setInputs rest)
    exact ⟨rest, r, p, f, d, h⟩

section takeInputs
variable (s : State)

@[simp] theorem State.takeInputs_pc : s.takeInputs.pc = s.pc := by
  obtain ⟨_, _, _, _, _, h⟩ := takeInputs_shape s
  rw [h]; simp
@[simp] theorem State.takeInputs_pcstk : s.takeInputs.pcstk = s.pcstk := by
  obtain ⟨_, _, _, _, _, h⟩ := takeInputs_shape s
  rw [h]; simp
@[simp] theorem State.takeInputs_cntstk : s.takeInputs.cntstk = s.cntstk := by
  obtain ⟨_, _, _, _, _, h⟩ := takeInputs_shape s
  rw [h]; simp
@[simp] theorem State.takeInputs_lpstk : s.takeInputs.lpstk = s.lpstk := by
  obtain ⟨_, _, _, _, _, h⟩ := takeInputs_shape s
  rw [h]; simp
@[simp] theorem State.takeInputs_ststk : s.takeInputs.ststk = s.ststk := by
  obtain ⟨_, _, _, _, _, h⟩ := takeInputs_shape s
  rw [h]; simp
@[simp] theorem State.takeInputs_cntr : s.takeInputs.cntr = s.cntr := by
  obtain ⟨_, _, _, _, _, h⟩ := takeInputs_shape s
  rw [h]; simp
@[simp] theorem State.takeInputs_cntrValid : s.takeInputs.cntrValid = s.cntrValid := by
  obtain ⟨_, _, _, _, _, h⟩ := takeInputs_shape s
  rw [h]; simp
@[simp] theorem State.takeInputs_astat : s.takeInputs.astat = s.astat := by
  obtain ⟨_, _, _, _, _, h⟩ := takeInputs_shape s
  rw [h]; simp
@[simp] theorem State.takeInputs_mstat : s.takeInputs.mstat = s.mstat := by
  obtain ⟨_, _, _, _, _, h⟩ := takeInputs_shape s
  rw [h]; simp
@[simp] theorem State.takeInputs_icntl : s.takeInputs.icntl = s.icntl := by
  obtain ⟨_, _, _, _, _, h⟩ := takeInputs_shape s
  rw [h]; simp
@[simp] theorem State.takeInputs_imask : s.takeInputs.imask = s.imask := by
  obtain ⟨_, _, _, _, _, h⟩ := takeInputs_shape s
  rw [h]; simp
@[simp] theorem State.takeInputs_intsEnabled : s.takeInputs.intsEnabled = s.intsEnabled := by
  obtain ⟨_, _, _, _, _, h⟩ := takeInputs_shape s
  rw [h]; simp
@[simp] theorem State.takeInputs_idle : s.takeInputs.idle = s.idle := by
  obtain ⟨_, _, _, _, _, h⟩ := takeInputs_shape s
  rw [h]; simp
@[simp] theorem State.takeInputs_idleDiv : s.takeInputs.idleDiv = s.idleDiv := by
  obtain ⟨_, _, _, _, _, h⟩ := takeInputs_shape s
  rw [h]; simp
@[simp] theorem State.takeInputs_imaskHoldoff : s.takeInputs.imaskHoldoff = s.imaskHoldoff := by
  obtain ⟨_, _, _, _, _, h⟩ := takeInputs_shape s
  rw [h]; simp
@[simp] theorem State.takeInputs_icntlOld : s.takeInputs.icntlOld = s.icntlOld := by
  obtain ⟨_, _, _, _, _, h⟩ := takeInputs_shape s
  rw [h]; simp
@[simp] theorem State.takeInputs_icntlDelay : s.takeInputs.icntlDelay = s.icntlDelay := by
  obtain ⟨_, _, _, _, _, h⟩ := takeInputs_shape s
  rw [h]; simp
@[simp] theorem State.takeInputs_icntlKnown : s.takeInputs.icntlKnown = s.icntlKnown := by
  obtain ⟨_, _, _, _, _, h⟩ := takeInputs_shape s
  rw [h]; simp
@[simp] theorem State.takeInputs_intsOld : s.takeInputs.intsOld = s.intsOld := by
  obtain ⟨_, _, _, _, _, h⟩ := takeInputs_shape s
  rw [h]; simp
@[simp] theorem State.takeInputs_intsDelay : s.takeInputs.intsDelay = s.intsDelay := by
  obtain ⟨_, _, _, _, _, h⟩ := takeInputs_shape s
  rw [h]; simp
@[simp] theorem State.takeInputs_prevKind : s.takeInputs.prevKind = s.prevKind := by
  obtain ⟨_, _, _, _, _, h⟩ := takeInputs_shape s
  rw [h]; simp
@[simp] theorem State.takeInputs_prev2Kind : s.takeInputs.prev2Kind = s.prev2Kind := by
  obtain ⟨_, _, _, _, _, h⟩ := takeInputs_shape s
  rw [h]; simp
@[simp] theorem State.takeInputs_primary : s.takeInputs.primary = s.primary := by
  obtain ⟨_, _, _, _, _, h⟩ := takeInputs_shape s
  rw [h]; simp
@[simp] theorem State.takeInputs_shadow : s.takeInputs.shadow = s.shadow := by
  obtain ⟨_, _, _, _, _, h⟩ := takeInputs_shape s
  rw [h]; simp
@[simp] theorem State.takeInputs_dag : s.takeInputs.dag = s.dag := by
  obtain ⟨_, _, _, _, _, h⟩ := takeInputs_shape s
  rw [h]; simp
@[simp] theorem State.takeInputs_pm : s.takeInputs.pm = s.pm := by
  obtain ⟨_, _, _, _, _, h⟩ := takeInputs_shape s
  rw [h]; simp
@[simp] theorem State.takeInputs_pmStored : s.takeInputs.pmStored = s.pmStored := by
  obtain ⟨_, _, _, _, _, h⟩ := takeInputs_shape s
  rw [h]; simp
@[simp] theorem State.takeInputs_cfg : s.takeInputs.cfg = s.cfg := by
  obtain ⟨_, _, _, _, _, h⟩ := takeInputs_shape s
  rw [h]; simp
@[simp] theorem State.takeInputs_freeTick : s.takeInputs.freeTick = s.freeTick := by
  obtain ⟨_, _, _, _, _, h⟩ := takeInputs_shape s
  rw [h]; simp

end takeInputs

/-! ## Taking an interrupt -/

/-- All that an interrupt entry changes (60_exceptions.md R260). -/
theorem takeInterrupt_shape (k : Source) (s : State) :
    takeInterrupt k s = (((((s.setPcstk (s.pcstk.push pcDepth s.pc)).setStstk
      (s.ststk.push s.cfg.statusDepth ⟨s.astat, s.mstat, s.imask⟩)).setImask
      (imaskAfter (s.icntlEff.getLsbD 4) (level s.cfg.proc k) s.imask)).setReq
      (if s.edge k then s.req.set k false else s.req)).setPc (vector s.cfg.proc k)) := by
  simp only [takeInterrupt, State.pushPc, State.pushStatus]
  cases s.edge k <;> apply State.ext <;> simp

end Sys2Proof.Machine
end

