-- ==== Sys2Proof/Laws/Operands.lean ====
section
/-! SUPPORT. What the operands of the moves can do, said once for each. -/

namespace Sys2Proof.Machine

/-! ## The register banks -/

/-- The active bank after it was replaced. -/
@[simp] theorem bank_setBank (s : State) (b : Bank) : (s.setBank b).bank = b := by
  unfold State.setBank State.bank
  split <;> simp_all

@[simp] theorem State.setBank_dag (s : State) (b : Bank) : (s.setBank b).dag = s.dag := by
  unfold State.setBank
  split <;> rfl

@[simp] theorem State.setBank_ports (s : State) (b : Bank) : (s.setBank b).ports = s.ports := by
  unfold State.setBank
  split <;> rfl

@[simp] theorem State.setBank_pc (s : State) (b : Bank) : (s.setBank b).pc = s.pc := by
  unfold State.setBank
  split <;> rfl

@[simp] theorem State.setBank_pcstk (s : State) (b : Bank) : (s.setBank b).pcstk = s.pcstk := by
  unfold State.setBank
  split <;> rfl

@[simp] theorem State.setBank_cntstk (s : State) (b : Bank) : (s.setBank b).cntstk = s.cntstk := by
  unfold State.setBank
  split <;> rfl

@[simp] theorem State.setBank_lpstk (s : State) (b : Bank) : (s.setBank b).lpstk = s.lpstk := by
  unfold State.setBank
  split <;> rfl

@[simp] theorem State.setBank_ststk (s : State) (b : Bank) : (s.setBank b).ststk = s.ststk := by
  unfold State.setBank
  split <;> rfl

@[simp] theorem State.setBank_cntr (s : State) (b : Bank) : (s.setBank b).cntr = s.cntr := by
  unfold State.setBank
  split <;> rfl

@[simp] theorem State.setBank_cntrValid (s : State) (b : Bank) : (s.setBank b).cntrValid = s.cntrValid := by
  unfold State.setBank
  split <;> rfl

@[simp] theorem State.setBank_astat (s : State) (b : Bank) : (s.setBank b).astat = s.astat := by
  unfold State.setBank
  split <;> rfl

@[simp] theorem State.setBank_mstat (s : State) (b : Bank) : (s.setBank b).mstat = s.mstat := by
  unfold State.setBank
  split <;> rfl

@[simp] theorem State.setBank_icntl (s : State) (b : Bank) : (s.setBank b).icntl = s.icntl := by
  unfold State.setBank
  split <;> rfl

@[simp] theorem State.setBank_imask (s : State) (b : Bank) : (s.setBank b).imask = s.imask := by
  unfold State.setBank
  split <;> rfl

@[simp] theorem State.setBank_intsEnabled (s : State) (b : Bank) : (s.setBank b).intsEnabled = s.intsEnabled := by
  unfold State.setBank
  split <;> rfl

@[simp] theorem State.setBank_req (s : State) (b : Bank) : (s.setBank b).req = s.req := by
  unfold State.setBank
  split <;> rfl

@[simp] theorem State.setBank_idle (s : State) (b : Bank) : (s.setBank b).idle = s.idle := by
  unfold State.setBank
  split <;> rfl

@[simp] theorem State.setBank_idleDiv (s : State) (b : Bank) : (s.setBank b).idleDiv = s.idleDiv := by
  unfold State.setBank
  split <;> rfl

@[simp] theorem State.setBank_imaskHoldoff (s : State) (b : Bank) : (s.setBank b).imaskHoldoff = s.imaskHoldoff := by
  unfold State.setBank
  split <;> rfl

@[simp] theorem State.setBank_icntlOld (s : State) (b : Bank) : (s.setBank b).icntlOld = s.icntlOld := by
  unfold State.setBank
  split <;> rfl

@[simp] theorem State.setBank_icntlDelay (s : State) (b : Bank) : (s.setBank b).icntlDelay = s.icntlDelay := by
  unfold State.setBank
  split <;> rfl

@[simp] theorem State.setBank_icntlKnown (s : State) (b : Bank) : (s.setBank b).icntlKnown = s.icntlKnown := by
  unfold State.setBank
  split <;> rfl

@[simp] theorem State.setBank_intsOld (s : State) (b : Bank) : (s.setBank b).intsOld = s.intsOld := by
  unfold State.setBank
  split <;> rfl

@[simp] theorem State.setBank_intsDelay (s : State) (b : Bank) : (s.setBank b).intsDelay = s.intsDelay := by
  unfold State.setBank
  split <;> rfl

@[simp] theorem State.setBank_prevKind (s : State) (b : Bank) : (s.setBank b).prevKind = s.prevKind := by
  unfold State.setBank
  split <;> rfl

@[simp] theorem State.setBank_prev2Kind (s : State) (b : Bank) : (s.setBank b).prev2Kind = s.prev2Kind := by
  unfold State.setBank
  split <;> rfl

@[simp] theorem State.setBank_pm (s : State) (b : Bank) : (s.setBank b).pm = s.pm := by
  unfold State.setBank
  split <;> rfl

@[simp] theorem State.setBank_pmStored (s : State) (b : Bank) : (s.setBank b).pmStored = s.pmStored := by
  unfold State.setBank
  split <;> rfl

@[simp] theorem State.setBank_pins (s : State) (b : Bank) : (s.setBank b).pins = s.pins := by
  unfold State.setBank
  split <;> rfl

@[simp] theorem State.setBank_flagIn (s : State) (b : Bank) : (s.setBank b).flagIn = s.flagIn := by
  unfold State.setBank
  split <;> rfl

@[simp] theorem State.setBank_inputs (s : State) (b : Bank) : (s.setBank b).inputs = s.inputs := by
  unfold State.setBank
  split <;> rfl

@[simp] theorem State.setBank_cfg (s : State) (b : Bank) : (s.setBank b).cfg = s.cfg := by
  unfold State.setBank
  split <;> rfl

@[simp] theorem State.setBank_freeTick (s : State) (b : Bank) : (s.setBank b).freeTick = s.freeTick := by
  unfold State.setBank
  split <;> rfl

@[simp] theorem bank_setDag (s : State) (d : Dag) : (s.setDag d).bank = s.bank := rfl

@[simp] theorem bank_setPorts (s : State) (p : Ports) : (s.setPorts p).bank = s.bank := rfl

/-- Replacing the active bank leaves the other one. -/
theorem setBank_shape (s : State) (b : Bank) :
    ∃ p q, s.setBank b = s.setBanks p q ∧ (s.mstat.getLsbD 0 = true → p = s.primary) ∧
      (s.mstat.getLsbD 0 = false → q = s.shadow) := by
  unfold State.setBank
  split
  · exact ⟨s.primary, b, rfl, fun _ => rfl, fun h => by simp_all⟩
  · exact ⟨b, s.shadow, rfl, fun h => by simp_all, fun _ => rfl⟩

/-- All that a write of a register outside the sequencer can change: the active bank, the registers of the
address generators and the port registers. -/
theorem writePlain_cases (s : State) (r : Reg) (v : Bus) :
    (∃ b, s.writePlain r v = s.setBank b) ∨ (∃ d, s.writePlain r v = s.setDag d) ∨
      (∃ p, s.writePlain r v = s.setPorts p) := by
  cases r <;> simp only [State.writePlain] <;>
    first
    | exact .inl ⟨_, rfl⟩
    | exact .inr (.inl ⟨_, rfl⟩)
    | exact .inr (.inr ⟨_, rfl⟩)

@[simp] theorem State.writePlain_pc (s : State) (r : Reg) (v : Bus) :
    (s.writePlain r v).pc = s.pc := by
  obtain ⟨_, h⟩ | ⟨_, h⟩ | ⟨_, h⟩ := writePlain_cases s r v <;> rw [h] <;> simp

@[simp] theorem State.writePlain_pcstk (s : State) (r : Reg) (v : Bus) :
    (s.writePlain r v).pcstk = s.pcstk := by
  obtain ⟨_, h⟩ | ⟨_, h⟩ | ⟨_, h⟩ := writePlain_cases s r v <;> rw [h] <;> simp

@[simp] theorem State.writePlain_cntstk (s : State) (r : Reg) (v : Bus) :
    (s.writePlain r v).cntstk = s.cntstk := by
  obtain ⟨_, h⟩ | ⟨_, h⟩ | ⟨_, h⟩ := writePlain_cases s r v <;> rw [h] <;> simp

@[simp] theorem State.writePlain_lpstk (s : State) (r : Reg) (v : Bus) :
    (s.writePlain r v).lpstk = s.lpstk := by
  obtain ⟨_, h⟩ | ⟨_, h⟩ | ⟨_, h⟩ := writePlain_cases s r v <;> rw [h] <;> simp

@[simp] theorem State.writePlain_ststk (s : State) (r : Reg) (v : Bus) :
    (s.writePlain r v).ststk = s.ststk := by
  obtain ⟨_, h⟩ | ⟨_, h⟩ | ⟨_, h⟩ := writePlain_cases s r v <;> rw [h] <;> simp

@[simp] theorem State.writePlain_cntr (s : State) (r : Reg) (v : Bus) :
    (s.writePlain r v).cntr = s.cntr := by
  obtain ⟨_, h⟩ | ⟨_, h⟩ | ⟨_, h⟩ := writePlain_cases s r v <;> rw [h] <;> simp

@[simp] theorem State.writePlain_cntrValid (s : State) (r : Reg) (v : Bus) :
    (s.writePlain r v).cntrValid = s.cntrValid := by
  obtain ⟨_, h⟩ | ⟨_, h⟩ | ⟨_, h⟩ := writePlain_cases s r v <;> rw [h] <;> simp

@[simp] theorem State.writePlain_astat (s : State) (r : Reg) (v : Bus) :
    (s.writePlain r v).astat = s.astat := by
  obtain ⟨_, h⟩ | ⟨_, h⟩ | ⟨_, h⟩ := writePlain_cases s r v <;> rw [h] <;> simp

@[simp] theorem State.writePlain_mstat (s : State) (r : Reg) (v : Bus) :
    (s.writePlain r v).mstat = s.mstat := by
  obtain ⟨_, h⟩ | ⟨_, h⟩ | ⟨_, h⟩ := writePlain_cases s r v <;> rw [h] <;> simp

@[simp] theorem State.writePlain_icntl (s : State) (r : Reg) (v : Bus) :
    (s.writePlain r v).icntl = s.icntl := by
  obtain ⟨_, h⟩ | ⟨_, h⟩ | ⟨_, h⟩ := writePlain_cases s r v <;> rw [h] <;> simp

@[simp] theorem State.writePlain_imask (s : State) (r : Reg) (v : Bus) :
    (s.writePlain r v).imask = s.imask := by
  obtain ⟨_, h⟩ | ⟨_, h⟩ | ⟨_, h⟩ := writePlain_cases s r v <;> rw [h] <;> simp

@[simp] theorem State.writePlain_intsEnabled (s : State) (r : Reg) (v : Bus) :
    (s.writePlain r v).intsEnabled = s.intsEnabled := by
  obtain ⟨_, h⟩ | ⟨_, h⟩ | ⟨_, h⟩ := writePlain_cases s r v <;> rw [h] <;> simp

@[simp] theorem State.writePlain_req (s : State) (r : Reg) (v : Bus) :
    (s.writePlain r v).req = s.req := by
  obtain ⟨_, h⟩ | ⟨_, h⟩ | ⟨_, h⟩ := writePlain_cases s r v <;> rw [h] <;> simp

@[simp] theorem State.writePlain_idle (s : State) (r : Reg) (v : Bus) :
    (s.writePlain r v).idle = s.idle := by
  obtain ⟨_, h⟩ | ⟨_, h⟩ | ⟨_, h⟩ := writePlain_cases s r v <;> rw [h] <;> simp

@[simp] theorem State.writePlain_idleDiv (s : State) (r : Reg) (v : Bus) :
    (s.writePlain r v).idleDiv = s.idleDiv := by
  obtain ⟨_, h⟩ | ⟨_, h⟩ | ⟨_, h⟩ := writePlain_cases s r v <;> rw [h] <;> simp

@[simp] theorem State.writePlain_imaskHoldoff (s : State) (r : Reg) (v : Bus) :
    (s.writePlain r v).imaskHoldoff = s.imaskHoldoff := by
  obtain ⟨_, h⟩ | ⟨_, h⟩ | ⟨_, h⟩ := writePlain_cases s r v <;> rw [h] <;> simp

@[simp] theorem State.writePlain_icntlOld (s : State) (r : Reg) (v : Bus) :
    (s.writePlain r v).icntlOld = s.icntlOld := by
  obtain ⟨_, h⟩ | ⟨_, h⟩ | ⟨_, h⟩ := writePlain_cases s r v <;> rw [h] <;> simp

@[simp] theorem State.writePlain_icntlDelay (s : State) (r : Reg) (v : Bus) :
    (s.writePlain r v).icntlDelay = s.icntlDelay := by
  obtain ⟨_, h⟩ | ⟨_, h⟩ | ⟨_, h⟩ := writePlain_cases s r v <;> rw [h] <;> simp

@[simp] theorem State.writePlain_icntlKnown (s : State) (r : Reg) (v : Bus) :
    (s.writePlain r v).icntlKnown = s.icntlKnown := by
  obtain ⟨_, h⟩ | ⟨_, h⟩ | ⟨_, h⟩ := writePlain_cases s r v <;> rw [h] <;> simp

@[simp] theorem State.writePlain_intsOld (s : State) (r : Reg) (v : Bus) :
    (s.writePlain r v).intsOld = s.intsOld := by
  obtain ⟨_, h⟩ | ⟨_, h⟩ | ⟨_, h⟩ := writePlain_cases s r v <;> rw [h] <;> simp

@[simp] theorem State.writePlain_intsDelay (s : State) (r : Reg) (v : Bus) :
    (s.writePlain r v).intsDelay = s.intsDelay := by
  obtain ⟨_, h⟩ | ⟨_, h⟩ | ⟨_, h⟩ := writePlain_cases s r v <;> rw [h] <;> simp

@[simp] theorem State.writePlain_prevKind (s : State) (r : Reg) (v : Bus) :
    (s.writePlain r v).prevKind = s.prevKind := by
  obtain ⟨_, h⟩ | ⟨_, h⟩ | ⟨_, h⟩ := writePlain_cases s r v <;> rw [h] <;> simp

@[simp] theorem State.writePlain_prev2Kind (s : State) (r : Reg) (v : Bus) :
    (s.writePlain r v).prev2Kind = s.prev2Kind := by
  obtain ⟨_, h⟩ | ⟨_, h⟩ | ⟨_, h⟩ := writePlain_cases s r v <;> rw [h] <;> simp

@[simp] theorem State.writePlain_pm (s : State) (r : Reg) (v : Bus) :
    (s.writePlain r v).pm = s.pm := by
  obtain ⟨_, h⟩ | ⟨_, h⟩ | ⟨_, h⟩ := writePlain_cases s r v <;> rw [h] <;> simp

@[simp] theorem State.writePlain_pmStored (s : State) (r : Reg) (v : Bus) :
    (s.writePlain r v).pmStored = s.pmStored := by
  obtain ⟨_, h⟩ | ⟨_, h⟩ | ⟨_, h⟩ := writePlain_cases s r v <;> rw [h] <;> simp

@[simp] theorem State.writePlain_pins (s : State) (r : Reg) (v : Bus) :
    (s.writePlain r v).pins = s.pins := by
  obtain ⟨_, h⟩ | ⟨_, h⟩ | ⟨_, h⟩ := writePlain_cases s r v <;> rw [h] <;> simp

@[simp] theorem State.writePlain_flagIn (s : State) (r : Reg) (v : Bus) :
    (s.writePlain r v).flagIn = s.flagIn := by
  obtain ⟨_, h⟩ | ⟨_, h⟩ | ⟨_, h⟩ := writePlain_cases s r v <;> rw [h] <;> simp

@[simp] theorem State.writePlain_inputs (s : State) (r : Reg) (v : Bus) :
    (s.writePlain r v).inputs = s.inputs := by
  obtain ⟨_, h⟩ | ⟨_, h⟩ | ⟨_, h⟩ := writePlain_cases s r v <;> rw [h] <;> simp

@[simp] theorem State.writePlain_cfg (s : State) (r : Reg) (v : Bus) :
    (s.writePlain r v).cfg = s.cfg := by
  obtain ⟨_, h⟩ | ⟨_, h⟩ | ⟨_, h⟩ := writePlain_cases s r v <;> rw [h] <;> simp

@[simp] theorem State.writePlain_freeTick (s : State) (r : Reg) (v : Bus) :
    (s.writePlain r v).freeTick = s.freeTick := by
  obtain ⟨_, h⟩ | ⟨_, h⟩ | ⟨_, h⟩ := writePlain_cases s r v <;> rw [h] <;> simp

/-! ## Reads -/

/-- A register outside the sequencer is read as it is. -/
theorem readReg_plain (s : State) (r : Reg) (h : r.isPlain = true) :
    s.readReg r = .ok (s.readPlain r, s) := by
  cases r <;> first | rfl | exact absurd h (by decide)

/-- A source register can always be read; only an invalid CNTR draws a free value. -/
theorem readReg_source (s : State) (r : Reg) (h : r.isSource = true) :
    ∃ v n, s.readReg r = .ok (v, s.setFreeTick n) := by
  cases hp : r.isPlain
  · cases r <;> first
      | exact absurd hp (by decide)
      | exact absurd h (by decide)
      | exact ⟨_, s.freeTick, rfl⟩
      | skip
    unfold State.readReg
    simp only
    split
    · exact ⟨_, s.freeTick, rfl⟩
    · exact ⟨_, _, rfl⟩
  · exact ⟨_, s.freeTick, readReg_plain s r hp⟩

/-- A read that is not refused leaves all but the counter of free values. -/
theorem readReg_ok {s u : State} {r : Reg} {v : Bus} (h : s.readReg r = .ok (v, u)) :
    ∃ n, u = s.setFreeTick n := by
  by_cases hs : r.isSource = true
  · obtain ⟨v', n, h'⟩ := readReg_source s r hs
    rw [h'] at h
    simp only [Except.ok.injEq, Prod.mk.injEq] at h
    exact ⟨n, h.2.symm⟩
  · cases r <;> first
      | exact absurd rfl hs
      | cases h

/-! ## Writes -/

/-- What a write of IFC does to one source touches nothing but the latches. -/
theorem ifcOne_shape (v : Bus) (s : State) (k : Source) :
    ∃ r, State.ifcOne v s k = s.setReq r ∧
      ∀ j, r.get j = if j = k ∧ s.edge k = true then
          (if ifcForces s.cfg.proc v k then true
            else if ifcClears s.cfg.proc v k then false else s.req.get j)
        else s.req.get j := by
  unfold State.ifcOne
  cases he : s.edge k
  · exact ⟨s.req, by simp, fun j => by simp⟩
  · cases hf : ifcForces s.cfg.proc v k
    · cases hc : ifcClears s.cfg.proc v k
      · exact ⟨s.req, by simp, fun j => by simp⟩
      · exact ⟨s.req.set k false, by simp, fun j => by simp [get_set]⟩
    · exact ⟨s.req.set k true, by simp, fun j => by simp [get_set]⟩

/-- A write of IFC touches nothing but the latches. -/
theorem foldl_ifcOne_shape (v : Bus) (l : List Source) (s : State) :
    ∃ r, l.foldl (State.ifcOne v) s = s.setReq r := by
  induction l generalizing s with
  | nil => exact ⟨s.req, rfl⟩
  | cons k l ih =>
    obtain ⟨r, h, -⟩ := ifcOne_shape v s k
    obtain ⟨r', h'⟩ := ih (State.ifcOne v s k)
    exact ⟨r', by rw [List.foldl_cons, h', h]; rfl⟩

/-- A write of IFC that is not refused touches nothing but the latches. -/
theorem writeIfc_ok {s t : State} {v : Bus} (h : s.writeIfc v = .ok t) :
    ∃ r, t = s.setReq r := by
  unfold State.writeIfc at h
  split at h
  · cases h
  · simp only [Except.ok.injEq] at h
    obtain ⟨r, hr⟩ := foldl_ifcOne_shape v (sources s.cfg.proc) s
    exact ⟨r, by rw [← h, hr]⟩

/-- The bits of IMASK that a write stores. -/
theorem getLsbD_imaskOf (p : Proc) (v : Bus) (j : Nat) :
    (imaskOf p v).getLsbD j = (decide (j < wImask p) && v.getLsbD j) := by
  have hw : wImask p ≤ 10 := by cases p <;> decide
  unfold imaskOf
  simp only [BitVec.getLsbD_and, BitVec.getLsbD_setWidth, BitVec.getLsbD_ofNat,
    Nat.testBit_two_pow_sub_one]
  by_cases h : j < wImask p
  · have : j < 10 := by omega
    simp [h, this]
  · simp [h]

/-- A write of IMASK that is not refused stores the low bits and starts the hold-off. -/
theorem writeImask_ok {s t : State} {v : Bus} (h : s.writeImask v = .ok t) :
    (s.icntlKnown = false → s.unmasks v = false) ∧
      t = (s.setImask (imaskOf s.cfg.proc v)).setHoldoff
        (if hasHoldoff s.cfg.proc then 2 else s.imaskHoldoff) := by
  unfold State.writeImask at h
  split at h
  · cases h
  · rename_i hc
    refine ⟨fun hk => by simpa [hk] using hc, ?_⟩
    simp only [Except.ok.injEq] at h
    rw [← h]
    cases hasHoldoff s.cfg.proc <;> rfl

/-- A write of IMASK that unmasks nothing, or that comes after ICNTL is known, is not refused. -/
theorem writeImask_known {s : State} {v : Bus} (h : s.icntlKnown = true ∨ s.unmasks v = false) :
    s.writeImask v = .ok ((s.setImask (imaskOf s.cfg.proc v)).setHoldoff
      (if hasHoldoff s.cfg.proc then 2 else s.imaskHoldoff)) := by
  unfold State.writeImask
  have : (!s.icntlKnown && s.unmasks v) = false := by rcases h with h | h <;> simp [h]
  simp only [this, Bool.false_eq_true, if_false]
  cases hasHoldoff s.cfg.proc <;> rfl

/-- What a write of IMASK stores has the member's width. -/
theorem imaskOf_lt (p : Proc) (v : Bus) : (imaskOf p v).toNat < 2 ^ wImask p := by
  unfold imaskOf
  rw [BitVec.toNat_and]
  refine lt_of_le_of_lt Nat.and_le_right ?_
  cases p <;> decide

/-- IMASK after an interrupt entry is no greater than before. -/
theorem imaskAfter_le (n : Bool) (l : Nat) (m : BitVec 10) : (imaskAfter n l m).toNat ≤ m.toNat := by
  unfold imaskAfter
  split
  · rw [BitVec.toNat_and]
    exact Nat.and_le_left
  · simp

end Sys2Proof.Machine
end

