-- ==== Sys2Proof/Laws/Sequence.lean ====
section
/-! SUPPORT. What the hazards, the sequencing and the run of one instruction can do, said once for each. -/

namespace Sys2Proof.Machine

/-- With the guards off, an instruction outside the list of 46_toppcstack.md R222 meets a hazard only at a
loop end. -/
theorem hazard_none_plain {t : Traits} {s : State} (hu : s.unguarded) (hs : s.slotFree)
    (hp : t.pcStack = false) (hr : t.rti = false) : hazard t s = none := by
  obtain ⟨-, -, hg⟩ := hu
  unfold hazard
  have h1 : ¬(s.prevKind = .toppcRead ∧ s.atLoopEnd = true) := by
    rintro ⟨h, h'⟩
    simp [hs h] at h'
  simp only [hp, Bool.false_or]
  simp [h1, hr, hg]

/-- With the guards off, no instruction but RTI meets a hazard where the last one was no TOPPCSTACK read. -/
theorem hazard_none_stack {t : Traits} {s : State} (hu : s.unguarded)
    (hs : s.prevKind ≠ .toppcRead) (hr : t.rti = true → s.prevKind = .other) : hazard t s = none := by
  obtain ⟨-, -, hg⟩ := hu
  unfold hazard
  cases h : t.rti
  · simp [hs, hg]
  · simp [hr h, hg]

/-- What a run answers when nothing refuses it. -/
theorem run_ok {t : Traits} {s s1 v : State} {f : Flow} {e : Except Refusal (State × Flow)}
    (hh : hazard t s = none) (he : e = .ok (s1, f)) (hs : sequence s s1 f = .ok v) :
    run t s e = .next (endOfStep t.kind v) := by
  subst he
  unfold run
  simp [hh, hs]

/-- All that a run with a next state can be. -/
theorem run_next {t : Traits} {s u : State} {e : Except Refusal (State × Flow)}
    (h : run t s e = .next u) :
    hazard t s = none ∧ ∃ s1 f v, e = .ok (s1, f) ∧ sequence s s1 f = .ok v ∧
      u = endOfStep t.kind v := by
  unfold run at h
  split at h
  · cases h
  · rename_i hh
    split at h
    · cases h
    · rename_i s1 f
      split at h
      · cases h
      · rename_i v hv
        simp only [Host.Outcome.next.injEq] at h
        exact ⟨hh, s1, f, v, rfl, hv, h.symm⟩

/-- The sequencing of an instruction that goes on in sequence is one of the cases of `SeqNext`. -/
theorem seqNext_of_sequence {s0 s1 t : State} (h : sequence s0 s1 .seq = .ok t) :
    SeqNext s0 s1 t := by
  unfold sequence at h
  cases hl : s0.atLoopEnd
  · simp only [hl, Bool.false_eq_true, if_false, Except.ok.injEq] at h
    subst h
    exact .on hl
  · simp only [hl, if_true, loopEnd] at h
    split at h
    · cases h
    · rename_i w ws hw
      split at h
      · cases h
      · simp only [testTerm] at h
        by_cases hce : w.term = .ce
        · simp only [hce, if_true] at h
          cases hr : s0.counterRefused
          · by_cases he : s0.cntr = 1
            · have hx : expired s0.cntr = true := by simp [expired, he]
              simp only [hr, Bool.false_eq_true, if_false, State.testCe, hx, if_true,
                State.expireCount_pcstk, State.setCntr_pcstk] at h
              split at h
              · cases h
              rename_i a as ha
              simp only [Except.ok.injEq, State.expireCount, State.setCntr_cntstk] at h
              split at h
              · rename_i c cs hc
                · have hn := SeqNext.countOut w ws a as c cs hl hw ha hce he hc
                  convert hn using 1
                  rw [← h]
                  apply State.ext <;> simp [Stack.drop, hw, ha, hc]
              · rename_i hc
                by_cases hlost : s1.cntstk.lost = 0
                · simp only [hlost, if_true] at h
                  · have hn := SeqNext.countDone w ws a as hl hw ha hce he hc hlost
                    convert hn using 1
                    rw [← h]
                    apply State.ext <;> simp [Stack.drop, hw, ha]
                · simp only [hlost, if_false] at h
                  · have hn := SeqNext.countLost w ws a as (Config.freeCount s1.freeTick)
                      (s1.freeTick + 1) hl hw ha hce he hc hlost
                    convert hn using 1
                    rw [← h]
                    apply State.ext <;> simp [Stack.drop, hw, ha]
            · have hx : expired s0.cntr = false := by simpa [expired] using he
              simp only [hr, Bool.false_eq_true, if_false, State.testCe, hx,
                State.setCntr_pcstk] at h
              split at h
              · cases h
              · rename_i a as ha
                simp only [Except.ok.injEq] at h
                subst h
                exact SeqNext.countOn w ws a as hl hw ha hce he
          · simp [hr] at h
        · simp only [hce, if_false] at h
          split at h
          · cases h
          · rename_i a as ha
            cases hd : termHolds s0.astat s0.cntr w.term
            · simp only [hd, Bool.false_eq_true, if_false, Except.ok.injEq] at h
              subst h
              exact SeqNext.back w ws a as hl hw ha hce hd
            · simp only [hd, if_true, Except.ok.injEq] at h
              have hn := SeqNext.leave w ws a as hl hw ha hce hd
              convert hn using 1
              rw [← h]
              apply State.ext <;> simp [Stack.drop, hw, ha]

/-- With the guards off and the stacks that a loop end needs, nothing refuses the sequencing. -/
theorem sequence_seq_ok {s0 s1 : State} (hu : s0.unguarded) (hg : s1.cfg = s0.cfg)
    (hc : s0.canSequence s1) : ∃ t, SeqNext s0 s1 t ∧ sequence s0 s1 .seq = .ok t := by
  suffices h : ∃ t, sequence s0 s1 .seq = .ok t by
    obtain ⟨t, ht⟩ := h
    exact ⟨t, seqNext_of_sequence ht, ht⟩
  obtain ⟨hu1, hu2, -⟩ := hu
  unfold sequence
  cases hl : s0.atLoopEnd
  · exact ⟨s1.setPc (inc s0.pc), by simp⟩
  · obtain ⟨hw, ha⟩ := hc hl
    obtain ⟨w, ws, hw⟩ := List.exists_cons_of_ne_nil hw
    obtain ⟨a, as, ha⟩ := List.exists_cons_of_ne_nil ha
    simp only [if_true, loopEnd, hw, hg, hu2, Bool.false_and, Bool.false_eq_true, if_false, testTerm]
    have hr : s0.counterRefused = false := by simp [State.counterRefused, hu1]
    by_cases hce : w.term = .ce
    · simp only [hce, if_true, hr, Bool.false_eq_true, if_false, State.testCe]
      cases hx : expired s0.cntr
      · simp [ha]
      · simp [ha]
    · simp only [hce, if_false, ha]
      split <;> exact ⟨_, rfl⟩

/-- The run of an instruction that goes on in sequence, where nothing refuses it. -/
theorem run_seq {tr : Traits} {s s1 : State} (hu : s.unguarded) (hh : hazard tr s = none)
    (hg : s1.cfg = s.cfg) (hc : s.canSequence s1) :
    ∃ t, SeqNext s s1 t ∧ run tr s (.ok (s1, .seq)) = .next (endOfStep tr.kind t) := by
  obtain ⟨t, ht, hs⟩ := sequence_seq_ok hu hg hc
  exact ⟨t, ht, run_ok hh rfl hs⟩

/-- The same for the meanings that have no other flow. -/
theorem runSeq_ok {tr : Traits} {s s1 : State} (hu : s.unguarded) (hh : hazard tr s = none)
    (hg : s1.cfg = s.cfg) (hc : s.canSequence s1) :
    ∃ t, SeqNext s s1 t ∧ runSeq tr s (.ok s1) = .next (endOfStep tr.kind t) :=
  run_seq hu hh hg hc

/-- The run of a taken transfer. -/
theorem run_taken {tr : Traits} {s s1 : State} {a : Addr} (hh : hazard tr s = none) :
    run tr s (.ok (s1, .taken a)) = .next (endOfStep tr.kind (s1.setPc a)) := run_ok hh rfl rfl

/-- All that a run in sequence with a next state can be. -/
theorem runSeq_next {tr : Traits} {s u : State} {e : Except Refusal State}
    (h : runSeq tr s e = .next u) :
    ∃ s1 t, e = .ok s1 ∧ SeqNext s s1 t ∧ u = endOfStep tr.kind t := by
  obtain ⟨-, s1, f, v, he, hs, rfl⟩ := run_next h
  split at he
  · cases he
  · simp only [Except.ok.injEq, Prod.mk.injEq] at he
    obtain ⟨rfl, rfl⟩ := he
    exact ⟨_, v, rfl, seqNext_of_sequence hs, rfl⟩

/-- A run whose effect is refused, and that meets no hazard, is refused for that reason. -/
theorem run_refused {tr : Traits} {s : State} {e : Refusal} (hh : hazard tr s = none) :
    run tr s (.error e) = .refused e := by simp [run, hh]

/-- The same for the meanings that have no other flow. -/
theorem runSeq_refused {tr : Traits} {s : State} {e : Refusal} (hh : hazard tr s = none) :
    runSeq tr s (.error e) = .refused e := run_refused hh

end Sys2Proof.Machine
end

