-- ==== Sys2Proof/Laws/Frame.lean ====
section
/-! SUPPORT. What each shared operation may change, part by part, and how the sequencing and the end of a
step add to it. -/

namespace Sys2Proof.Machine

/-! ## Parts left as they were -/

/-- A part is the same in two states, with no aging (compare `Piece.kept`). -/
def Piece.same (p : Piece) (s t : State) : Prop :=
  match p with
  | .pcstk => t.pcstk = s.pcstk
  | .cntstk => t.cntstk = s.cntstk
  | .lpstk => t.lpstk = s.lpstk
  | .ststk => t.ststk = s.ststk
  | .cntr => t.cntr = s.cntr ∧ t.cntrValid = s.cntrValid
  | .astat => t.astat = s.astat
  | .mstat => t.mstat = s.mstat
  | .icntl => t.icntl = s.icntl ∧ t.icntlDelay = s.icntlDelay ∧ t.icntlOld = s.icntlOld ∧
      t.icntlKnown = s.icntlKnown
  | .imask => t.imask = s.imask
  | .ints => t.intsEnabled = s.intsEnabled ∧ t.intsDelay = s.intsDelay ∧ t.intsOld = s.intsOld
  | .holdoff => t.imaskHoldoff = s.imaskHoldoff
  | .req => t.req = s.req
  | .idle => t.idle = s.idle
  | .idleDiv => t.idleDiv = s.idleDiv
  | .kinds => t.prevKind = s.prevKind ∧ t.prev2Kind = s.prev2Kind
  | .primary => t.primary = s.primary
  | .shadow => t.shadow = s.shadow
  | .dag => t.dag = s.dag
  | .ports => t.ports = s.ports
  | .outside => t.pins = s.pins ∧ t.flagIn = s.flagIn ∧ t.inputs = s.inputs ∧ t.cfg = s.cfg
  | .memory => t.pm = s.pm

theorem same_refl (p : Piece) (s : State) : p.same s s := by cases p <;> simp [Piece.same]

theorem same_trans {p : Piece} {s t u : State} (h : p.same s t) (h' : p.same t u) : p.same s u := by
  cases p <;> simp_all [Piece.same]

/-- Every part outside a list is the same. -/
def SameBut (l : List Piece) (s t : State) : Prop := ∀ p, p ∉ l → p.same s t

theorem SameBut.refl (l : List Piece) (s : State) : SameBut l s s := fun p _ => same_refl p s

theorem SameBut.trans {l l' : List Piece} {s t u : State} (h : SameBut l s t) (h' : SameBut l' t u) :
    SameBut (l ++ l') s u := fun p hp =>
  same_trans (h p fun m => hp (List.mem_append_left _ m)) (h' p fun m => hp (List.mem_append_right _ m))

theorem SameBut.mono {l l' : List Piece} {s t : State} (h : SameBut l s t) (hl : l ⊆ l') :
    SameBut l' s t := fun p hp => h p fun m => hp (hl m)

/-- An end of the ICNTL delay that comes with this step was coming before, from the same configuration to the
same, with the pins as they were. -/
def Pending (s t : State) : Prop :=
  t.icntlDelay = 1 → s.icntlDelay = 1 ∧ t.icntl = s.icntl ∧ t.icntlOld = s.icntlOld ∧
    t.pins = s.pins ∧ t.cfg = s.cfg

theorem Pending.refl (s : State) : Pending s s := fun h => ⟨h, rfl, rfl, rfl, rfl⟩

theorem Pending.trans {s t u : State} (h : Pending s t) (h' : Pending t u) : Pending s u := fun hu =>
  let ⟨a, b, c, d, e⟩ := h' hu
  let ⟨f, g, i, j, k⟩ := h a
  ⟨f, b.trans g, c.trans i, d.trans j, e.trans k⟩

/-- What an operation inside a step leaves: the parts outside a list, the coming end of an ICNTL delay,
and no word on the loop stack that was not there. -/
structure Changes (l : List Piece) (s t : State) : Prop where
  same : SameBut l s t
  delay : Pending s t
  loops : t.lpstk.words ⊆ s.lpstk.words

theorem Changes.refl (l : List Piece) (s : State) : Changes l s s :=
  ⟨.refl l s, .refl s, List.Subset.refl _⟩

theorem Changes.trans {l l' : List Piece} {s t u : State} (h : Changes l s t) (h' : Changes l' t u) :
    Changes (l ++ l') s u :=
  ⟨h.same.trans h'.same, h.delay.trans h'.delay, fun _ m => h.loops (h'.loops m)⟩

/-! ## The end of a step and the sequencing -/

/-- The end of a step ages the parts that are the same, and no more. -/
theorem kept_endOfStep {l : List Piece} {s v : State} {k : Kind} (h : SameBut l s v)
    (hk : k = .other ∨ Piece.kinds ∈ l) (hd : Pending s v) :
    KeptBut l s (endOfStep k v) := by
  intro p hp
  have hs := h p hp
  cases p <;> try (simp_all [Piece.same, Piece.kept]; done)
  simp only [Piece.same] at hs
  intro j
  rcases endOfStep_req k v j with hj | ⟨h1, h2, h3⟩
  · exact .inl (hj.trans (by rw [hs]))
  · obtain ⟨g1, g2, g3, hpins, hcfg⟩ := hd h1
    have he : v.icntlEff = s.icntlEff := by simp [State.icntlEff, g1, h1, g3]
    refine .inr ⟨g1, ?_, ?_⟩
    · simpa only [State.edge, he, g2, hcfg] using h2
    · have hr : v.requested j = s.requested j := by
        unfold State.requested State.edge
        rw [he, hcfg, hs, hpins]
      exact hr ▸ h3

/-- The sequencing changes the parts of a loop end alone. -/
theorem seqNext_same {s0 s1 t : State} (h : SeqNext s0 s1 t)
    (hw : s0.atLoopEnd = true → s1.lpstk.words ⊆ s0.lpstk.words) : SameBut s0.loopPieces s1 t := by
  cases h with
  | on h => intro p _; cases p <;> simp [Piece.same]
  | back w ws a as hl h1 => intro p _; cases p <;> simp [Piece.same]
  | leave w ws a as hl h1 =>
    intro p hp
    cases p <;> simp [Piece.same] <;>
      (unfold State.loopPieces at hp; simp only [hl, if_true] at hp; split at hp <;> simp at hp)
  | countOn w ws a as hl h1 h2 h3 | countOut w ws a as _ _ hl h1 h2 h3
  | countDone w ws a as hl h1 h2 h3 | countLost w ws a as _ _ hl h1 h2 h3 =>
    have : s0.loopPieces = [.pcstk, .lpstk, .cntr, .cntstk] := by
      have hm : (s0.lpstk.words.any (·.term == .ce)) = true := by
        have := hw hl
        rw [h1] at this
        simp only [List.any_eq_true]
        exact ⟨w, this (by simp), by simp [h3]⟩
      simp [State.loopPieces, hl, hm]
    rw [this]
    intro p hp
    cases p <;> simp [Piece.same] <;> simp at hp

/-- The sequencing leaves ICNTL and its delay. -/
theorem seqNext_pending {s0 s1 t : State} (h : SeqNext s0 s1 t) : Pending s1 t := by
  cases h <;> exact fun h => ⟨by simpa using h, by simp, by simp, by simp, by simp⟩

/-- The frame of a run that goes on in sequence. -/
theorem frame_runSeq {l : List Piece} {tr : Traits} {s t : State} {e : Except Refusal State}
    (h : runSeq tr s e = .next t)
    (he : ∀ s1, e = .ok s1 → SameBut l s s1 ∧ Pending s s1 ∧
      (s.atLoopEnd = true → s1.lpstk.words ⊆ s.lpstk.words))
    (hk : tr.kind = .other ∨ Piece.kinds ∈ l) : KeptBut (l ++ s.loopPieces) s t := by
  obtain ⟨s1, v, h1, h2, rfl⟩ := runSeq_next h
  obtain ⟨a, b, c⟩ := he s1 h1
  exact kept_endOfStep (a.trans (seqNext_same h2 c)) (by grind)
    (b.trans (seqNext_pending h2))

/-- The frame of a run with any flow. -/
theorem frame_run {l : List Piece} {tr : Traits} {s t : State}
    {e : Except Refusal (State × Machine.Flow)} (h : run tr s e = .next t)
    (he : ∀ s1 f, e = .ok (s1, f) → Changes l s s1 ∧ (f = .idle → Piece.idle ∈ l))
    (hk : tr.kind = .other) : KeptBut (l ++ s.loopPieces) s t := by
  obtain ⟨-, s1, f, v, h1, h2, rfl⟩ := run_next h
  obtain ⟨⟨a, b, c⟩, d⟩ := he s1 f h1
  cases f with
  | seq =>
    have h2 := seqNext_of_sequence h2
    exact kept_endOfStep (a.trans (seqNext_same h2 fun _ => c)) (.inl hk)
      (b.trans (seqNext_pending h2))
  | taken x =>
    simp only [sequence, Except.ok.injEq] at h2
    subst h2
    refine kept_endOfStep ?_ (.inl hk) (by simpa [Pending] using b)
    refine SameBut.trans (l' := s.loopPieces) a fun p _ => ?_
    cases p <;> simp [Piece.same]
  | idle =>
    simp only [sequence, Except.ok.injEq] at h2
    subst h2
    refine kept_endOfStep ?_ (.inl hk) (by simpa [Pending] using b)
    refine SameBut.mono (l := l ++ [.idle]) (SameBut.trans a fun p hp => ?_) ?_
    · cases p <;> simp [Piece.same] at *
    · simpa using Or.inl (d rfl)

/-- The frame of a run that always sends control itself. -/
theorem frame_taken {l : List Piece} {tr : Traits} {s t : State}
    {e : Except Refusal (State × Machine.Flow)} (h : run tr s e = .next t)
    (he : ∀ s1 f, e = .ok (s1, f) → Changes l s s1 ∧ f ≠ .seq ∧ (f = .idle → Piece.idle ∈ l))
    (hk : tr.kind = .other) : KeptBut l s t := by
  obtain ⟨-, s1, f, v, h1, h2, rfl⟩ := run_next h
  obtain ⟨⟨a, b, -⟩, c, d⟩ := he s1 f h1
  cases f with
  | seq => simp at c
  | taken x =>
    simp only [sequence, Except.ok.injEq] at h2
    subst h2
    refine kept_endOfStep (fun p hp => ?_) (.inl hk) (by simpa [Pending] using b)
    have := a p hp
    cases p <;> simpa [Piece.same] using this
  | idle =>
    simp only [sequence, Except.ok.injEq] at h2
    subst h2
    refine kept_endOfStep (fun p hp => ?_) (.inl hk) (by simpa [Pending] using b)
    have := a p hp
    cases p <;> simp_all [Piece.same]

/-! ## The shared operations -/

/-- Restoring a status word. -/
theorem changes_restoreStatus (s : State) (w : StatusWord) :
    Changes [.astat, .mstat, .imask, .holdoff] s (s.restoreStatus w) := by
  unfold State.restoreStatus
  refine ⟨fun p hp => ?_, ?_, ?_⟩
  · cases p <;> simp [Piece.same] at hp ⊢ <;> split <;> simp
  · dsimp only; split <;> simp [Pending]
  · dsimp only; split <;> simp

/-- The decrementing test of CE. -/
theorem changes_testCe (s : State) (c : Count) : Changes [.cntr, .cntstk] s (s.testCe c).2 := by
  unfold State.testCe
  dsimp only
  split
  · obtain ⟨_, _, _, _, h⟩ := expireCount_shape (s.setCntr (s.cntr - 1))
    dsimp only
    rw [h]
    exact ⟨by intro p hp; cases p <;> simp_all [Piece.same], by simp [Pending], by simp⟩
  · exact ⟨by intro p hp; cases p <;> simp_all [Piece.same], by simp [Pending], by simp⟩

/-- A conditional jump. -/
theorem changes_jumpIf {s s1 : State} {c : Cond} {a : Addr} {f : Machine.Flow}
    (h : jumpIf s c a = .ok (s1, f)) :
    Changes (if c = .notCe then [.cntr, .cntstk] else []) s s1 ∧ f ≠ .idle := by
  have k := changes_testCe s s.cntr
  unfold jumpIf at h
  split at h
  · rename_i hc
    simp only [hc, if_true]
    split at h
    · cases h
    split at h
    · rename_i hs; cases h; rw [hs] at k; exact ⟨k, by simp⟩
    · rename_i hs
      split at h
      · cases h
      · cases h; rw [hs] at k; exact ⟨k, by simp⟩
  · split at h <;> cases h <;> exact ⟨.refl _ _, by simp⟩

/-- A call that is made. -/
theorem changes_callTo (s : State) (a : Addr) : Changes [.pcstk] s (callTo s a).1 :=
  ⟨by intro p hp; cases p <;> simp_all [Piece.same, callTo, State.pushPc],
    by simp [Pending, callTo, State.pushPc], by simp [callTo, State.pushPc]⟩

/-- A conditional call. -/
theorem changes_callIf {s s1 : State} {c : Cond} {a : Addr} {f : Machine.Flow}
    (h : callIf s c a = .ok (s1, f)) : Changes [.pcstk] s s1 ∧ f ≠ .idle := by
  unfold callIf at h
  split at h
  · cases h
  split at h
  · cases h; exact ⟨changes_callTo s a, by simp⟩
  · cases h; exact ⟨.refl _ _, by simp⟩

/-- A jump on the FI pin. -/
theorem changes_flagJump {s s1 : State} {b : Bool} {a : Addr} {f : Machine.Flow}
    (h : flagJump s b a = (s1, f)) : Changes [] s s1 ∧ f ≠ .idle := by
  unfold flagJump at h
  split at h <;> cases h <;> exact ⟨.refl _ _, by simp⟩

/-- A call on the FI pin. -/
theorem changes_flagCall {s s1 : State} {b : Bool} {a : Addr} {f : Machine.Flow}
    (h : flagCall s b a = (s1, f)) : Changes [.pcstk] s s1 ∧ f ≠ .idle := by
  unfold flagCall at h
  split at h
  · cases h; exact ⟨changes_callTo s a, by simp⟩
  · cases h; exact ⟨.refl _ _, by simp⟩

/-- A pop of the PC stack. -/
theorem changes_popPc {s s1 : State} {a : Addr} (h : s.popPc = .ok (a, s1)) :
    Changes [.pcstk] s s1 := by
  obtain ⟨as, -, rfl⟩ := popPc_ok h
  exact ⟨by intro p hp; cases p <;> simp_all [Piece.same], by simp [Pending], by simp⟩

/-- A return from an interrupt. -/
theorem changes_returnFromInterrupt {s s1 : State} {a : Addr}
    (h : returnFromInterrupt s = .ok (a, s1)) :
    Changes [.pcstk, .ststk, .astat, .mstat, .imask, .holdoff] s s1 := by
  obtain ⟨as, w, ws, -, -, rfl⟩ := returnFromInterrupt_ok h
  have h1 : Changes [.pcstk, .ststk] s ((s.setPcstk { s.pcstk with words := as }).setStstk
      { s.ststk with words := ws }) :=
    ⟨by intro p hp; cases p <;> simp_all [Piece.same], by simp [Pending], by simp⟩
  exact h1.trans (changes_restoreStatus _ w)

/-- A return from a subroutine. -/
theorem changes_returnSub {s s1 : State} {f : Machine.Flow} (h : returnSub s = .ok (s1, f)) :
    Changes [.pcstk] s s1 ∧ ∃ a, f = .taken a := by
  unfold returnSub at h
  split at h
  · cases h
  · rename_i a s2 hp
    cases h
    exact ⟨changes_popPc hp, a, rfl⟩

/-- The flow of a return from an interrupt. -/
theorem changes_returnInt {s s1 : State} {f : Machine.Flow} (h : returnInt s = .ok (s1, f)) :
    Changes [.pcstk, .ststk, .astat, .mstat, .imask, .holdoff] s s1 ∧ ∃ a, f = .taken a := by
  unfold returnInt at h
  split at h
  · cases h
  · rename_i a s2 hp
    cases h
    exact ⟨changes_returnFromInterrupt hp, a, rfl⟩

/-- An instruction under a condition. -/
theorem changes_whenCond {s s1 : State} {c : Cond} {f : Machine.Flow} {l : List Piece}
    {body : Except Refusal (State × Machine.Flow)} (h : whenCond s c body = .ok (s1, f))
    (hb : ∀ s1 f, body = .ok (s1, f) → Changes l s s1 ∧ f ≠ .idle) : Changes l s s1 ∧ f ≠ .idle := by
  unfold whenCond at h
  split at h
  · cases h
  · exact hb _ _ h
  · cases h; exact ⟨.refl _ _, by simp⟩

/-- A stack-control word. -/
theorem changes_stackControl {pp lp cp : Bool} {spp : BitVec 2} {s s1 : State}
    (h : stackControl pp lp cp spp s = .ok s1) :
    Changes ((if pp then [.pcstk] else []) ++ stackPieces lp cp (spp == 2) (spp == 3)) s s1 := by
  unfold stackControl at h
  split at h
  · cases h
  rename_i a ha
  split at h
  · cases h
  rename_i b hb
  have h1 : Changes (if pp then [.pcstk] else []) s a := by
    unfold popPcPart at ha
    cases pp
    · simp at ha; subst ha; exact .refl _ _
    · simp only [if_true] at ha
      split at ha
      · cases ha
      · rename_i hp; cases ha; simpa using changes_popPc hp
  have h2 : Changes (if lp then [.lpstk] else []) a b := by
    unfold popLoopPart at hb
    cases lp
    · simp at hb; subst hb; exact .refl _ _
    · simp only [if_true] at hb
      split at hb
      · cases hb
      split at hb
      · cases hb
      · rename_i hp
        cases hb
        obtain ⟨ws, hw, rfl⟩ := popLoop_ok hp
        exact ⟨by intro p hp; cases p <;> simp_all [Piece.same], by simp [Pending], by simp [hw]⟩
  have h3 : Changes (if cp then [.cntr, .cntstk] else []) b (popCntrPart cp b) := by
    unfold popCntrPart
    cases cp
    · exact .refl _ _
    · obtain ⟨_, _, _, _, hh⟩ := popCount_shape b
      simp only [if_true]
      rw [hh]
      exact ⟨by intro p hp; cases p <;> simp_all [Piece.same], by simp [Pending], by simp⟩
  have h4 : Changes ((if (spp == 2) || (spp == 3) then [.ststk] else []) ++
      (if (spp == 3) then [.astat, .mstat, .imask, .holdoff] else [])) (popCntrPart cp b) s1 := by
    unfold statusPart at h
    split at h
    · rename_i h2
      subst h2
      cases h
      exact ⟨by intro p hp; cases p <;> simp_all [Piece.same, State.pushStatus],
        by simp [Pending, State.pushStatus], by simp [State.pushStatus]⟩
    · split at h
      · rename_i h2 h3
        subst h3
        obtain ⟨w, ws, -, rfl⟩ := popStatus_ok h
        have g : Changes [.ststk] (popCntrPart cp b) ((popCntrPart cp b).setStstk
            { (popCntrPart cp b).ststk with words := ws }) :=
          ⟨by intro p hp; cases p <;> simp_all [Piece.same], by simp [Pending], by simp⟩
        simpa using g.trans (changes_restoreStatus _ w)
      · cases h
        exact .refl _ _
  have := ((h1.trans h2).trans h3).trans h4
  simpa [stackPieces, List.append_assoc] using this

/-- A write of a register outside the sequencer. -/
theorem changes_writePlain (s : State) (r : Reg) (v : Bus) :
    Changes s.movePieces s (s.writePlain r v) := by
  refine ⟨?_, by simp [Pending], by simp⟩
  rcases writePlain_cases s r v with ⟨b, h⟩ | ⟨b, h⟩ | ⟨b, h⟩ <;> rw [h]
  · unfold State.setBank
    cases hm : s.mstat.getLsbD 0 <;>
      (intro p hp; cases p <;> simp_all [Piece.same, State.movePieces])
  · intro p hp; cases p <;> simp_all [Piece.same, State.movePieces]
  · intro p hp; cases p <;> simp_all [Piece.same, State.movePieces]

/-- What a write of each register may change. -/
def writePieces (r : Reg) (s : State) : List Piece :=
  match r with
  | .astat => [.astat]
  | .mstat => [.mstat]
  | .imask => [.imask, .holdoff]
  | .icntl => [.icntl]
  | .cntr => [.cntr, .cntstk]
  | .owrcntr => [.cntr]
  | .ifc => [.req]
  | _ => s.movePieces

/-- A write of a register outside the sequencer is never refused. -/
theorem writeReg_plain (s : State) (r : Reg) (v : Bus) (h : r.isPlain = true) :
    s.writeReg r v = .ok (s.writePlain r v) := by
  cases r <;> first | rfl | exact absurd h (by decide)

/-- A write of any register. -/
theorem changes_writeReg {s s1 : State} {r : Reg} {v : Bus} (h : s.writeReg r v = .ok s1) :
    Changes (writePieces r s) s s1 := by
  by_cases hp : r.isPlain = true
  · rw [writeReg_plain s r v hp] at h
    cases h
    have : writePieces r s = s.movePieces := by
      cases r <;> first | rfl | exact absurd hp (by decide)
    rw [this]
    exact changes_writePlain s r v
  · cases r <;> first | exact absurd rfl hp | skip
    · cases h; exact ⟨by intro p hp; cases p <;> simp_all [Piece.same, writePieces], by simp [Pending], by simp⟩
    · cases h; exact ⟨by intro p hp; cases p <;> simp_all [Piece.same, writePieces], by simp [Pending], by simp⟩
    · cases h
    · obtain ⟨-, rfl⟩ := writeImask_ok h
      exact ⟨by intro p hp; cases p <;> simp_all [Piece.same, writePieces], by simp [Pending], by simp⟩
    · cases h
      unfold State.writeIcntl
      exact ⟨by intro p hp; cases p <;> simp_all [Piece.same, writePieces], by simp [Pending], by simp⟩
    · simp only [State.writeReg, State.writeCntr] at h
      split at h
      · cases h
      · cases h
        unfold State.loadCounter
        dsimp only
        split <;>
          exact ⟨by intro p hp; cases p <;> simp_all [Piece.same, writePieces], by simp [Pending], by simp⟩
    · obtain ⟨r, rfl⟩ := writeIfc_ok h
      exact ⟨by intro p hp; cases p <;> simp_all [Piece.same, writePieces], by simp [Pending], by simp⟩
    · simp only [State.writeReg, State.writeOwrcntr] at h
      split at h
      · cases h
      · cases h
        exact ⟨by intro p hp; cases p <;> simp_all [Piece.same, writePieces], by simp [Pending], by simp⟩
    · cases h

/-- A move. -/
theorem changes_move {s s1 : State} {dst src : Reg} (h : s.move dst src = .ok s1) :
    Changes (writePieces dst s) s s1 := by
  unfold State.move at h
  split at h
  · cases h
  rename_i v u hv
  obtain ⟨n, rfl⟩ := readReg_ok hv
  have g : Changes [] s (s.setFreeTick n) :=
    ⟨by intro p hp; cases p <;> simp_all [Piece.same], by simp [Pending], by simp⟩
  have := g.trans (changes_writeReg h)
  have e : writePieces dst (s.setFreeTick n) = writePieces dst s := by cases dst <;> rfl
  rwa [e] at this

/-- ENA INTS and DIS INTS. -/
theorem changes_setGlobalInts {s s1 : State} {b : Bool} (h : setGlobalInts b s = .ok s1) :
    Changes [.ints] s s1 := by
  unfold setGlobalInts at h
  split at h
  · split at h <;> cases h <;>
      exact ⟨by intro p hp; cases p <;> simp_all [Piece.same], by simp [Pending], by simp⟩
  · cases h

/-- A read of TOPPCSTACK. -/
theorem changes_readToppc {s s1 : State} {r : Reg} (h : readToppc r s = .ok s1) :
    Changes (.pcstk :: s.movePieces) s s1 := by
  unfold readToppc at h
  split at h
  · cases h
  split at h
  · cases h
  split at h
  · cases h
  rename_i a s2 hp
  cases h
  have k := changes_popPc hp
  obtain ⟨as, -, rfl⟩ := popPc_ok hp
  exact k.trans (changes_writePlain (s.setPcstk { s.pcstk with words := as }) r (a.setWidth 16))

/-- A write of TOPPCSTACK. -/
theorem changes_writeToppc {s s1 : State} {r : Reg} (h : writeToppc r s = .ok s1) :
    Changes [.pcstk] s s1 := by
  unfold writeToppc at h
  split at h
  · cases h
  · cases h
    exact ⟨by intro p hp; cases p <;> simp_all [Piece.same, State.pushPc], by simp [Pending, State.pushPc],
      by simp [State.pushPc]⟩

/-- DO UNTIL: it is refused at a loop end, and elsewhere pushes on two stacks. -/
theorem changes_setUpLoop {s s1 : State} {a : Addr} {c : Term} (h : setUpLoop s a c = .ok s1) :
    s.atLoopEnd = false ∧ SameBut [.pcstk, .lpstk] s s1 ∧ Pending s s1 := by
  unfold setUpLoop at h
  split at h
  · cases h
  rename_i hl
  split at h
  · cases h
  cases h
  refine ⟨by simpa using hl, ?_, by simp [Pending, State.pushPc]⟩
  intro p hp
  cases p <;> simp_all [Piece.same, State.pushPc]

end Sys2Proof.Machine
end

