-- ==== Sys2Proof/Laws/Memory.lean ====
section
/-! SUPPORT. Program memory: every operation keeps the canonical form, a read after a write of the same
place gives what was written, and a write leaves every other place alone. -/

namespace Sys2Proof.Machine

/-- The memory after reset is in canonical form. -/
theorem wf_reset_pm : Memory.wf State.reset.pm := by simp [Memory.wf, State.reset]

/-- The keys after a write are the old ones and the one written. -/
theorem mem_keys_writeByte (m : List Host.Cell) (key : Nat) (b : Byte) (k : Nat)
    (h : k ∈ (Memory.writeByte m key b).map (·.1)) : k = key ∨ k ∈ m.map (·.1) := by
  induction m with
  | nil => simpa [Memory.writeByte] using h
  | cons c rest ih =>
    obtain ⟨a, v⟩ := c
    simp only [Memory.writeByte] at h
    split at h
    · simpa using h
    · split at h
      · simp at h ⊢; tauto
      · simp only [List.map_cons, List.mem_cons] at h ⊢
        rcases h with h | h
        · exact .inr (.inl h)
        · exact (ih h).imp id .inr

/-- A write of a byte inside the address space keeps the canonical form. -/
theorem wf_writeByte (m : List Host.Cell) (key : Nat) (b : Byte) (hm : Memory.wf m)
    (hk : key < Memory.size) : Memory.wf (Memory.writeByte m key b) := by
  induction m with
  | nil => simpa [Memory.writeByte, Memory.wf] using hk
  | cons c rest ih =>
    obtain ⟨a, v⟩ := c
    obtain ⟨hp, hs⟩ := hm
    simp only [List.map_cons, List.pairwise_cons] at hp
    simp only [List.mem_cons, forall_eq_or_imp] at hs
    simp only [Memory.writeByte]
    split
    · rename_i hlt
      refine ⟨?_, List.forall_mem_cons.2 ⟨hk, List.forall_mem_cons.2 hs⟩⟩
      simp only [List.map_cons, List.pairwise_cons, List.mem_cons, forall_eq_or_imp]
      exact ⟨⟨hlt, fun k hk' => hlt.trans (hp.1 k hk')⟩, hp⟩
    · split
      · rename_i heq
        refine ⟨?_, List.forall_mem_cons.2 ⟨hk, hs.2⟩⟩
        simp only [List.map_cons, List.pairwise_cons]
        exact ⟨by simpa [heq] using hp.1, hp.2⟩
      · rename_i hnlt hne
        obtain ⟨ihp, ihs⟩ := ih ⟨hp.2, hs.2⟩
        refine ⟨?_, List.forall_mem_cons.2 ⟨hs.1, ihs⟩⟩
        simp only [List.map_cons, List.pairwise_cons]
        refine ⟨fun k hk' => ?_, ihp⟩
        rcases mem_keys_writeByte _ _ _ _ hk' with rfl | h
        · omega
        · exact hp.1 k h

/-- What was written is read back. -/
theorem readByte_writeByte_same (m : List Host.Cell) (key : Nat) (b : Byte) :
    Memory.readByte (Memory.writeByte m key b) key = some b := by
  induction m with
  | nil => simp [Memory.writeByte, Memory.readByte]
  | cons c rest ih =>
    obtain ⟨a, v⟩ := c
    simp only [Memory.writeByte]
    split
    · simp [Memory.readByte]
    · split
      · simp [Memory.readByte]
      · rename_i hne
        have hb : (key == a) = false := by simpa using fun e => hne e
        simpa only [Memory.readByte, List.lookup_cons, hb] using ih

/-- A write leaves every other byte alone. -/
theorem readByte_writeByte_other (m : List Host.Cell) (key key' : Nat) (b : Byte)
    (h : key' ≠ key) : Memory.readByte (Memory.writeByte m key b) key' = Memory.readByte m key' := by
  have hb : (key' == key) = false := by simpa using h
  induction m with
  | nil => simp [Memory.writeByte, Memory.readByte, List.lookup_cons, hb]
  | cons c rest ih =>
    obtain ⟨a, v⟩ := c
    simp only [Memory.writeByte]
    split
    · simp [Memory.readByte, List.lookup_cons, hb]
    · split
      · rename_i heq
        subst heq
        simp [Memory.readByte, List.lookup_cons, hb]
      · simp only [Memory.readByte] at ih
        simp [Memory.readByte, List.lookup_cons, ih]

/-- Placing a word keeps the canonical form. -/
theorem wf_writeWord (m : List Host.Cell) (a : Addr) (w : Insn) (hm : Memory.wf m) :
    Memory.wf (Memory.writeWord m a w) := by
  have ha := a.isLt
  unfold Memory.writeWord
  refine wf_writeByte _ _ _ (wf_writeByte _ _ _ (wf_writeByte _ _ _ hm ?_) ?_) ?_ <;>
    simp only [Memory.size] <;> omega

/-- Three bytes of a word, put together, are the word. -/
theorem insnOfBytes_fields (w : Insn) :
    insnOfBytes (field w 0 8) (field w 8 8) (field w 16 8) = w := by
  unfold insnOfBytes
  grind

/-- A placed word is read back. -/
theorem readWord_writeWord_same (m : List Host.Cell) (a : Addr) (w : Insn) :
    Memory.readWord (Memory.writeWord m a w) a = some w := by
  simp only [Memory.readWord, Memory.writeWord]
  rw [readByte_writeByte_other _ (3 * a.toNat + 2) (3 * a.toNat) _ (by omega),
    readByte_writeByte_other _ (3 * a.toNat + 1) (3 * a.toNat) _ (by omega),
    readByte_writeByte_other _ (3 * a.toNat + 2) (3 * a.toNat + 1) _ (by omega),
    readByte_writeByte_same, readByte_writeByte_same, readByte_writeByte_same]
  simp only [insnOfBytes_fields]

/-- A placed word leaves every other word alone. -/
theorem readWord_writeWord_other (m : List Host.Cell) (a b : Addr) (w : Insn) (h : b ≠ a) :
    Memory.readWord (Memory.writeWord m a w) b = Memory.readWord m b := by
  have hn : b.toNat ≠ a.toNat := fun e => h (BitVec.eq_of_toNat_eq e)
  simp only [Memory.readWord, Memory.writeWord]
  have h1 : ∀ i j, i < 3 → j < 3 → 3 * b.toNat + i ≠ 3 * a.toNat + j := by omega
  have h2 := h1 0
  simp only [Nat.add_zero] at h2
  have h3 := fun i => h1 i 0
  simp only [Nat.add_zero] at h3
  have h4 := h3 0
  simp only [Nat.add_zero] at h4
  simp [readByte_writeByte_other, h1, h2, h3, h4]

end Sys2Proof.Machine
end

