-- ==== Sys2Proof/Tests/Slice0.lean ====
section
/-! SUPPORT. Tests: the words of the encoding, the checks of well-formedness, one step of each instruction,
and for every statement a state that meets its hypotheses. Expected values are from the vectors of
95_test_vectors.md or worked by hand from the rules. -/

namespace Sys2Proof.Tests

open Sys2Proof.Machine

/-! ## Well-formedness: one ill-formed term for each check -/

/-- A stack-control word is written with the first row it matches. -/
theorem test_illFormed_stack :
    ([
      .popLoop true false 0,
      .popCntr true false 0,
      .popCntr false true 0,
      .pushSts true false false,
      .pushSts false true false,
      .pushSts false false true,
      .popSts true false false,
      .popSts false true false,
      .popSts false false true] : List Instr).all (fun i => !i.wellFormed) = true := by decide

/-- A mode-control term carries its own row's code. -/
theorem test_illFormed_ena_code :
    ([
      .enaTimer ⟨2, 0, 0, 0, 0, 0, 0⟩,
      .enaMMode ⟨0, 2, 0, 0, 0, 0, 0⟩,
      .enaArSat ⟨0, 0, 2, 0, 0, 0, 0⟩,
      .enaAvLatch ⟨0, 0, 0, 2, 0, 0, 0⟩,
      .enaBitRev ⟨0, 0, 0, 0, 2, 0, 0⟩,
      .enaSecReg ⟨0, 0, 0, 0, 0, 2, 0⟩,
      .enaGMode ⟨0, 0, 0, 0, 0, 0, 2⟩] : List Instr).all (fun i => !i.wellFormed) = true := by decide

/-- A mode-control word is written with its first field that acts. -/
theorem test_illFormed_enaMMode :
    ([
      .enaMMode ⟨2, 3, 0, 0, 0, 0, 0⟩] : List Instr).all (fun i => !i.wellFormed) = true := by decide

/-- A mode-control word is written with its first field that acts. -/
theorem test_illFormed_enaArSat :
    ([
      .enaArSat ⟨2, 0, 3, 0, 0, 0, 0⟩,
      .enaArSat ⟨0, 2, 3, 0, 0, 0, 0⟩] : List Instr).all (fun i => !i.wellFormed) = true := by decide

/-- A mode-control word is written with its first field that acts. -/
theorem test_illFormed_enaAvLatch :
    ([
      .enaAvLatch ⟨2, 0, 0, 3, 0, 0, 0⟩,
      .enaAvLatch ⟨0, 2, 0, 3, 0, 0, 0⟩,
      .enaAvLatch ⟨0, 0, 2, 3, 0, 0, 0⟩] : List Instr).all (fun i => !i.wellFormed) = true := by decide

/-- A mode-control word is written with its first field that acts. -/
theorem test_illFormed_enaBitRev :
    ([
      .enaBitRev ⟨2, 0, 0, 0, 3, 0, 0⟩,
      .enaBitRev ⟨0, 2, 0, 0, 3, 0, 0⟩,
      .enaBitRev ⟨0, 0, 2, 0, 3, 0, 0⟩,
      .enaBitRev ⟨0, 0, 0, 2, 3, 0, 0⟩] : List Instr).all (fun i => !i.wellFormed) = true := by decide

/-- A mode-control word is written with its first field that acts. -/
theorem test_illFormed_enaSecReg :
    ([
      .enaSecReg ⟨2, 0, 0, 0, 0, 3, 0⟩,
      .enaSecReg ⟨0, 2, 0, 0, 0, 3, 0⟩,
      .enaSecReg ⟨0, 0, 2, 0, 0, 3, 0⟩,
      .enaSecReg ⟨0, 0, 0, 2, 0, 3, 0⟩,
      .enaSecReg ⟨0, 0, 0, 0, 2, 3, 0⟩] : List Instr).all (fun i => !i.wellFormed) = true := by decide

/-- A mode-control word is written with its first field that acts. -/
theorem test_illFormed_enaGMode :
    ([
      .enaGMode ⟨2, 0, 0, 0, 0, 0, 3⟩,
      .enaGMode ⟨0, 2, 0, 0, 0, 0, 3⟩,
      .enaGMode ⟨0, 0, 2, 0, 0, 0, 3⟩,
      .enaGMode ⟨0, 0, 0, 2, 0, 0, 3⟩,
      .enaGMode ⟨0, 0, 0, 0, 2, 0, 3⟩,
      .enaGMode ⟨0, 0, 0, 0, 0, 2, 3⟩] : List Instr).all (fun i => !i.wellFormed) = true := by decide

/-- A mode-control term carries its own row's code. -/
theorem test_illFormed_dis_code :
    ([
      .disTimer ⟨3, 0, 0, 0, 0, 0, 0⟩,
      .disMMode ⟨0, 3, 0, 0, 0, 0, 0⟩,
      .disArSat ⟨0, 0, 3, 0, 0, 0, 0⟩,
      .disAvLatch ⟨0, 0, 0, 3, 0, 0, 0⟩,
      .disBitRev ⟨0, 0, 0, 0, 3, 0, 0⟩,
      .disSecReg ⟨0, 0, 0, 0, 0, 3, 0⟩,
      .disGMode ⟨0, 0, 0, 0, 0, 0, 3⟩] : List Instr).all (fun i => !i.wellFormed) = true := by decide

/-- A mode-control word is written with its first field that acts. -/
theorem test_illFormed_disMMode :
    ([
      .disMMode ⟨2, 2, 0, 0, 0, 0, 0⟩] : List Instr).all (fun i => !i.wellFormed) = true := by decide

/-- A mode-control word is written with its first field that acts. -/
theorem test_illFormed_disArSat :
    ([
      .disArSat ⟨2, 0, 2, 0, 0, 0, 0⟩,
      .disArSat ⟨0, 2, 2, 0, 0, 0, 0⟩] : List Instr).all (fun i => !i.wellFormed) = true := by decide

/-- A mode-control word is written with its first field that acts. -/
theorem test_illFormed_disAvLatch :
    ([
      .disAvLatch ⟨2, 0, 0, 2, 0, 0, 0⟩,
      .disAvLatch ⟨0, 2, 0, 2, 0, 0, 0⟩,
      .disAvLatch ⟨0, 0, 2, 2, 0, 0, 0⟩] : List Instr).all (fun i => !i.wellFormed) = true := by decide

/-- A mode-control word is written with its first field that acts. -/
theorem test_illFormed_disBitRev :
    ([
      .disBitRev ⟨2, 0, 0, 0, 2, 0, 0⟩,
      .disBitRev ⟨0, 2, 0, 0, 2, 0, 0⟩,
      .disBitRev ⟨0, 0, 2, 0, 2, 0, 0⟩,
      .disBitRev ⟨0, 0, 0, 2, 2, 0, 0⟩] : List Instr).all (fun i => !i.wellFormed) = true := by decide

/-- A mode-control word is written with its first field that acts. -/
theorem test_illFormed_disSecReg :
    ([
      .disSecReg ⟨2, 0, 0, 0, 0, 2, 0⟩,
      .disSecReg ⟨0, 2, 0, 0, 0, 2, 0⟩,
      .disSecReg ⟨0, 0, 2, 0, 0, 2, 0⟩,
      .disSecReg ⟨0, 0, 0, 2, 0, 2, 0⟩,
      .disSecReg ⟨0, 0, 0, 0, 2, 2, 0⟩] : List Instr).all (fun i => !i.wellFormed) = true := by decide

/-- A mode-control word is written with its first field that acts. -/
theorem test_illFormed_disGMode :
    ([
      .disGMode ⟨2, 0, 0, 0, 0, 0, 2⟩,
      .disGMode ⟨0, 2, 0, 0, 0, 0, 2⟩,
      .disGMode ⟨0, 0, 2, 0, 0, 0, 2⟩,
      .disGMode ⟨0, 0, 0, 2, 0, 0, 2⟩,
      .disGMode ⟨0, 0, 0, 0, 2, 0, 2⟩,
      .disGMode ⟨0, 0, 0, 0, 0, 2, 2⟩] : List Instr).all (fun i => !i.wellFormed) = true := by decide

/-- The other side of a move from the sequencer is no register of it. -/
theorem test_illFormed_moveFrom :
    ([
      .fromAstat .mstat,
      .fromMstat .mstat,
      .fromSstat .mstat,
      .fromImask .mstat,
      .fromIcntl .mstat,
      .fromCntr .mstat] : List Instr).all (fun i => !i.wellFormed) = true := by decide

/-- IFC, OWRCNTR and TOPPCSTACK are no sources. -/
theorem test_illFormed_moveTo :
    ([
      .toAstat .ifc,
      .toAstat .owrcntr,
      .toAstat .toppcstack,
      .toMstat .ifc,
      .toMstat .owrcntr,
      .toMstat .toppcstack,
      .toImask .ifc,
      .toImask .owrcntr,
      .toImask .toppcstack,
      .toIcntl .ifc,
      .toIcntl .owrcntr,
      .toIcntl .toppcstack,
      .toCntr .ifc,
      .toCntr .owrcntr,
      .toCntr .toppcstack,
      .toIfc .ifc,
      .toIfc .owrcntr,
      .toIfc .toppcstack,
      .toOwrcntr .ifc,
      .toOwrcntr .owrcntr,
      .toOwrcntr .toppcstack] : List Instr).all (fun i => !i.wellFormed) = true := by decide

/-- The registers of 46_toppcstack.md R226. -/
theorem test_illFormed_toppc :
    ([
      .fromToppcstack .px,
      .toToppcstack .px] : List Instr).all (fun i => !i.wellFormed) = true := by decide

/-! ## Decoding: one word of every row, from the formats of 30_encoding.md R72 to R80 -/

theorem test_decode_jump : decode 0x18200F = .instr (.jump 0x0200) := by decide
theorem test_decode_ifJump : decode 0x182000 = .instr (.ifJump .eq 0x0200) := by decide
theorem test_decode_call : decode 0x1C300F = .instr (.call 0x0300) := by decide
theorem test_decode_ifCall : decode 0x1D2341 = .instr (.ifCall .ne 0x1234) := by decide
theorem test_decode_doUntil : decode 0x14107E = .instr (.doUntil 0x0107 .ce) := by decide
theorem test_decode_jumpInd : decode 0x0B00CF = .instr (.jumpInd .i7) := by decide
theorem test_decode_ifJumpInd : decode 0x0B0041 = .instr (.ifJumpInd .ne .i5) := by decide
theorem test_decode_callInd : decode 0x0B009F = .instr (.callInd .i6) := by decide
theorem test_decode_ifCallInd : decode 0x0B0010 = .instr (.ifCallInd .eq .i4) := by decide
theorem test_decode_rts : decode 0x0A000F = .instr (.rts) := by decide
theorem test_decode_ifRts : decode 0x0A000E = .instr (.ifRts .notCe) := by decide
theorem test_decode_rti : decode 0x0A001F = .instr (.rti) := by decide
theorem test_decode_ifRti : decode 0x0A0014 = .instr (.ifRti .lt) := by decide
theorem test_decode_flagInJump : decode 0x031232 = .instr (.flagInJump 0x0123) := by decide
theorem test_decode_notFlagInJump : decode 0x030080 = .instr (.notFlagInJump 0x0008) := by decide
theorem test_decode_flagInCall : decode 0x030007 = .instr (.flagInCall 0x1000) := by decide
theorem test_decode_notFlagInCall : decode 0x03ABCD = .instr (.notFlagInCall 0x3ABC) := by decide
theorem test_decode_nop : decode 0x000000 = .instr (.nop) := by decide
theorem test_decode_idle : decode 0x028000 = .instr (.idle) := by decide
theorem test_decode_idleN : decode 0x028008 = .instr (.idleN .n128) := by decide
theorem test_decode_popPc : decode 0x04001C = .instr (.popPc true true 0) := by decide
theorem test_decode_popLoop : decode 0x04000C = .instr (.popLoop false true 0) := by decide
theorem test_decode_popCntr : decode 0x040004 = .instr (.popCntr false false 0) := by decide
theorem test_decode_pushSts : decode 0x040002 = .instr (.pushSts false false false) := by decide
theorem test_decode_popSts : decode 0x040003 = .instr (.popSts false false false) := by decide
theorem test_decode_enaInts : decode 0x040060 = .instr (.enaInts) := by decide
theorem test_decode_disInts : decode 0x040040 = .instr (.disInts) := by decide
theorem test_decode_enaTimer : decode 0x0CC000 = .instr (.enaTimer ⟨3, 0, 0, 0, 0, 0, 0⟩) := by decide
theorem test_decode_disTimer : decode 0x0C8000 = .instr (.disTimer ⟨2, 0, 0, 0, 0, 0, 0⟩) := by decide
theorem test_decode_enaMMode : decode 0x0C3000 = .instr (.enaMMode ⟨0, 3, 0, 0, 0, 0, 0⟩) := by decide
theorem test_decode_disMMode : decode 0x0C2000 = .instr (.disMMode ⟨0, 2, 0, 0, 0, 0, 0⟩) := by decide
theorem test_decode_enaArSat : decode 0x0C0C00 = .instr (.enaArSat ⟨0, 0, 3, 0, 0, 0, 0⟩) := by decide
theorem test_decode_disArSat : decode 0x0C0B00 = .instr (.disArSat ⟨0, 0, 2, 3, 0, 0, 0⟩) := by decide
theorem test_decode_enaAvLatch : decode 0x0C0300 = .instr (.enaAvLatch ⟨0, 0, 0, 3, 0, 0, 0⟩) := by decide
theorem test_decode_disAvLatch : decode 0x0C0200 = .instr (.disAvLatch ⟨0, 0, 0, 2, 0, 0, 0⟩) := by decide
theorem test_decode_enaBitRev : decode 0x0C00C0 = .instr (.enaBitRev ⟨0, 0, 0, 0, 3, 0, 0⟩) := by decide
theorem test_decode_disBitRev : decode 0x0C0080 = .instr (.disBitRev ⟨0, 0, 0, 0, 2, 0, 0⟩) := by decide
theorem test_decode_enaSecReg : decode 0x0C0030 = .instr (.enaSecReg ⟨0, 0, 0, 0, 0, 3, 0⟩) := by decide
theorem test_decode_disSecReg : decode 0x0C0020 = .instr (.disSecReg ⟨0, 0, 0, 0, 0, 2, 0⟩) := by decide
theorem test_decode_enaGMode : decode 0x0C000C = .instr (.enaGMode ⟨0, 0, 0, 0, 0, 0, 3⟩) := by decide
theorem test_decode_disGMode : decode 0x0C0008 = .instr (.disGMode ⟨0, 0, 0, 0, 0, 0, 2⟩) := by decide
theorem test_decode_fromAstat : decode 0x0D0310 = .instr (.fromAstat .ax1) := by decide
theorem test_decode_toAstat : decode 0x0D0C00 = .instr (.toAstat .ax0) := by decide
theorem test_decode_fromMstat : decode 0x0D0301 = .instr (.fromMstat .ax0) := by decide
theorem test_decode_toMstat : decode 0x0D0C10 = .instr (.toMstat .ax0) := by decide
theorem test_decode_fromSstat : decode 0x0D0342 = .instr (.fromSstat .ay0) := by decide
theorem test_decode_fromImask : decode 0x0D0313 = .instr (.fromImask .ax1) := by decide
theorem test_decode_toImask : decode 0x0D0C30 = .instr (.toImask .ax0) := by decide
theorem test_decode_fromIcntl : decode 0x0D0304 = .instr (.fromIcntl .ax0) := by decide
theorem test_decode_toIcntl : decode 0x0D0C40 = .instr (.toIcntl .ax0) := by decide
theorem test_decode_fromCntr : decode 0x0D03A5 = .instr (.fromCntr .ar) := by decide
theorem test_decode_toCntr : decode 0x0D0C50 = .instr (.toCntr .ax0) := by decide
theorem test_decode_toIfc : decode 0x0D0CC0 = .instr (.toIfc .ax0) := by decide
theorem test_decode_toOwrcntr : decode 0x0D0CD0 = .instr (.toOwrcntr .ax0) := by decide
theorem test_decode_fromToppcstack : decode 0x0D039F = .instr (.fromToppcstack .se) := by decide
theorem test_decode_toToppcstack : decode 0x0D0EF3 = .instr (.toToppcstack .i7) := by decide
theorem test_decode_astatConst : decode 0x3C0000 = .instr (.astatConst 0) := by decide
theorem test_decode_mstatConst : decode 0x3C0011 = .instr (.mstatConst 1) := by decide
theorem test_decode_imaskConst : decode 0x3C0203 = .instr (.imaskConst 0x20) := by decide
theorem test_decode_icntlConst : decode 0x3C0144 = .instr (.icntlConst 0x14) := by decide
theorem test_decode_cntrConst : decode 0x3C00A5 = .instr (.cntrConst 10) := by decide
theorem test_decode_ifcConst : decode 0x3C040C = .instr (.ifcConst 0x40) := by decide
theorem test_decode_owrcntrConst : decode 0x3C007D = .instr (.owrcntrConst 7) := by decide

/-- The words that the spec refuses, and those that name nothing or lie outside the table. -/
theorem test_decode_others :
    decode 0x028003 = .reject .reservedDivisor ∧ decode 0x000001 = .reject .notNop ∧
    decode 0x0A002F = .reject .nonzeroReserved ∧ decode 0x0D0F7F = .reject .toppcRegister ∧
    decode 0x0D0FF6 = .reject .toppcRegister ∧ decode 0x0D0FFF = .reject .toppcRegister ∧
    decode 0x0D0C20 = .reject .sstatWrite ∧ decode 0x0D030D = .reject .owrcntrRead ∧
    decode 0x0D030C = .reject .ifcRead ∧ decode 0x0D010C = .reject .reservedRegister ∧
    decode 0x300000 = .reject .dataRegisterLoad ∧ decode 0x0C0000 = .beyond .inert ∧
    decode 0x040000 = .beyond .inert ∧ decode 0x0D0001 = .beyond (.plainMove .ax0 .ax1) ∧
    decode 0x3400A8 = .beyond (.plainLoad .l0 10) ∧
    decode 0x020000 = .beyond (.outOfScope 0x020000) := by decide

/-- Too few bytes are refused, and the bytes after a word are left. -/
theorem test_decodeBytes :
    decodeBytes [0x0F, 0x20] = (.reject .truncated, [0x0F, 0x20]) ∧
    decodeBytes [0x0F, 0x20, 0x18, 0x55] = (.instr (.jump 0x0200), [0x55]) := by decide

/-! ## One step of each instruction -/

/-- A part of the next state of an outcome. -/
def after {α : Type} (f : State → α) : Host.Outcome State Fault Refusal → Option α
  | .next t => some (f t)
  | _ => none

/-- The refusal of an outcome. -/
def refusal : Host.Outcome State Fault Refusal → Option Refusal
  | .refused e => some e
  | _ => none

/-- The reset state with a program counter and a PC stack, after an ICNTL has come into force. -/
def at' (pc : Addr) (pcs : List Addr) : State :=
  ((State.reset.setPc pc).setPcstk { State.reset.pcstk with words := pcs }).setIcntlKnown true

/-- The same state with other settings of the configuration. -/
def withCfg (f : Cfg → Cfg) (s : State) : State := { s with cfg := f s.cfg }

/-- A state inside loops with the given ends and conditions. -/
def inLoop (pc : Addr) (pcs : List Addr) (ls : List (Addr × Term)) : State :=
  (at' pc pcs).setLpstk { State.reset.lpstk with words := ls.map fun x => ⟨x.1, x.2, 1⟩ }

/-- A state with a valid counter and a count stack. -/
def counting (c : Count) (cs : List Count) (s : State) : State :=
  ((s.setCntr c).setCntrValid true).setCntstk { s.cntstk with words := cs }

/-- The same state on another member. -/
def onProc (p : Proc) (s : State) : State := { s with cfg := { s.cfg with proc := p } }

/-- The words of the PC stack and of the loop stack's ends. -/
def pcs (s : State) : List Addr × List Addr := (s.pcstk.words, s.lpstk.words.map (·.fin))

-- Vectors J1 and S4.
theorem test_jump :
    after (fun t => (t.pc, pcs t)) (exec (.jump 0x200) (inLoop 0x50 [0x48] [(0x50, .forever)])) =
      some (0x200, [0x48], [0x50]) := by decide

-- Vectors J4 to J9, D16.
theorem test_ifJump_eq :
    after (·.pc) (exec (.ifJump .eq 0x200) ((at' 0x40 []).setAstat 1)) = some 0x200 ∧
    after (·.pc) (exec (.ifJump .eq 0x200) ((at' 0x40 []).setAstat 0)) = some 0x41 := by decide
theorem test_ifJump_notCe :
    after (fun t => (t.pc, t.cntr, t.cntrValid, t.cntstk.words))
      (exec (.ifJump .notCe 0x100) (counting 3 [] (at' 0x50 []))) = some (0x100, 2, true, []) ∧
    after (fun t => (t.pc, t.cntr, t.cntrValid, t.cntstk.words))
      (exec (.ifJump .notCe 0x100) (counting 1 [9] (at' 0x50 []))) = some (0x51, 9, true, []) ∧
    after (fun t => (t.pc, t.cntr, t.cntrValid, t.cntstk.words))
      (exec (.ifJump .notCe 0x100) (counting 1 [] (at' 0x50 []))) = some (0x51, 0, false, []) ∧
    after (fun t => (t.pc, t.cntr))
      (exec (.ifJump .notCe 0x100) (counting 0 [] (at' 0x50 []))) = some (0x100, 0x3FFF) ∧
    refusal (exec (.ifJump .notCe 0x105) (counting 1 [] (inLoop 0x107 [0x105] [(0x107, .ce)]))) =
      some .notCeJumpAtLoopEnd := by decide

-- Vectors J14, J15, J18.
theorem test_call :
    after (fun t => (t.pc, t.pcstk.words)) (exec (.call 0x300) (at' 0x100 [])) =
      some (0x300, [0x101]) ∧
    after (fun t => t.pcstk.words) (exec (.call 0x300) (at' 0x3FFF [])) = some [0] := by decide
theorem test_call_full :
    after (fun t => (t.pc, t.pcstk.words.length, t.pcstk.ovf))
      (exec (.call 0x300) (at' 0x100 (List.replicate 16 7))) = some (0x300, 16, true) := by decide

-- Vectors J16, J17, J19.
theorem test_ifCall :
    after (fun t => (t.pc, t.pcstk.words)) (exec (.ifCall .ne 0x1234) ((at' 0x100 []).setAstat 1)) =
      some (0x101, []) ∧
    after (fun t => (t.pc, t.pcstk.words)) (exec (.ifCall .ne 0x1234) (at' 0x100 [])) =
      some (0x1234, [0x101]) ∧
    refusal (exec (.ifCall .notCe 0x1234) (at' 0x100 [])) = some .notCeCall := by decide

-- Vectors D1, D11, D17.
theorem test_doUntil :
    after (fun t => (t.pc, pcs t, t.sstat)) (exec (.doUntil 0x107 .ce) (at' 0x104 [])) =
      some (0x105, ([0x105], [0x107]), 0x14) ∧
    refusal (exec (.doUntil 0x107 .eq) (inLoop 0x105 [0x105] [(0x107, .ce)])) = some .sameLoopEnd ∧
    refusal (exec (.doUntil 0x110 .ce) (inLoop 0x107 [0x105] [(0x107, .ce)])) =
      some .doAtLoopEnd := by decide

/-- I4 to I7 with four values. -/
def indexed (s : State) : State :=
  s.setDag { s.dag with i4 := 0x321, i5 := 0x100, i6 := 0x222, i7 := 0x3FFE }

-- Vectors J11, J12, J13, J20.
theorem test_indirect :
    after (·.pc) (exec (.jumpInd .i4) (indexed (at' 0x10 []))) = some 0x321 ∧
    after (·.pc) (exec (.jumpInd .i7) (indexed (at' 0x10 []))) = some 0x3FFE ∧
    after (·.pc) (exec (.ifJumpInd .ne .i5) ((indexed (at' 0x10 [])).setAstat 1)) = some 0x11 ∧
    after (·.pc) (exec (.ifJumpInd .ne .i5) (indexed (at' 0x10 []))) = some 0x100 ∧
    after (fun t => (t.pc, t.pcstk.words)) (exec (.callInd .i6) (indexed (at' 0x10 []))) =
      some (0x222, [0x11]) ∧
    after (fun t => (t.pc, t.pcstk.words)) (exec (.ifCallInd .eq .i6) (indexed (at' 0x10 []))) =
      some (0x11, []) := by decide

-- Vectors J21, J22, J23, J25.
theorem test_rts :
    after (fun t => (t.pc, t.pcstk.words)) (exec .rts (at' 0x300 [0x101, 7])) = some (0x101, [7]) ∧
    refusal (exec .rts (at' 0x300 [])) = some (.emptyStack .pc) ∧
    after (fun t => (t.pc, t.pcstk.words)) (exec (.ifRts .eq) (at' 0x300 [0x101])) =
      some (0x301, [0x101]) ∧
    after (fun t => (t.pc, t.pcstk.words, t.cntr))
      (exec (.ifRts .notCe) (counting 3 [] (at' 0x300 [0x101]))) = some (0x101, [], 3) := by decide

/-- The start of vector J26. -/
def inService : State :=
  ((((at' 6 [0x123]).setStstk { State.reset.ststk with words := [⟨5, 0, 0x21⟩] }).setAstat
    0x40).setMstat 1).setImask 0

-- Vectors J26, J27, J28.
theorem test_rti :
    after (fun t => ((t.pc, t.astat, t.mstat), t.imask, t.pcstk.words, t.ststk.words.length))
      (exec .rti inService) = some ((0x123, 5, 0), 0x21, [], 0) ∧
    after (fun t => (t.pc, t.astat, t.pcstk.words)) (exec (.ifRti .lt) inService) =
      some (7, 0x40, [0x123]) ∧
    refusal (exec .rti (at' 6 [0x123])) = some (.emptyStack .status) := by decide

-- Vectors J29 to J34.
theorem test_flagIn :
    after (·.pc) (exec (.flagInJump 0x123) ((at' 0x20 []).setFlagIn true)) = some 0x123 ∧
    after (·.pc) (exec (.flagInJump 0x123) (at' 0x20 [])) = some 0x21 ∧
    after (·.pc) (exec (.notFlagInJump 8) (at' 0x20 [])) = some 8 ∧
    after (fun t => (t.pc, t.pcstk.words)) (exec (.flagInCall 0x1000) ((at' 0x20 []).setFlagIn true)) =
      some (0x1000, [0x21]) ∧
    after (fun t => (t.pc, t.pcstk.words)) (exec (.notFlagInCall 0x3ABC) (at' 0x20 [])) =
      some (0x3ABC, [0x21]) ∧
    after (fun t => (t.pc, t.pcstk.words))
      (exec (.notFlagInCall 0x3ABC) ((at' 0x20 []).setFlagIn true)) = some (0x21, []) := by decide

-- Vectors S1, S2, S5.
theorem test_nop :
    after (·.pc) (exec .nop (at' 0x123 [])) = some 0x124 ∧
    after (·.pc) (exec .nop (at' 0x3FFF [])) = some 0 ∧
    after (·.pc) (exec .nop (inLoop 0x60 [0x48] [(0x50, .ce), (0x60, .ce)])) = some 0x61 := by decide

-- Vectors of 95_test_vectors.md 1.6 and D4 to D6.
theorem test_loopEnd :
    after (fun t => (t.pc, t.cntr, pcs t)) (exec .nop (counting 4 [] (inLoop 0x50 [0x48] [(0x50, .ce)]))) =
      some (0x48, 3, [0x48], [0x50]) ∧
    after (fun t => (t.pc, t.cntr, t.cntrValid, pcs t))
      (exec .nop (counting 1 [] (inLoop 0x50 [0x48] [(0x50, .ce)]))) =
      some (0x51, 0, false, [], []) ∧
    after (fun t => (t.pc, pcs t)) (exec .nop (inLoop 0x203 [0x201] [(0x203, .eq)])) =
      some (0x201, [0x201], [0x203]) ∧
    after (fun t => (t.pc, pcs t)) (exec .nop ((inLoop 0x203 [0x201] [(0x203, .eq)]).setAstat 1)) =
      some (0x204, [], []) ∧
    after (·.pc) (exec .nop ((inLoop 0x107 [0x105] [(0x107, .forever)]).setAstat 0xFF)) =
      some 0x105 := by decide

-- Vectors I2, I3, D12.
theorem test_idle :
    after (fun t => (t.pc, t.idle, t.idleDiv)) (exec .idle (at' 0x200 [])) =
      some (0x201, true, .one) ∧
    after (fun t => (t.pc, t.idle, t.idleDiv)) (exec (.idleN .n16) (at' 0x200 [])) =
      some (0x201, true, .by .n16) ∧
    after (fun t => (t.pc, t.idle, t.cntr, pcs t))
      (exec .idle (counting 4 [] (inLoop 0x107 [0x105] [(0x107, .ce)]))) =
      some (0x108, true, 4, [0x105], [0x107]) := by decide

-- Vectors M34 to M39.
theorem test_pops :
    after (fun t => t.pcstk.words) (exec (.popPc false false 0) (at' 0 [0x105, 0x33])) = some [0x33] ∧
    refusal (exec (.popPc false false 0) (at' 0 [])) = some (.emptyStack .pc) ∧
    after pcs (exec (.popLoop false false 0) (inLoop 0 [] [(0x107, .ce)])) = some ([], []) ∧
    after (fun t => (t.cntr, t.cntstk.words)) (exec (.popCntr false false 0) (counting 2 [9] (at' 0 []))) =
      some (9, []) ∧
    after (fun t => (pcs t, t.cntr, t.cntstk.words))
      (exec (.popPc true true 0) (counting 2 [9] (inLoop 0 [0x105] [(0x107, .ce)]))) =
      some (([], []), 9, []) := by decide
theorem test_popLoop_beforeEnd :
    refusal (exec (.popLoop false false 0) (inLoop 0x106 [0x105] [(0x107, .ce)])) =
      some .popLoopBeforeEnd := by decide

-- Vectors M45, M46.
theorem test_pushSts :
    after (fun t => (t.ststk.words, t.sstat))
      (exec (.pushSts false false false) (((at' 0 []).setAstat 5).setImask 0x21)) =
      some ([⟨5, 0, 0x21⟩], 0x45) := by decide
theorem test_popSts :
    after (fun t => ((t.pc, t.astat, t.mstat), t.imask, t.ststk.words.length, t.pcstk.words))
      (exec (.popSts false false false) inService) = some ((7, 5, 0), 0x21, 0, [0x123]) := by decide

-- Vectors M40, M41, M42.
theorem test_ints :
    after (·.intsEnabled) (exec .disInts (onProc .adsp2181 (at' 0 []))) = some false ∧
    after (·.intsEnabled) (exec .enaInts (onProc .adsp2181 ((at' 0 []).setInts false false 0))) =
      some true ∧
    refusal (exec .enaInts (at' 0 [])) = some .noGlobalInts ∧
    refusal (exec .disInts (at' 0 [])) = some .noGlobalInts := by decide

/-- MSTAT after an instruction, from a value. -/
def mstatAfter (i : Instr) (m : BitVec 7) : Option (BitVec 7) :=
  after (·.mstat) (exec i ((at' 0 []).setMstat m))

-- Vectors M27 to M32; the others by 10_state.md R32.
theorem test_ena :
    mstatAfter (.enaSecReg ⟨0, 0, 0, 0, 0, 3, 0⟩) 0 = some 0x01 ∧
    mstatAfter (.enaBitRev ⟨0, 0, 0, 0, 3, 0, 0⟩) 0 = some 0x02 ∧
    mstatAfter (.enaAvLatch ⟨0, 0, 0, 3, 0, 0, 0⟩) 0 = some 0x04 ∧
    mstatAfter (.enaArSat ⟨0, 0, 3, 0, 0, 0, 0⟩) 0 = some 0x08 ∧
    mstatAfter (.enaMMode ⟨0, 3, 0, 0, 0, 0, 0⟩) 0 = some 0x10 ∧
    mstatAfter (.enaTimer ⟨3, 0, 0, 0, 0, 0, 0⟩) 0 = some 0x20 ∧
    mstatAfter (.enaGMode ⟨0, 0, 0, 0, 0, 0, 3⟩) 0 = some 0x40 := by decide
theorem test_dis :
    mstatAfter (.disSecReg ⟨0, 0, 0, 0, 0, 2, 0⟩) 0x7F = some 0x7E ∧
    mstatAfter (.disBitRev ⟨0, 0, 0, 0, 2, 0, 0⟩) 0x7F = some 0x7D ∧
    mstatAfter (.disAvLatch ⟨0, 0, 0, 2, 0, 0, 0⟩) 0x7F = some 0x7B ∧
    mstatAfter (.disArSat ⟨0, 0, 2, 3, 0, 0, 0⟩) 0x08 = some 0x04 ∧
    mstatAfter (.disMMode ⟨0, 2, 0, 0, 0, 0, 0⟩) 0x7F = some 0x6F ∧
    mstatAfter (.disTimer ⟨2, 0, 0, 0, 0, 0, 0⟩) 0x7F = some 0x5F ∧
    mstatAfter (.disGMode ⟨0, 0, 0, 0, 0, 0, 2⟩) 0x7F = some 0x3F := by decide

-- Vectors M6, M9, M14, M43.
theorem test_reads :
    after (·.primary.ax1) (exec (.fromAstat .ax1) ((at' 0 []).setAstat 0xA5)) = some 0x00A5 ∧
    after (·.primary.ax0) (exec (.fromMstat .ax0) ((at' 0 []).setMstat 0x7E)) = some 0x007E ∧
    after (·.primary.ay0) (exec (.fromSstat .ay0) (at' 0 [])) = some 0x0055 ∧
    after (·.primary.ax1) (exec (.fromImask .ax1) ((at' 0 []).setImask 0x21)) = some 0x0021 ∧
    after (·.primary.ax0) (exec (.fromIcntl .ax0) ((at' 0 []).setIcntl 0x14 0x14 0)) =
      some 0x0014 ∧
    after (·.primary.ar) (exec (.fromCntr .ar) (counting 0x3FFF [] (at' 0 []))) =
      some 0x3FFF := by decide
theorem test_read_shadow :
    after (fun t => (t.primary.ax0, t.shadow.ax0)) (exec (.fromMstat .ax0) ((at' 0 []).setMstat 1)) =
      some (0, 1) := by decide

/-- A state with AX0 holding a value. -/
def ax0 (v : Bus) (s : State) : State := s.writePlain .ax0 v

-- Vectors M7, M12, M13, M23, M25, M44.
theorem test_writes :
    after (·.astat) (exec (.toAstat .ax0) (ax0 0xFF01 (at' 0 []))) = some 0x01 ∧
    after (·.mstat) (exec (.toMstat .ax0) (ax0 0xFF81 (at' 0 []))) = some 0x01 ∧
    after (·.imask) (exec (.toImask .ax0) (ax0 0xFFFF (at' 0 []))) = some 0x3F ∧
    after (fun t => (t.imask, t.imaskHoldoff))
      (exec (.toImask .ax0) (onProc .adsp2181 (ax0 0xFFFF (at' 0 [])))) = some (0x3FF, 1) ∧
    after (·.icntl) (exec (.toIcntl .ax0) (ax0 0xFFFF (at' 0 []))) = some 0x1F ∧
    after (fun t => (t.cntr, t.cntrValid, t.cntstk.words))
      (exec (.toCntr .ax0) (ax0 0xC005 (at' 0 []))) = some (5, true, []) := by decide
theorem test_writes_counter :
    after (fun t => (t.cntr, t.cntstk.words)) (exec (.toOwrcntr .ax0) (ax0 7 (counting 2 [9] (at' 0 [])))) =
      some (7, [9]) ∧
    after (·.req.irq2) (exec (.toIfc .ax0) (ax0 0x800 (at' 0 []))) = some false ∧
    after (·.req.irq2) (exec (.toIfc .ax0) (ax0 0x800 ((at' 0 []).setIcntl 4 4 0))) =
      some true := by decide

-- Vector Z4, R296: to unmask before ICNTL is in force is refused, to write a mask of zeros is not.
theorem test_unmask_beforeIcntl :
    refusal (exec (.imaskConst 0x20) State.reset) = some .unmaskBeforeIcntl ∧
    refusal (exec (.toImask .ax0) (ax0 0x20 State.reset)) = some .unmaskBeforeIcntl ∧
    refusal (exec (.imaskConst 0x20) (State.reset.setIcntl 0x14 0 2)) = some .unmaskBeforeIcntl ∧
    after (·.imask) (exec (.imaskConst 0) State.reset) = some 0 ∧
    after (·.icntlKnown) (exec .nop (State.reset.setIcntl 0x14 0 1)) = some true := by decide

-- Vectors M1 to M4, M18, M19, M21, M24, M26, D14, D15.
theorem test_loads :
    after (·.astat) (exec (.astatConst 0) ((at' 0 []).setAstat 0xFF)) = some 0 ∧
    after (·.mstat) (exec (.mstatConst 1) (at' 0 [])) = some 1 ∧
    after (·.imask) (exec (.imaskConst 0x20) (at' 0 [])) = some 0x20 ∧
    after (fun t => (t.icntl, t.icntlEff, t.icntlDelay)) (exec (.icntlConst 0x14) (at' 0 [])) =
      some (0x14, 0, 1) ∧
    after (fun t => (t.cntr, t.cntstk.words, t.sstat)) (exec (.cntrConst 3) (counting 10 [] (at' 0 []))) =
      some (3, [10], 0x51) ∧
    after (·.req.timer) (exec (.ifcConst 0x40) (at' 0 [])) = some true ∧
    after (fun t => (t.cntr, t.cntstk.words)) (exec (.owrcntrConst 7) (counting 2 [9] (at' 0 []))) =
      some (7, [9]) := by decide
theorem test_loads_refused :
    refusal (exec (.ifcConst 0x41) (at' 0 [])) = some .ifcForceAndClear ∧
    refusal (exec (.owrcntrConst 7) (inLoop 0x107 [0x105] [(0x107, .ce)])) = some .owrcntrAtLoopEnd ∧
    refusal (exec (.cntrConst 7) (inLoop 0x107 [0x105] [(0x107, .ce)])) = some .cntrAtLoopEnd := by
  decide

-- Vectors T1, T2, T3, T13, T16.
theorem test_toppc :
    after (fun t => (t.primary.ax0, t.pcstk.words, t.prevKind))
      (exec (.fromToppcstack .ax0) (at' 0 [0x105, 0x33])) = some (0x105, [0x33], .toppcRead) ∧
    after (fun t => (t.primary.se, t.pcstk.words)) (exec (.fromToppcstack .se) (at' 0 [0x234])) =
      some (0x34, []) ∧
    after (fun t => (t.pcstk.words, t.prevKind)) (exec (.toToppcstack .ax0) (ax0 0xC123 (at' 0 []))) =
      some ([0x123], .toppcWrite) ∧
    refusal (exec (.fromToppcstack .ax0) (inLoop 0x106 [0x105] [(0x107, .ce)])) =
      some .toppcReadNearLoopEnd := by decide

-- Vectors T6, T7, T9, T10.
theorem test_toppc_slot :
    refusal (exec .nop ((at' 0 [1]).setKinds .toppcRead .other)) = none ∧
    refusal (exec (.ifCall .eq 5) ((at' 0 [1]).setKinds .toppcRead .other)) = some .afterToppcRead ∧
    refusal (exec (.fromSstat .ax0) ((at' 0 [1]).setKinds .toppcRead .other)) =
      some .afterToppcRead ∧
    refusal (exec .rti (inService.setKinds .toppcWrite .other)) = some .rtiAfterToppc ∧
    refusal (exec (.call 5) ((at' 0 [1]).setKinds .toppcWrite .other)) = none := by decide

-- Vectors J10, T14, T11, with the guards on.
theorem test_guards :
    refusal (exec (.ifJump .notCe 5) (withCfg (fun c => { c with guardInvalidCounter := true })
      (at' 0 []))) = some .invalidCounter ∧
    refusal (exec .nop (withCfg (fun c => { c with guardLoopBalance := true })
      (inLoop 0x50 [0x48, 7] [(0x50, .eq)]))) = some .unbalancedLoop ∧
    refusal (exec .rts (withCfg (fun c => { c with guardRestriction4 := true })
      ((at' 0 [1]).setKinds .other .toppcRead))) = some .restriction4 := by decide

-- 10_state.md R15: after a POP CNTR of the empty count stack, one push makes pops and pushes equal.
theorem test_popCntr_empty :
    after (·.sstat) (exec (.popCntr false false 0) (at' 0 [])) = some 0x55 ∧
    (((Stack.empty : Stack Count).popNone.push 4 7).words,
      ((Stack.empty : Stack Count).popNone.push 4 7).isEmpty) = ([7], true) := by decide

-- 10_state.md R25: the bits each class may change; R31: with the overflow latch on AV stays set.
theorem test_statusAfter :
    [StatusClass.alu, .abs, .divide, .multiply, .exponent, .none].map
      (fun c => statusAfter false c 0x00 0xFF) = [0x0F, 0x1F, 0x20, 0x40, 0x80, 0x00] ∧
    statusAfter true .alu 0x04 0x00 = 0x04 ∧ statusAfter false .alu 0x04 0x00 = 0x00 ∧
    statusAfter true .alu 0x0B 0x00 = 0x00 ∧ statusAfter true .alu 0x00 0x04 = 0x04 := by decide

/-! ## Interrupts, reset and the step -/

/-- A request of the timer, enabled. -/
def timerDue (s : State) : State := (s.setImask 1).setReq (s.req.set .timer true)

-- Vectors S3, I6, I7 and Z1.
theorem test_entry :
    after (fun t => (t.pc, t.pcstk.words, t.ststk.words, t.imask, t.req.timer))
      (step (timerDue (at' 0x100 []))) = some (0x18, [0x100], [⟨0, 0, 1⟩], 0, false) ∧
    after (fun t => (t.idle, t.pc)) (step (timerDue ((at' 0x201 []).setIdle true))) =
      some (false, 0x18) ∧
    after (fun t => (t.idle, t.pc)) (step (((at' 0x201 []).setIdle true).setImask 1)) =
      some (true, 0x201) := by decide
theorem test_reset :
    after (fun t => (t.pc, t.sstat, t.imask, t.idle, t.cntrValid))
      (step ((timerDue (counting 7 [1] (at' 0x1234 [5]))).setInputs [[.reset]])) =
      some (0, 0x55, 0, false, false) := by decide

-- Table 3.8 (95_test_vectors.md 1.9).
theorem test_imaskAfter :
    imaskAfter false 3 0x3F = 0 ∧ imaskAfter true 0 0x3F = 0x3E ∧ imaskAfter true 2 0x3F = 0x38 ∧
    imaskAfter true 5 0x3F = 0 ∧ imaskAfter true 1 0x2A = 0x28 ∧ imaskAfter true 3 0x2A = 0x20 := by
  decide

-- Vector X4: a falling edge is latched; X7: a level is seen at the pin.
theorem test_pins :
    ((((at' 0 []).setIcntl 0x14 0x14 0).setInputs [[.pin .irq2 true]]).takeInputs.req.irq2,
      ((at' 0 []).setInputs [[.pin .irq2 true]]).takeInputs.req.irq2,
      (((at' 0 []).setImask 0x20).setInputs [[.pin .irq2 true]]).takeInputs.serviceable) =
      (true, false, some .irq2) := by decide

/-- A step fetches, decodes and runs the placed word (vector J1). -/
theorem test_step : after (·.pc) (step ((at' 0x40 []).withFetchWord 24 0x18200F)) = some 0x200 := by
  decide

-- 30_encoding.md R78: without a listing the INTS words are not admitted; 20_memory.md R61: a location that
-- an instruction has stored to is not executed.
theorem test_step_refused :
    refusal (step ((onProc .adsp2181 (at' 0x40 [])).withFetchWord 24 0x040060)) =
      some (.undecodable .unlistedWord) ∧
    after (·.intsEnabled) (step ((withCfg (fun c => { c with intsListed := true })
      (onProc .adsp2181 (at' 0x40 []))).withFetchWord 24 0x040040)) = some false ∧
    refusal (step (((at' 0x40 []).withFetchWord 24 0).setPmStored [0x40])) = some .storedWord := by
  decide

/-- The host's word reaches the decoder. -/
theorem test_decodeTableWord : decodeTableWord 24 0x0B009F = some (.callInd .i6) := by decide

/-! ## States that meet the hypotheses of the statements -/

/-- In a loop of each kind, at its last instruction. -/
def atEnd (t : Term) : State := counting 4 [] (inLoop 0x107 [0x105] [(0x107, t)])

theorem unguarded_at' (pc : Addr) (pcs : List Addr) : (at' pc pcs).unguarded := ⟨rfl, rfl, rfl⟩

theorem witness_DecodeOfEncode : (Instr.disGMode ⟨0, 1, 0, 1, 0, 0, 2⟩).wellFormed = true := by decide

theorem witness_EncodeOfDecode : decode 0x0C1108 = .instr (.disGMode ⟨0, 1, 0, 1, 0, 0, 2⟩) := by decide

/-- A word for each clause about reserved words, at the nearest value that meets it. -/
theorem witness_EncodeOfDecode_reserved :
    field (0x000001 : Insn) 16 8 = 0x00 ∧
    (field (0x028010 : Insn) 15 1 = 1 ∧ field (0x028010 : Insn) 4 11 ≠ 0) ∧
    (field (0x028003 : Insn) 4 11 = 0 ∧ field (0x028003 : Insn) 0 4 ∉ [(0 : BitVec 4), 1, 2, 4, 8]) ∧
    field (0x040020 : Insn) 5 11 ≠ 0 ∧ field (0x0A0020 : Insn) 5 11 ≠ 0 ∧
    field (0x0B0020 : Insn) 5 1 ≠ 0 ∧ field (0x0B0100 : Insn) 8 8 ≠ 0 ∧
    field (0x0C0001 : Insn) 0 2 ≠ 0 ∧ field (0x0D1000 : Insn) 12 4 ≠ 0 ∧
    reservedCode (field (0x0D0D0C : Insn) 8 2) (field (0x0D0D0C : Insn) 0 4) ∧
    reservedCode (field (0x0D0CE0 : Insn) 10 2) (field (0x0D0CE0 : Insn) 4 4) ∧
    reservedCode (field (0x34000C : Insn) 18 2) (field (0x34000C : Insn) 0 4) ∧
    field (0x300000 : Insn) 18 2 = 0 ∧ Reg.isSource .ax0 = true ∧ Reg.toppcOk .px = false := by
  unfold reservedCode; decide

/-- At the program counter stands a jump, and nothing comes before it. -/
theorem witness_StepRunsDecoded :
    let s := (at' 0x40 []).withFetchWord 24 0x18200F
    s.resetAsserted = false ∧ s.takeInputs.serviceable = none ∧ s.takeInputs.idle = false ∧
      s.takeInputs.fetch = some 0x18200F ∧ decode 0x18200F = .instr (.jump 0x200) := by decide

/-- The other clauses: a word that is rejected, one beyond the table, an INTS word without and with a listing,
and a location that an instruction has stored to. -/
theorem witness_StepRunsDecoded_others :
    ((at' 0x40 []).withFetchWord 24 0x028003).takeInputs.fetch = some 0x028003 ∧
    decode 0x028003 = .reject .reservedDivisor ∧
    ((at' 0x40 []).withFetchWord 24 0x0C0000).takeInputs.fetch = some 0x0C0000 ∧
    decode 0x0C0000 = .beyond .inert ∧
    ((at' 0x40 []).withFetchWord 24 0x040060).takeInputs.fetch = some 0x040060 ∧
    decode 0x040060 = .instr .enaInts ∧ (at' 0x40 []).cfg.intsListed = false ∧
    (withCfg (fun c => { c with intsListed := true }) (at' 0x40 [])).cfg.intsListed = true ∧
    (at' 0x40 []).pc ∈ ((at' 0x40 []).setPmStored [0x40]).pmStored := by decide

theorem witness_PlacedWordIsFetched : Memory.wf [(5, 1), (7, 2), (49151, 3)] := by decide

theorem witness_ResetWins :
    ((timerDue ((at' 0x201 []).setIdle true)).setInputs [[.flagIn true, .reset]]).resetAsserted =
      true := by decide

/-- A state with every stack in use, late effects under way and a program. -/
def busy : State :=
  ((((((counting 4 [9, 2] (inLoop 0x107 [0x105, 0x48] [(0x107, .ce), (0x50, .eq)])).setStstk
    { State.reset.ststk with words := [⟨5, 0, 0x21⟩] }).setImask 0x3F).setIcntl 0x14 0 1).setKinds
    .toppcWrite .other).setFreeTick 3).withFetchWord 24 0

theorem witness_StepKeepsInvariant : busy.Inv ∧ ∃ t, step busy = .next t := by
  refine ⟨?_, _, rfl⟩
  constructor <;> first | decide | (unfold maskFits; decide) | exact (nomatch ·)

theorem witness_StepKeepsProgram : ∃ t, step busy = .next t := ⟨_, rfl⟩

theorem witness_OverflowIsSticky :
    (∃ t, step (busy.setPcstk ⟨List.replicate 16 0x105, 1, true, 0⟩) = .next t) ∧
    (busy.setPcstk ⟨List.replicate 16 0x105, 1, true, 0⟩).resetAsserted = false ∧
    (∃ t, step (busy.setInputs [[.reset]]) = .next t) ∧
    (busy.setInputs [[.reset]]).resetAsserted = true := ⟨⟨_, rfl⟩, rfl, ⟨_, rfl⟩, rfl⟩

theorem witness_InstructionFrame :
    (Instr.popSts false false false).wellFormed = true ∧
    ∃ t, exec (.popSts false false false) inService = .next t := ⟨rfl, _, rfl⟩

theorem witness_ServiceableIsHighest :
    (((timerDue (at' 0 [])).setImask 0x21).setReq ⟨true, false, false, false, false, false, false, false,
      false, false, false, false, false, false, false, true⟩ |>.setIcntl 4 4 0).serviceable =
      some .irq2 := by decide

/-- A pin that falls, one that stays low, an internal event, and the timer's with and without MSTAT bit 5. -/
theorem witness_ServiceableIsHighest_inputs :
    hasSource (at' 0 []).cfg.proc .irq2 = true ∧ ((at' 0 []).setIcntl 4 4 0).edge .irq2 = true ∧
    (at' 0 []).edge .irq2 = false ∧ (at' 0 []).pins.get .irq2 = false ∧
    (applyInput (at' 0 []) (.pin .irq2 true)).pins.get .irq2 = true ∧
    hasSource (at' 0 []).cfg.proc .sport0Rx = true ∧ (at' 0 []).cfg.sport1IsIrq = false ∧
    ((at' 0 []).setMstat 0x20).mstat.getLsbD 5 = true ∧ (at' 0 []).mstat.getLsbD 5 = false ∧
    hasSource (withCfg (fun c => { c with sport1IsIrq := true }) (at' 0 [])).cfg.proc .sport1Rx =
      true := by decide

theorem witness_EntryEffect :
    (timerDue (at' 0x100 [])).resetAsserted = false ∧
    (timerDue (at' 0x100 [])).takeInputs.serviceable = some .timer := by decide

/-- A source whose latch becomes free at the end of an entry's step. -/
theorem witness_EntryEffect_freed :
    (((timerDue (at' 0x100 [])).setIcntl 4 0 1).setPins (SourceBits.none.set .irq2 true)).freed .irq2 :=
  ⟨rfl, by decide, by decide⟩

/-- A level-sensitive source, whose latch an entry does not touch. -/
theorem witness_EntryEffect_level :
    let s := ((at' 0x100 []).setImask 0x20).setInputs [[.pin .irq2 true]]
    s.takeInputs.serviceable = some .irq2 ∧ s.takeInputs.edge .irq2 = false := by decide

theorem witness_ImaskAfterEntry :
    (imaskAfter true 0 0x3FF).getLsbD 0 = false ∧ (imaskAfter true 0 0x3FF).getLsbD 1 = true ∧
    (imaskAfter true 9 0x3FF).getLsbD 9 = false := by decide

theorem witness_EntryThenReturn :
    let s := timerDue (at' 0x100 (List.replicate 15 7))
    s.unguarded ∧ s.pcstk.words.length < 16 ∧ s.ststk.words.length < s.cfg.statusDepth :=
  ⟨⟨rfl, rfl, rfl⟩, by decide, by decide⟩

theorem witness_HoldoffLastsOneInstruction :
    let s := onProc .adsp2181 (at' 0x40 [])
    hasHoldoff s.cfg.proc = true ∧ (Instr.nop).wellFormed = true ∧
      (Instr.toImask .ax0).wellFormed = true ∧
      (∃ t u, exec (.imaskConst 1) s = .next t ∧ exec .nop t = .next u ∧
        Piece.holdoff ∉ mayWrite .nop t) ∧
      ∃ t u, exec (.toImask .ax0) s = .next t ∧ exec .nop t = .next u ∧
        Piece.holdoff ∉ mayWrite .nop t :=
  ⟨rfl, rfl, rfl, ⟨_, _, rfl, rfl, by decide⟩, _, _, rfl, rfl, by decide⟩

theorem witness_IcntlIsOneStepLate :
    (Instr.nop).wellFormed = true ∧ ∃ t u, exec (.icntlConst 0x14) (at' 0x40 []) = .next t ∧
      exec .nop t = .next u ∧ Piece.icntl ∉ mayWrite .nop t := ⟨rfl, _, _, rfl, rfl, by decide⟩

theorem witness_IcntlIsOneStepLate_move :
    let s := ax0 0xFF14 (at' 0x40 [])
    (Instr.toIcntl .ax0).wellFormed = true ∧ s.readReg .ax0 = .ok (0xFF14, s) ∧
      ∃ t u, exec (.toIcntl .ax0) s = .next t ∧ exec .nop t = .next u ∧
        Piece.icntl ∉ mayWrite .nop t := ⟨rfl, rfl, _, _, rfl, rfl, by decide⟩

theorem witness_IdleWaits :
    let s := ((at' 0x201 []).setIdle true).setInputs [[.pin .irq2 true]]
    s.resetAsserted = false ∧ s.idle = true ∧ s.takeInputs.serviceable = none := by decide

theorem witness_PushRule :
    (⟨List.replicate 15 7, 0, false, 0⟩ : Stack Addr).words.length < 16 ∧
    16 ≤ (⟨List.replicate 16 7, 0, false, 0⟩ : Stack Addr).words.length := by decide

theorem witness_CounterTest :
    (counting 2 [] (at' 0 [])).cntr ≠ 1 ∧ (counting 0 [] (at' 0 [])).cntr ≠ 1 ∧
    (counting 1 [9] (at' 0 [])).cntr = 1 ∧ (counting 1 [9] (at' 0 [])).cntstk.words = [9] ∧
    (counting 1 [] (at' 0 [])).cntstk.words = [] ∧ (counting 1 [] (at' 0 [])).cntstk.lost = 0 := by
  decide

theorem witness_CountLastsItsValue :
    (0 < if (counting 1 [] (at' 0 [])).cntr = 0 then 2 ^ 14 else (counting 1 [] (at' 0 [])).cntr.toNat) ∧
    (9 < if (counting 10 [] (at' 0 [])).cntr = 0 then 2 ^ 14
      else (counting 10 [] (at' 0 [])).cntr.toNat) ∧
    (16383 < if (counting 0 [] (at' 0 [])).cntr = 0 then 2 ^ 14
      else (counting 0 [] (at' 0 [])).cntr.toNat) := by decide

theorem witness_ReadRegister :
    (counting 5 [] (at' 0 [])).cntrValid = true ∧ (at' 0 []).cntrValid = false ∧
    Reg.isPlain .tx1 = true := by decide

theorem witness_PlainRegisters : Reg.isPlain .mr2 = true ∧ (at' 0 []).mstat.getLsbD 0 = false ∧
    ((at' 0 []).setMstat 1).mstat.getLsbD 0 = true := by decide

theorem witness_IfcRule :
    ifcConflict (at' 0 []).cfg.proc 0x41 = true ∧ ifcConflict (at' 0 []).cfg.proc 0x42 = false ∧
    ifcClears .adsp2101 0x0020 .irq2 = true ∧ ifcForces .adsp2101 0x0800 .irq2 = true ∧
    Proc.adsp2105 ≠ .adsp2101 := by decide

/-- Right after a TOPPCSTACK read, away from a loop end. -/
theorem witness_JumpResult :
    let s := (at' 0x40 []).setKinds .toppcRead .other
    s.unguarded ∧ s.slotFree := ⟨⟨rfl, rfl, rfl⟩, fun _ => rfl⟩

/-- At a loop end, with the condition true and with it false. -/
theorem witness_ConditionalJumpResult :
    Cond.eq ≠ .notCe ∧ (atEnd .ce).unguarded ∧ (atEnd .ce).slotFree ∧
    condHolds ((atEnd .ce).setAstat 1).astat ((atEnd .ce).setAstat 1).cntr .eq = true ∧
    condHolds (atEnd .ce).astat (atEnd .ce).cntr .eq = false ∧
    (atEnd .ce).canSequence (atEnd .ce) :=
  ⟨by decide, ⟨rfl, rfl, rfl⟩, (nomatch ·), rfl, rfl, fun _ => by decide⟩

theorem witness_NotCeJumpResult :
    let s := counting 1 [9] (atEnd .eq)
    let u := counting 1 [] (atEnd .eq)
    s.unguarded ∧ s.slotFree ∧ s.cntr = 1 ∧ s.atCeLoopEnd = false ∧ s.canSequence s ∧
      s.cntstk.words = [9] ∧ u.cntstk.words = [] ∧ u.cntstk.lost = 0 ∧
      (counting 1 [] (atEnd .ce)).atCeLoopEnd = true ∧ (atEnd .ce).cntr ≠ 1 :=
  ⟨⟨rfl, rfl, rfl⟩, (nomatch ·), rfl, rfl, fun _ => by decide, rfl, rfl, rfl, rfl, by decide⟩

theorem witness_NotCeJumpResult_guard :
    let s := withCfg (fun c => { c with guardInvalidCounter := true }) (at' 0 [])
    s.cfg.guardInvalidCounter = true ∧ s.cntrValid = false ∧ s.prevKind = .other ∧
      s.prev2Kind = .other := by decide

/-- After a TOPPCSTACK write, at a loop end. -/
theorem witness_CallResult :
    let s := (atEnd .ce).setKinds .toppcWrite .other
    s.unguarded ∧ s.prevKind ≠ .toppcRead := ⟨⟨rfl, rfl, rfl⟩, by decide⟩

theorem witness_ConditionalCallResult :
    (atEnd .ce).unguarded ∧ (atEnd .ce).prevKind ≠ .toppcRead ∧
    condHolds (atEnd .ce).astat (atEnd .ce).cntr .ne = true ∧
    condHolds (atEnd .ce).astat (atEnd .ce).cntr .eq = false ∧ (atEnd .ce).canSequence (atEnd .ce) :=
  ⟨⟨rfl, rfl, rfl⟩, by decide, rfl, rfl, fun _ => by decide⟩

theorem witness_FlagInResult :
    let s := (atEnd .ce).setFlagIn true
    s.unguarded ∧ s.slotFree ∧ s.prevKind ≠ .toppcRead ∧ s.canSequence s ∧ s.flagIn = true ∧
      (atEnd .ce).flagIn = false := ⟨⟨rfl, rfl, rfl⟩, (nomatch ·), by decide, fun _ => by decide, rfl, rfl⟩

theorem witness_ReturnResult :
    let s := at' 0x300 [0x101, 7]
    s.unguarded ∧ s.prevKind ≠ .toppcRead ∧ s.pcstk.words = [0x101, 7] ∧
      condHolds s.astat s.cntr .ne = true ∧ condHolds s.astat s.cntr .eq = false ∧
      s.canSequence s ∧ (at' 0x300 []).pcstk.words = [] :=
  ⟨⟨rfl, rfl, rfl⟩, by decide, rfl, rfl, rfl, (nomatch ·), rfl⟩

theorem witness_ReturnFromInterruptResult :
    inService.unguarded ∧ inService.prevKind = .other ∧ inService.pcstk.words = [0x123] ∧
    inService.ststk.words = [⟨5, 0, 0x21⟩] ∧
    condHolds inService.astat inService.cntr .ne = true ∧
    condHolds inService.astat inService.cntr .eq = false ∧ inService.canSequence inService :=
  ⟨⟨rfl, rfl, rfl⟩, rfl, rfl, rfl, rfl, rfl, (nomatch ·)⟩

/-- A free place, the last instruction of a loop, and the end of a loop that is stacked. -/
theorem witness_DoUntilResult :
    let s := inLoop 0x104 [0x101] [(0x110, .ce)]
    s.unguarded ∧ s.prevKind ≠ .toppcRead ∧ s.atLoopEnd = false ∧
      (∀ w ∈ s.lpstk.words, w.fin ≠ 0x107) ∧ (∃ w ∈ s.lpstk.words, w.fin = 0x110) ∧
      (atEnd .ce).atLoopEnd = true :=
  ⟨⟨rfl, rfl, rfl⟩, by decide, rfl, by decide, by decide, rfl⟩

theorem witness_NopResult :
    (atEnd .ce).unguarded ∧ (atEnd .ce).slotFree ∧ (atEnd .ce).canSequence (atEnd .ce) :=
  ⟨⟨rfl, rfl, rfl⟩, (nomatch ·), fun _ => by decide⟩

theorem witness_IdleResult : (atEnd .ce).unguarded ∧ (atEnd .ce).slotFree :=
  ⟨⟨rfl, rfl, rfl⟩, (nomatch ·)⟩

/-- A loop end on a condition that holds, on one that does not, and on CE with each kind of counter. -/
theorem witness_LoopEndResult :
    (atEnd .ne).unguarded ∧ (atEnd .ne).prevKind ≠ .toppcRead ∧
    (atEnd .ne).lpstk.words = [⟨0x107, .ne, 1⟩] ∧ (atEnd .ne).pcstk.words = [0x105] ∧
    (atEnd .ne).pc = 0x107 ∧ termHolds (atEnd .ne).astat (atEnd .ne).cntr .ne = true ∧
    termHolds (atEnd .eq).astat (atEnd .eq).cntr .eq = false ∧ (atEnd .ce).cntr ≠ 1 ∧
    (counting 1 [9] (atEnd .ce)).cntr = 1 ∧ (counting 1 [9] (atEnd .ce)).cntstk.words = [9] ∧
    (counting 1 [] (atEnd .ce)).cntstk.words = [] ∧ (counting 1 [] (atEnd .ce)).cntstk.lost = 0 :=
  ⟨⟨rfl, rfl, rfl⟩, by decide, rfl, rfl, rfl, rfl, rfl, by decide, rfl, rfl, rfl, rfl⟩

/-- The two guards at a loop end: another depth of the PC stack, and an invalid counter. -/
theorem witness_LoopEndResult_guards :
    let s := withCfg (fun c => { c with guardLoopBalance := true }) (inLoop 0x50 [0x48, 7] [(0x50, .eq)])
    let u := withCfg (fun c => { c with guardLoopBalance := true, guardInvalidCounter := true })
      (inLoop 0x50 [0x48] [(0x50, .ce)])
    s.prevKind ≠ .toppcRead ∧ s.lpstk.words = [⟨0x50, .eq, 1⟩] ∧ s.pc = 0x50 ∧
      s.cfg.guardLoopBalance = true ∧ s.pcstk.words.length = 2 ∧ u.prevKind ≠ .toppcRead ∧
      u.lpstk.words = [⟨0x50, .ce, 1⟩] ∧ u.pc = 0x50 ∧ u.pcstk.words.length = 1 ∧
      u.cfg.guardInvalidCounter = true ∧ u.cntrValid = false := by decide

/-- All four stacks hold a word, and the word pops or pushes each. -/
theorem witness_StackControlResult :
    busy.unguarded ∧ busy.slotFree ∧ busy.prevKind ≠ .toppcRead ∧ canPop true true true 3 busy ∧
    canPop true true true 2 busy ∧ busy.canSequence (stackEffect true true true 3 busy) ∧
    busy.canSequence (stackEffect true true true 2 busy) :=
  ⟨⟨rfl, rfl, rfl⟩, (nomatch ·), by decide, by unfold canPop; decide, by unfold canPop; decide,
    fun _ => by decide, fun _ => by decide⟩

/-- Just before the end of the loop, with the PC stack holding a word. -/
theorem witness_StackControlResult_beforeEnd :
    let s := inLoop 0x106 [0x105] [(0x107, .ce)]
    s.unguarded ∧ s.prevKind ≠ .toppcRead ∧ s.pcstk.words ≠ [] ∧ s.beforeLoopEnd = true ∧
      Instr.popLoop false false 0 ∈ stackRows false true false 0 ∧
      Instr.popPc true false 0 ∈ stackRows true true false 0 :=
  ⟨⟨rfl, rfl, rfl⟩, by decide, by decide, rfl, by decide, by decide⟩

/-- The word that leaves an un-nested counted loop: POP CNTR with POP PC and POP LOOP. -/
theorem witness_PopEmptyCountStack :
    let s := counting 4 [] (inLoop 0x105 [0x105] [(0x107, .ce)])
    s.unguarded ∧ s.slotFree ∧ s.prevKind ≠ .toppcRead ∧ canPop true true false 0 s ∧
      s.cntstk.words = [] ∧ s.canSequence (stackEffect true true false 0 s) ∧
      Instr.popPc true true 0 ∈ stackRows true true true 0 :=
  ⟨⟨rfl, rfl, rfl⟩, (nomatch ·), by decide, by unfold canPop; decide, rfl, (nomatch ·), by decide⟩

/-- Nothing stacked; a loop end with the PC stack empty; and a word that pops the PC stack, which holds a
word, and then finds the loop or the status stack empty. -/
theorem witness_EmptyPopsRefused :
    (at' 0 []).unguarded ∧ (at' 0 []).prevKind = .other ∧ (at' 0 []).pcstk.words = [] ∧
    Reg.toppcOk .ax0 = true ∧ (at' 0 []).atLoopEnd = false ∧ (at' 0 []).beforeLoopEnd = false ∧
    condHolds (at' 0 []).astat (at' 0 []).cntr .ne = true ∧
    (at' 0 []).lpstk.words = [] ∧ (at' 0 []).ststk.words = [] ∧ (at' 0 [7]).pcstk.words ≠ [] ∧
    (inLoop 0x107 [] [(0x107, .eq)]).atLoopEnd = true ∧ canPop true false false 0 (at' 0 [7]) ∧
    Instr.popPc true false 3 ∈ stackRows true true false 3 :=
  ⟨⟨rfl, rfl, rfl⟩, rfl, rfl, rfl, rfl, rfl, rfl, rfl, rfl, by decide, rfl, by unfold canPop; decide,
    by decide⟩

/-- Both values of INTS_DELAY, with the instruction that comes next. -/
theorem witness_GlobalEnableResult :
    let s := onProc .adsp2181 (atEnd .ce)
    let u := withCfg (fun c => { c with intsDelayed := true }) s
    s.unguarded ∧ s.slotFree ∧ hasGlobalInts s.cfg.proc = true ∧ s.canSequence s ∧
      hasGlobalInts (at' 0 []).cfg.proc = false ∧ u.unguarded ∧ u.slotFree ∧ u.canSequence u ∧
      (∃ t v, exec .disInts u = .next t ∧ Piece.ints ∉ mayWrite .nop t ∧ exec .nop t = .next v) ∧
      ∃ t v, exec .enaInts u = .next t ∧ Piece.ints ∉ mayWrite .nop t ∧ exec .nop t = .next v :=
  ⟨⟨rfl, rfl, rfl⟩, (nomatch ·), rfl, fun _ => by decide, rfl, ⟨rfl, rfl, rfl⟩, (nomatch ·),
    fun _ => by decide, ⟨_, _, rfl, by decide, rfl⟩, _, _, rfl, by decide, rfl⟩

/-- The hypotheses of `ModeEffect`, at a loop end. -/
theorem witness_ModeControlResult :
    (atEnd .eq).unguarded ∧ (atEnd .eq).slotFree ∧ (atEnd .eq).canSequence (atEnd .eq) :=
  ⟨⟨rfl, rfl, rfl⟩, (nomatch ·), fun _ => by decide⟩

theorem witness_BankSelect :
    (inService).mstat.getLsbD 0 = true ∧ (at' 0 []).mstat.getLsbD 0 = false := by decide

theorem witness_MoveFromResult :
    Reg.isPlain .ar = true ∧ (atEnd .ce).unguarded ∧ (atEnd .ce).slotFree ∧
    (atEnd .ce).canSequence (atEnd .ce) ∧ (atEnd .ce).prevKind ≠ .toppcRead ∧
    (atEnd .ce).cntrValid = true ∧ (at' 0 []).cntrValid = false :=
  ⟨rfl, ⟨rfl, rfl, rfl⟩, (nomatch ·), fun _ => by decide, by decide, rfl, rfl⟩

theorem witness_MoveFromFrame :
    Reg.isPlain .ar = true ∧ ∃ t, exec (.fromCntr .ar) (atEnd .ce) = .next t := ⟨rfl, _, rfl⟩

/-- The hypotheses of the statements about writes, with SSTAT as the source. -/
theorem witness_writes :
    let s := (atEnd .eq).setKinds .toppcWrite .other
    s.unguarded ∧ s.slotFree ∧ s.canSequence s ∧ Reg.isSource .sstat = true ∧
      s.prevKind ≠ .toppcRead :=
  ⟨⟨rfl, rfl, rfl⟩, (nomatch ·), fun _ => by decide, rfl, by decide⟩

/-- A value that may be written to IMASK with ICNTL in force, one that may be written before, one that may not. -/
theorem witness_ImaskWriteResult :
    State.reset.unguarded ∧ State.reset.slotFree ∧ State.reset.canSequence State.reset ∧
    (at' 0 []).mayUnmask 0x20 ∧ State.reset.mayUnmask 0 ∧ ¬ State.reset.mayUnmask 0x20 :=
  ⟨⟨rfl, rfl, rfl⟩, (nomatch ·), (nomatch ·), .inl rfl, .inr (by decide),
    by unfold State.mayUnmask; decide⟩

theorem witness_CounterLoadResult :
    (atEnd .eq).atCeLoopEnd = false ∧ (atEnd .ce).atCeLoopEnd = true ∧ (atEnd .eq).cntrValid = true ∧
    (at' 0 []).cntrValid = false := by decide

theorem witness_CounterOverwriteResult :
    (at' 0 []).atLoopEnd = false ∧ (atEnd .eq).atLoopEnd = true := by decide

theorem witness_IfcWriteResult :
    ifcConflict (atEnd .eq).cfg.proc ((0x41 : BitVec 14).setWidth 16) = true ∧
    ifcConflict (atEnd .eq).cfg.proc ((0x40 : BitVec 14).setWidth 16) = false := by decide

/-- Two instructions before the end, the last but one, and the last. -/
theorem witness_ToppcReadResult :
    let s := inLoop 0x105 [0x105] [(0x107, .ce)]
    Reg.toppcOk .i7 = true ∧ s.unguarded ∧ s.prevKind ≠ .toppcRead ∧ s.atLoopEnd = false ∧
      s.beforeLoopEnd = false ∧ s.pcstk.words = [0x105] ∧
      (inLoop 0x106 [0x105] [(0x107, .ce)]).beforeLoopEnd = true ∧ (atEnd .ce).atLoopEnd = true :=
  ⟨rfl, ⟨rfl, rfl, rfl⟩, by decide, rfl, rfl, rfl, rfl, rfl⟩

theorem witness_ToppcWriteResult :
    Reg.toppcOk .i7 = true ∧ (atEnd .ce).unguarded ∧ (atEnd .ce).prevKind ≠ .toppcRead ∧
    (atEnd .ce).canSequence ((atEnd .ce).setPcstk ((atEnd .ce).pcstk.push 16
      (((atEnd .ce).readPlain .i7).setWidth 14))) :=
  ⟨rfl, ⟨rfl, rfl, rfl⟩, by decide, fun _ => by decide⟩

theorem witness_ToppcSlot :
    ((at' 0 [1]).setKinds .toppcRead .other).prevKind = .toppcRead ∧
    ((atEnd .ce).setKinds .toppcRead .other).atLoopEnd = true ∧
    (inService.setKinds .toppcWrite .other).prevKind = .toppcWrite := by decide

/-- The guard of R231 right after a TOPPCSTACK write, and one instruction later. -/
theorem witness_ToppcSlot_guard :
    let s := withCfg (fun c => { c with guardRestriction4 := true }) ((at' 0 [1]).setKinds .toppcWrite .other)
    let u := withCfg (fun c => { c with guardRestriction4 := true }) ((at' 0 [1]).setKinds .other .toppcRead)
    s.cfg.guardRestriction4 = true ∧ s.prevKind = .toppcWrite ∧ u.prevKind = .other ∧
      u.prev2Kind ≠ .other ∧ Instr.popPc false false 0 ∈ stackRows true false false 0 := by decide

theorem witness_BeyondTheTable :
    (atEnd .ce).unguarded ∧ (atEnd .ce).slotFree ∧ (atEnd .ce).canSequence (atEnd .ce) ∧
    Reg.isPlain .mr2 = true := ⟨⟨rfl, rfl, rfl⟩, (nomatch ·), fun _ => by decide, rfl⟩

end Sys2Proof.Tests
end

section
/-! The overflow bits of the four stacks (10_state.md R29): every operation keeps each bit that is set, and
only RESET clears them. -/

namespace Sys2Proof.Machine

/-- Each overflow bit that is set in `s` is set in `t`. Where `t` is `s` after updates that touch no overflow
bit, each part holds by `id`. -/
structure KeepsOvf (s t : State) : Prop where
  pc : s.pcstk.ovf = true → t.pcstk.ovf = true
  count : s.cntstk.ovf = true → t.cntstk.ovf = true
  loop : s.lpstk.ovf = true → t.lpstk.ovf = true
  status : s.ststk.ovf = true → t.ststk.ovf = true

theorem KeepsOvf.refl (s : State) : KeepsOvf s s := ⟨id, id, id, id⟩

theorem KeepsOvf.trans {s t u : State} (h : KeepsOvf s t) (h' : KeepsOvf t u) : KeepsOvf s u :=
  ⟨h'.pc ∘ h.pc, h'.count ∘ h.count, h'.loop ∘ h.loop, h'.status ∘ h.status⟩

/-- An operation whose frame has no stack in it keeps the overflow bits. -/
theorem Changes.keepsOvf {l : List Piece} {s t : State} (h : Changes l s t)
    (hp : .pcstk ∉ l) (hc : .cntstk ∉ l) (hl : .lpstk ∉ l) (hs : .ststk ∉ l) : KeepsOvf s t := by
  have epc : t.pcstk = s.pcstk := h.same _ hp
  have ecount : t.cntstk = s.cntstk := h.same _ hc
  have eloop : t.lpstk = s.lpstk := h.same _ hl
  have estatus : t.ststk = s.ststk := h.same _ hs
  constructor <;> simp [epc, ecount, eloop, estatus]

/-! ## The operations on the stacks -/

theorem keepsOvf_pushPc (s : State) (a : Addr) : KeepsOvf s (s.pushPc a) :=
  ⟨push_ovf _ _ _, id, id, id⟩

theorem keepsOvf_pushStatus (s : State) : KeepsOvf s s.pushStatus := ⟨id, id, id, push_ovf _ _ _⟩

theorem keepsOvf_popPc {s t : State} {a : Addr} (h : s.popPc = .ok (a, t)) : KeepsOvf s t := by
  obtain ⟨as, -, rfl⟩ := popPc_ok h
  exact ⟨id, id, id, id⟩

theorem keepsOvf_popLoop {s t : State} {w : LoopWord} (h : s.popLoop = .ok (w, t)) :
    KeepsOvf s t := by
  obtain ⟨ws, -, rfl⟩ := popLoop_ok h
  exact ⟨id, id, id, id⟩

theorem keepsOvf_restoreStatus (s : State) (w : StatusWord) : KeepsOvf s (s.restoreStatus w) :=
  (changes_restoreStatus s w).keepsOvf (by simp) (by simp) (by simp) (by simp)

theorem keepsOvf_popStatus {s t : State} (h : s.popStatus = .ok t) : KeepsOvf s t := by
  obtain ⟨w, ws, -, rfl⟩ := popStatus_ok h
  have hpop : KeepsOvf s (s.setStstk { s.ststk with words := ws }) := ⟨id, id, id, id⟩
  exact hpop.trans (keepsOvf_restoreStatus _ w)

theorem keepsOvf_returnFromInterrupt {s t : State} {a : Addr}
    (h : returnFromInterrupt s = .ok (a, t)) : KeepsOvf s t := by
  obtain ⟨as, w, ws, -, -, rfl⟩ := returnFromInterrupt_ok h
  have hpop : KeepsOvf s ((s.setPcstk { s.pcstk with words := as }).setStstk
      { s.ststk with words := ws }) := ⟨id, id, id, id⟩
  exact hpop.trans (keepsOvf_restoreStatus _ w)

theorem keepsOvf_popCount (s : State) : KeepsOvf s s.popCount := by
  refine ⟨by simp, ?_, by simp, by simp⟩
  unfold State.popCount
  split
  · exact id
  · simp

theorem keepsOvf_expireCount (s : State) : KeepsOvf s s.expireCount := by
  refine ⟨by simp, ?_, by simp, by simp⟩
  unfold State.expireCount
  split
  · exact id
  · split <;> exact id

theorem keepsOvf_testCe (s : State) (old : Count) : KeepsOvf s (s.testCe old).2 := by
  have hdec : KeepsOvf s (s.setCntr (s.cntr - 1)) := ⟨id, id, id, id⟩
  unfold State.testCe
  dsimp only
  split
  · exact hdec.trans (keepsOvf_expireCount _)
  · exact hdec

theorem keepsOvf_loadCounter (s : State) (v : Count) : KeepsOvf s (s.loadCounter v) := by
  unfold State.loadCounter
  dsimp only
  split
  · exact ⟨id, push_ovf _ _ _, id, id⟩
  · exact ⟨id, id, id, id⟩

theorem keepsOvf_takeInterrupt (k : Source) (s : State) : KeepsOvf s (takeInterrupt k s) := by
  rw [takeInterrupt_shape]
  exact ⟨push_ovf _ _ _, id, id, push_ovf _ _ _⟩

/-! ## What the instructions execute -/

theorem keepsOvf_callTo (s : State) (a : Addr) : KeepsOvf s (callTo s a).1 := keepsOvf_pushPc s _

theorem keepsOvf_jumpIf {s t : State} {c : Cond} {a : Addr} {f : Machine.Flow}
    (h : jumpIf s c a = .ok (t, f)) : KeepsOvf s t := by
  have hce := keepsOvf_testCe s s.cntr
  unfold jumpIf at h
  split at h
  · split at h
    · cases h
    split at h
    · rename_i htest
      cases h
      rwa [htest] at hce
    · rename_i htest
      split at h <;> cases h
      rwa [htest] at hce
  · split at h <;> cases h <;> exact .refl s

theorem keepsOvf_callIf {s t : State} {c : Cond} {a : Addr} {f : Machine.Flow}
    (h : callIf s c a = .ok (t, f)) : KeepsOvf s t := by
  unfold callIf at h
  split at h
  · cases h
  split at h <;> cases h
  · exact keepsOvf_callTo s a
  · exact .refl s

theorem keepsOvf_flagJump (s : State) (b : Bool) (a : Addr) : KeepsOvf s (flagJump s b a).1 := by
  cases b <;> exact .refl s

theorem keepsOvf_flagCall (s : State) (b : Bool) (a : Addr) : KeepsOvf s (flagCall s b a).1 := by
  cases b
  · exact .refl s
  · exact keepsOvf_callTo s a

theorem keepsOvf_returnSub {s t : State} {f : Machine.Flow} (h : returnSub s = .ok (t, f)) :
    KeepsOvf s t := by
  unfold returnSub at h
  split at h <;> cases h
  exact keepsOvf_popPc ‹_›

theorem keepsOvf_returnInt {s t : State} {f : Machine.Flow} (h : returnInt s = .ok (t, f)) :
    KeepsOvf s t := by
  unfold returnInt at h
  split at h <;> cases h
  exact keepsOvf_returnFromInterrupt ‹_›

theorem keepsOvf_whenCond {s t : State} {c : Cond} {f : Machine.Flow}
    {body : Except Refusal (State × Machine.Flow)} (h : whenCond s c body = .ok (t, f))
    (hbody : ∀ t f, body = .ok (t, f) → KeepsOvf s t) : KeepsOvf s t := by
  unfold whenCond at h
  split at h
  · cases h
  · exact hbody t f h
  · cases h
    exact .refl s

theorem keepsOvf_writePlain (s : State) (r : Reg) (v : Bus) : KeepsOvf s (s.writePlain r v) := by
  constructor <;> simp

/-- Of the register writes, that of CNTR alone reaches a stack. -/
theorem stack_notMem_writePieces {r : Reg} {p : Piece} (s : State) (hr : r ≠ .cntr)
    (hp : p ∈ [.pcstk, .cntstk, .lpstk, .ststk]) : p ∉ writePieces r s := by
  have hmove : p ∉ s.movePieces := by
    unfold State.movePieces
    split <;> fin_cases hp <;> simp
  cases r with
  | cntr => exact absurd rfl hr
  | astat | mstat | imask | icntl | owrcntr | ifc => fin_cases hp <;> simp [writePieces]
  | _ => exact hmove

theorem keepsOvf_writeReg {s t : State} {r : Reg} {v : Bus} (h : s.writeReg r v = .ok t) :
    KeepsOvf s t := by
  by_cases hr : r = .cntr
  · subst hr
    simp only [State.writeReg, State.writeCntr] at h
    split at h <;> cases h
    exact keepsOvf_loadCounter s _
  · have hno {p} := stack_notMem_writePieces (p := p) s hr
    exact (changes_writeReg h).keepsOvf (hno (by simp)) (hno (by simp)) (hno (by simp)) (hno (by simp))

theorem keepsOvf_move {s t : State} {dst src : Reg} (h : s.move dst src = .ok t) :
    KeepsOvf s t := by
  unfold State.move at h
  split at h
  · cases h
  · rename_i hread
    obtain ⟨n, rfl⟩ := readReg_ok hread
    have htick : KeepsOvf s (s.setFreeTick n) := ⟨id, id, id, id⟩
    exact htick.trans (keepsOvf_writeReg h)

theorem keepsOvf_setGlobalInts {s t : State} {b : Bool} (h : setGlobalInts b s = .ok t) :
    KeepsOvf s t :=
  (changes_setGlobalInts h).keepsOvf (by simp) (by simp) (by simp) (by simp)

theorem keepsOvf_readToppc {s t : State} {r : Reg} (h : readToppc r s = .ok t) : KeepsOvf s t := by
  unfold readToppc at h
  split at h
  · cases h
  split at h
  · cases h
  split at h <;> cases h
  exact (keepsOvf_popPc ‹_›).trans (keepsOvf_writePlain _ _ _)

theorem keepsOvf_writeToppc {s t : State} {r : Reg} (h : writeToppc r s = .ok t) :
    KeepsOvf s t := by
  unfold writeToppc at h
  split at h <;> cases h
  exact keepsOvf_pushPc s _

theorem keepsOvf_setUpLoop {s t : State} {a : Addr} {c : Term} (h : setUpLoop s a c = .ok t) :
    KeepsOvf s t := by
  unfold setUpLoop at h
  split at h
  · cases h
  split at h <;> cases h
  exact ⟨push_ovf _ _ _, id, push_ovf _ _ _, id⟩

theorem keepsOvf_popPcPart {pp : Bool} {s t : State} (h : popPcPart pp s = .ok t) :
    KeepsOvf s t := by
  unfold popPcPart at h
  split at h
  · split at h <;> cases h
    exact keepsOvf_popPc ‹_›
  · cases h
    exact .refl s

theorem keepsOvf_popLoopPart {lp : Bool} {s t : State} (h : popLoopPart lp s = .ok t) :
    KeepsOvf s t := by
  unfold popLoopPart at h
  split at h
  · split at h
    · cases h
    split at h <;> cases h
    exact keepsOvf_popLoop ‹_›
  · cases h
    exact .refl s

theorem keepsOvf_popCntrPart (cp : Bool) (s : State) : KeepsOvf s (popCntrPart cp s) := by
  cases cp
  · exact .refl s
  · exact keepsOvf_popCount s

theorem keepsOvf_statusPart {spp : BitVec 2} {s t : State} (h : statusPart spp s = .ok t) :
    KeepsOvf s t := by
  unfold statusPart at h
  split at h
  · cases h
    exact keepsOvf_pushStatus s
  split at h
  · exact keepsOvf_popStatus h
  · cases h
    exact .refl s

theorem keepsOvf_stackControl {pp lp cp : Bool} {spp : BitVec 2} {s t : State}
    (h : stackControl pp lp cp spp s = .ok t) : KeepsOvf s t := by
  unfold stackControl at h
  split at h
  · cases h
  rename_i hpc
  split at h
  · cases h
  rename_i hloop
  exact (keepsOvf_popPcPart hpc).trans <| (keepsOvf_popLoopPart hloop).trans <|
    (keepsOvf_popCntrPart cp _).trans (keepsOvf_statusPart h)

/-! ## The instructions outside the spec -/

/-- The registers outside the sequencer, ASTAT, the record of stores and the counter of free values hold no
stack. -/
theorem keepsOvf_opaqueState (s : State) (v : Nat → Bus) (a : BitVec 8) (p : Option Addr) (n : Nat) :
    KeepsOvf s ((((s.scramble v).setAstat a).noteStore p).setFreeTick n) := by
  obtain ⟨l, hstore⟩ := noteStore_shape ((s.scramble v).setAstat a) p
  rw [hstore]
  unfold State.scramble
  constructor <;> simp

theorem keepsOvf_opaqueEffect {w : Insn} {s t : State} (h : opaqueEffect w s = .ok t) :
    KeepsOvf s t := by
  unfold opaqueEffect at h
  dsimp only at h
  split at h
  · cases h
  · cases h
  split at h
  · cases h
    exact keepsOvf_opaqueState s _ _ _ _
  split at h
  · cases h
    exact keepsOvf_opaqueState s _ _ _ _
  · exact (keepsOvf_opaqueState s _ _ _ _).trans (keepsOvf_writeReg h)

theorem keepsOvf_opaqueStep {w : Insn} {s t : State} (h : opaqueStep w s = .ok t) :
    KeepsOvf s t := by
  unfold opaqueStep at h
  split at h
  · cases h
  split at h
  · cases h
  split at h
  · exact keepsOvf_opaqueEffect h
  split at h
  · cases h
  · cases h
    exact .refl s
  · exact keepsOvf_opaqueEffect h

/-! ## One step -/

/-- A loop end pops, or leaves the stacks (42_do_until.md R142). -/
theorem SeqNext.keepsOvf {s0 s1 t : State} (h : SeqNext s0 s1 t) : KeepsOvf s1 t := by
  cases h <;> exact ⟨id, id, id, id⟩

theorem keepsOvf_sequence {s0 s1 t : State} {f : Machine.Flow} (h : sequence s0 s1 f = .ok t) :
    KeepsOvf s1 t := by
  cases f with
  | seq => exact (seqNext_of_sequence h).keepsOvf
  | taken a => cases h; exact ⟨id, id, id, id⟩
  | idle => cases h; exact ⟨id, id, id, id⟩

theorem keepsOvf_endOfStep (k : Kind) (s : State) : KeepsOvf s (endOfStep k s) := by
  constructor <;> simp

/-- A run keeps the overflow bits where its own effect does. -/
theorem keepsOvf_run {tr : Traits} {s t : State} {e : Except Refusal (State × Machine.Flow)}
    (h : run tr s e = .next t) (he : ∀ s1 f, e = .ok (s1, f) → KeepsOvf s s1) : KeepsOvf s t := by
  obtain ⟨-, s1, f, v, heff, hseq, rfl⟩ := run_next h
  exact (he s1 f heff).trans ((keepsOvf_sequence hseq).trans (keepsOvf_endOfStep _ v))

/-- The same for an effect that is never refused. -/
theorem keepsOvf_run_ok {tr : Traits} {s t : State} {r : State × Machine.Flow}
    (h : run tr s (.ok r) = .next t) (hr : KeepsOvf s r.1) : KeepsOvf s t :=
  keepsOvf_run h (by rintro s1 f ⟨⟩; exact hr)

/-- The same for the meanings that have no other flow. -/
theorem keepsOvf_runSeq {tr : Traits} {s t : State} {e : Except Refusal State}
    (h : runSeq tr s e = .next t) (he : ∀ s1, e = .ok s1 → KeepsOvf s s1) : KeepsOvf s t := by
  obtain ⟨s1, v, heff, hseq, rfl⟩ := runSeq_next h
  exact (he s1 heff).trans (hseq.keepsOvf.trans (keepsOvf_endOfStep _ v))

theorem keepsOvf_runSeq_ok {tr : Traits} {s s1 t : State} (h : runSeq tr s (.ok s1) = .next t)
    (hs : KeepsOvf s s1) : KeepsOvf s t :=
  keepsOvf_runSeq h (by rintro _ ⟨⟩; exact hs)

theorem keepsOvf_runMode {f : ModeFields} {s t : State} (h : runMode f s = .next t) :
    KeepsOvf s t := keepsOvf_runSeq_ok h ⟨id, id, id, id⟩

theorem keepsOvf_runMove {dst src : Reg} {s t : State} (h : runMove dst src s = .next t) :
    KeepsOvf s t := keepsOvf_runSeq h fun _ => keepsOvf_move

theorem keepsOvf_runLoad {dst : Reg} {data : BitVec 14} {s t : State}
    (h : runLoad dst data s = .next t) : KeepsOvf s t := keepsOvf_runSeq h fun _ => keepsOvf_writeReg

theorem keepsOvf_runStack {pp lp cp : Bool} {spp : BitVec 2} {s t : State}
    (h : runStack pp lp cp spp s = .next t) : KeepsOvf s t :=
  keepsOvf_runSeq h fun _ => keepsOvf_stackControl

/-- Every instruction keeps the overflow bits: each is a run of one of the effects above. -/
theorem keepsOvf_exec {i : Instr} {s t : State} (h : exec i s = .next t) : KeepsOvf s t := by
  cases i with
  | jump | jumpInd =>
    simp only [exec_jump, exec_jumpInd] at h
    exact keepsOvf_run_ok h (.refl s)
  | ifJump | ifJumpInd =>
    simp only [exec_ifJump, exec_ifJumpInd] at h
    exact keepsOvf_run h fun _ _ => keepsOvf_jumpIf
  | call | callInd =>
    simp only [exec_call, exec_callInd] at h
    exact keepsOvf_run_ok h (keepsOvf_callTo s _)
  | ifCall | ifCallInd =>
    simp only [exec_ifCall, exec_ifCallInd] at h
    exact keepsOvf_run h fun _ _ => keepsOvf_callIf
  | rts =>
    rw [exec_rts] at h
    exact keepsOvf_run h fun _ _ => keepsOvf_returnSub
  | ifRts =>
    rw [exec_ifRts] at h
    exact keepsOvf_run h fun _ _ he => keepsOvf_whenCond he fun _ _ => keepsOvf_returnSub
  | rti =>
    rw [exec_rti] at h
    exact keepsOvf_run h fun _ _ => keepsOvf_returnInt
  | ifRti =>
    rw [exec_ifRti] at h
    exact keepsOvf_run h fun _ _ he => keepsOvf_whenCond he fun _ _ => keepsOvf_returnInt
  | flagInJump | notFlagInJump =>
    simp only [exec_flagInJump, exec_notFlagInJump] at h
    exact keepsOvf_run_ok h (keepsOvf_flagJump s _ _)
  | flagInCall | notFlagInCall =>
    simp only [exec_flagInCall, exec_notFlagInCall] at h
    exact keepsOvf_run_ok h (keepsOvf_flagCall s _ _)
  | doUntil =>
    rw [exec_doUntil] at h
    exact keepsOvf_runSeq h fun _ => keepsOvf_setUpLoop
  | nop =>
    rw [exec_nop] at h
    exact keepsOvf_runSeq_ok h (.refl s)
  | idle | idleN =>
    simp only [exec_idle, exec_idleN] at h
    exact keepsOvf_run_ok h ⟨id, id, id, id⟩
  | popPc | popLoop | popCntr | pushSts | popSts =>
    simp only [exec_popPc, exec_popLoop, exec_popCntr, exec_pushSts, exec_popSts] at h
    exact keepsOvf_runStack h
  | enaInts | disInts =>
    simp only [exec_enaInts, exec_disInts] at h
    exact keepsOvf_runSeq h fun _ => keepsOvf_setGlobalInts
  | enaTimer | disTimer | enaMMode | disMMode | enaArSat | disArSat | enaAvLatch | disAvLatch
  | enaBitRev | disBitRev | enaSecReg | disSecReg | enaGMode | disGMode =>
    simp only [exec_enaTimer, exec_disTimer, exec_enaMMode, exec_disMMode, exec_enaArSat,
      exec_disArSat, exec_enaAvLatch, exec_disAvLatch, exec_enaBitRev, exec_disBitRev,
      exec_enaSecReg, exec_disSecReg, exec_enaGMode, exec_disGMode] at h
    exact keepsOvf_runMode h
  | fromAstat | fromMstat | fromSstat | fromImask | fromIcntl | fromCntr | toAstat | toMstat
  | toImask | toIcntl | toCntr | toIfc | toOwrcntr =>
    simp only [exec_fromAstat, exec_fromMstat, exec_fromSstat, exec_fromImask, exec_fromIcntl,
      exec_fromCntr, exec_toAstat, exec_toMstat, exec_toImask, exec_toIcntl, exec_toCntr,
      exec_toIfc, exec_toOwrcntr] at h
    exact keepsOvf_runMove h
  | fromToppcstack =>
    rw [exec_fromToppcstack] at h
    exact keepsOvf_runSeq h fun _ => keepsOvf_readToppc
  | toToppcstack =>
    rw [exec_toToppcstack] at h
    exact keepsOvf_runSeq h fun _ => keepsOvf_writeToppc
  | astatConst | mstatConst | imaskConst | icntlConst | cntrConst | ifcConst | owrcntrConst =>
    simp only [exec_astatConst, exec_mstatConst, exec_imaskConst, exec_icntlConst, exec_cntrConst,
      exec_ifcConst, exec_owrcntrConst] at h
    exact keepsOvf_runLoad h

theorem keepsOvf_execBeyond {b : Beyond} {s t : State} (h : execBeyond b s = .next t) :
    KeepsOvf s t := by
  cases b with
  | inert => exact keepsOvf_runSeq_ok h (.refl s)
  | plainMove => exact keepsOvf_runMove h
  | plainLoad => exact keepsOvf_runLoad h
  | outOfScope => exact keepsOvf_runSeq h fun _ => keepsOvf_opaqueStep

theorem keepsOvf_fetchAndRun {s t : State} (h : fetchAndRun s = .next t) : KeepsOvf s t := by
  unfold fetchAndRun at h
  split at h
  · split at h <;> cases h
  · unfold execDecoded at h
    split at h
    · exact keepsOvf_exec h
    · exact keepsOvf_execBeyond h
    · cases h

theorem keepsOvf_enterInterrupt (k : Source) (s : State) : KeepsOvf s (enterInterrupt k s) :=
  have hidle : KeepsOvf s (s.setIdle false) := ⟨id, id, id, id⟩
  hidle.trans ((keepsOvf_takeInterrupt k _).trans (keepsOvf_endOfStep _ _))

/-- A step without RESET: an interrupt entry, a wait in idle, or an instruction. -/
theorem keepsOvf_stepRunning {s t : State} (h : stepRunning s = .next t) : KeepsOvf s t := by
  unfold stepRunning at h
  split at h
  · cases h
    exact keepsOvf_enterInterrupt _ s
  split at h
  · cases h
    exact .refl s
  · exact keepsOvf_fetchAndRun h

theorem keepsOvf_takeInputs (s : State) : KeepsOvf s s.takeInputs := by
  constructor <;> simp

theorem noLoss_restart (s : State) : s.restart.noLoss = true := rfl

/-- Settles O11: without RESET a step is a run of operations that each keep the overflow bits
(`KeepsOvf`); with RESET it leaves the stacks of `State.restart`. -/
theorem overflowIsSticky : Obligations.OverflowIsSticky := by
  intro s t h
  unfold step at h
  constructor
  · intro hreset
    rw [if_neg (by simp [hreset])] at h
    obtain ⟨hpc, hcount, hloop, hstatus⟩ := (keepsOvf_takeInputs s).trans (keepsOvf_stepRunning h)
    exact ⟨hpc, hcount, hloop, hstatus⟩
  · intro hreset
    rw [if_pos hreset] at h
    cases h
    exact noLoss_restart _

end Sys2Proof.Machine
end

section
/-! The calls and jumps on the FI pin (41_jump_call_return.md R119) and the returns from a subroutine (R117):
what each executes, case by case, and what its run then answers. -/

namespace Sys2Proof.Machine

/-! ## The hazards -/

/-- A jump meets no hazard outside a loop end in the slot of a TOPPCSTACK read (46_toppcstack.md R222). -/
theorem hazard_jumpTraits {s : State} (hu : s.unguarded) (hs : s.slotFree) :
    hazard jumpTraits s = none := hazard_none_plain hu hs rfl rfl

theorem hazard_callTraits {s : State} (hu : s.unguarded) (hp : s.prevKind ≠ .toppcRead) :
    hazard callTraits s = none := hazard_none_stack hu hp nofun

theorem hazard_rtsTraits {s : State} (hu : s.unguarded) (hp : s.prevKind ≠ .toppcRead) :
    hazard rtsTraits s = none := hazard_none_stack hu hp nofun

/-! ## The FI pin -/

@[simp] theorem flagJump_true (s : State) (t : Addr) : flagJump s true t = (s, .taken t) := rfl

@[simp] theorem flagJump_false (s : State) (t : Addr) : flagJump s false t = (s, .seq) := rfl

@[simp] theorem flagCall_true (s : State) (t : Addr) : flagCall s true t = callTo s t := rfl

@[simp] theorem flagCall_false (s : State) (t : Addr) : flagCall s false t = (s, .seq) := rfl

section flag
variable {s : State} {c : Bool}

theorem run_flagJump_taken (hu : s.unguarded) (hs : s.slotFree) (hc : c = true) (a : Addr) :
    run jumpTraits s (.ok (flagJump s c a)) = .next (endOfStep .other (s.setPc a)) := by
  rw [hc, flagJump_true]
  exact run_taken (hazard_jumpTraits hu hs)

theorem run_flagJump_seq (hu : s.unguarded) (hs : s.slotFree) (hseq : s.canSequence s)
    (hc : c = false) (a : Addr) :
    ∃ t, SeqNext s s t ∧
      run jumpTraits s (.ok (flagJump s c a)) = .next (endOfStep .other t) := by
  rw [hc, flagJump_false]
  exact run_seq hu (hazard_jumpTraits hu hs) rfl hseq

theorem run_flagCall_taken (hu : s.unguarded) (hp : s.prevKind ≠ .toppcRead) (hc : c = true)
    (a : Addr) :
    run callTraits s (.ok (flagCall s c a)) =
      .next (endOfStep .other ((s.setPcstk (s.pcstk.push 16 (inc s.pc))).setPc a)) := by
  rw [hc, flagCall_true]
  exact run_taken (hazard_callTraits hu hp)

theorem run_flagCall_seq (hu : s.unguarded) (hp : s.prevKind ≠ .toppcRead)
    (hseq : s.canSequence s) (hc : c = false) (a : Addr) :
    ∃ t, SeqNext s s t ∧
      run callTraits s (.ok (flagCall s c a)) = .next (endOfStep .other t) := by
  rw [hc, flagCall_false]
  exact run_seq hu (hazard_callTraits hu hp) rfl hseq

end flag

/-- Settles O36: each form is a run on the pin's level or on its complement, taken where that is 1 and in
sequence where it is 0. -/
theorem flagInResult : Obligations.FlagInResult := by
  intro s a hu
  simp only [exec_flagInJump, exec_notFlagInJump, exec_flagInCall, exec_notFlagInCall]
  have hnot1 (hf : s.flagIn = false) : (!s.flagIn) = true := by rw [hf, Bool.not_false]
  have hnot0 (hf : s.flagIn = true) : (!s.flagIn) = false := by rw [hf, Bool.not_true]
  refine ⟨?jump, ?notJump, ?noJump, ?call, ?noCall⟩
  case jump => exact fun hs hf => run_flagJump_taken hu hs hf a
  case notJump => exact fun hs hf => run_flagJump_taken hu hs (hnot1 hf) a
  case noJump =>
    exact fun hs hseq => ⟨fun hf => run_flagJump_seq hu hs hseq hf a,
      fun hf => run_flagJump_seq hu hs hseq (hnot0 hf) a⟩
  case call =>
    exact fun hp => ⟨fun hf => run_flagCall_taken hu hp hf a,
      fun hf => run_flagCall_taken hu hp (hnot1 hf) a⟩
  case noCall =>
    exact fun hp hseq => ⟨fun hf => run_flagCall_seq hu hp hseq hf a,
      fun hf => run_flagCall_seq hu hp hseq (hnot0 hf) a⟩

/-! ## Returns from a subroutine -/

/-- A pop of a PC stack without a word (10_state.md R14). -/
theorem popPc_nil {s : State} (h : s.pcstk.words = []) : s.popPc = .error (.emptyStack .pc) := by
  simp [State.popPc, h]

theorem returnSub_cons {s : State} {a : Addr} {as : List Addr} (h : s.pcstk.words = a :: as) :
    returnSub s = .ok (s.setPcstk { s.pcstk with words := as }, .taken a) := by
  simp [returnSub, popPc_cons s a as h]

theorem returnSub_nil {s : State} (h : s.pcstk.words = []) :
    returnSub s = .error (.emptyStack .pc) := by
  simp [returnSub, popPc_nil h]

/-- With the guards off, the test of a condition is never refused and changes nothing, on NOT CE too
(45_conditions.md R204). -/
theorem condition_unguarded {s : State} (hu : s.unguarded) (c : Cond) :
    s.condition c = .ok (condHolds s.astat s.cntr c) := by
  obtain ⟨hcounter, -, -⟩ := hu
  simp [State.condition, State.counterRefused, hcounter]

section whenCond
variable {s : State} {c : Cond}

theorem whenCond_holds (hu : s.unguarded) (hc : condHolds s.astat s.cntr c = true)
    (body : Except Refusal (State × Machine.Flow)) : whenCond s c body = body := by
  simp [whenCond, condition_unguarded hu, hc]

theorem whenCond_fails (hu : s.unguarded) (hc : condHolds s.astat s.cntr c = false)
    (body : Except Refusal (State × Machine.Flow)) : whenCond s c body = .ok (s, .seq) := by
  simp [whenCond, condition_unguarded hu, hc]

/-- IF cond RTS is RTS where its condition holds. -/
theorem exec_ifRts_holds (hu : s.unguarded) (hc : condHolds s.astat s.cntr c = true) :
    exec (.ifRts c) s = exec .rts s := by
  rw [exec_ifRts, whenCond_holds hu hc, exec_rts]

theorem exec_ifRts_fails (hu : s.unguarded) (hp : s.prevKind ≠ .toppcRead)
    (hc : condHolds s.astat s.cntr c = false) (hseq : s.canSequence s) :
    ∃ t, SeqNext s s t ∧ exec (.ifRts c) s = .next (endOfStep .other t) := by
  rw [exec_ifRts, whenCond_fails hu hc]
  exact run_seq hu (hazard_rtsTraits hu hp) rfl hseq

end whenCond

theorem exec_rts_cons {s : State} {a : Addr} {as : List Addr} (hu : s.unguarded)
    (hp : s.prevKind ≠ .toppcRead) (h : s.pcstk.words = a :: as) :
    exec .rts s = .next (endOfStep .other ((s.setPcstk { s.pcstk with words := as }).setPc a)) := by
  rw [exec_rts, returnSub_cons h]
  exact run_taken (hazard_rtsTraits hu hp)

theorem exec_rts_nil {s : State} (hu : s.unguarded) (hp : s.prevKind ≠ .toppcRead)
    (h : s.pcstk.words = []) : exec .rts s = .refused (.emptyStack .pc) := by
  rw [exec_rts, returnSub_nil h]
  exact run_refused (hazard_rtsTraits hu hp)

/-- Settles O37: RTS by whether the PC stack holds a word; IF cond RTS is RTS where the condition holds,
and goes on in sequence where it does not. -/
theorem returnResult : Obligations.ReturnResult := by
  intro s hu hp
  refine ⟨fun a as hw => ?word, fun hw => ?empty, fun c hc hseq => exec_ifRts_fails hu hp hc hseq⟩
  case word =>
    have hrts := exec_rts_cons hu hp hw
    exact ⟨hrts, fun c hc => (exec_ifRts_holds hu hc).trans hrts⟩
  case empty =>
    have hrts := exec_rts_nil hu hp hw
    exact ⟨hrts, fun c hc => (exec_ifRts_holds hu hc).trans hrts⟩

end Sys2Proof.Machine
end

section
/-! What NOP executes (43_idle_nop.md R160). -/

namespace Sys2Proof.Machine

/-- NOP meets no hazard outside a loop end in the slot of a TOPPCSTACK read (46_toppcstack.md R222). -/
theorem hazard_noTraits {s : State} (hu : s.unguarded) (hs : s.slotFree) : hazard {} s = none :=
  hazard_none_plain hu hs rfl rfl

/-- Settles O40: NOP is a run in sequence without an effect of its own, which neither a hazard nor the
sequencing refuses. -/
theorem nopResult : Obligations.NopResult := by
  intro s hu hs hseq
  have hh : hazard {} s = none := hazard_noTraits hu hs
  rw [exec_nop]
  exact runSeq_ok hu hh rfl hseq

end Sys2Proof.Machine
end

section
/-! The moves and loads into OWRCNTR (44_status_mode.md R175): the run of an instruction that ends no loop,
the hazards of a move, and the two outcomes of the write. -/

namespace Sys2Proof.Machine

/-! ## Outside a loop end -/

/-- Where no loop ends, control goes on to the next address (40_sequencer.md R95). -/
theorem sequence_seq_next {s0 s1 : State} (hl : s0.atLoopEnd = false) :
    sequence s0 s1 .seq = .ok (s1.setPc (inc s0.pc)) := by
  simp [sequence, hl]

/-- The run in sequence of an instruction that ends no loop has one outcome, where `runSeq_ok` leaves open
which case of `SeqNext` it is. -/
theorem runSeq_next_address {tr : Traits} {s s1 : State} (hh : hazard tr s = none)
    (hl : s.atLoopEnd = false) :
    runSeq tr s (.ok s1) = .next (endOfStep tr.kind (s1.setPc (inc s.pc))) :=
  run_ok hh rfl (sequence_seq_next hl)

/-! ## Moves -/

/-- Only a move from SSTAT is in the list of 46_toppcstack.md R222. -/
theorem hazard_moveTraits {s : State} {src : Reg} (hu : s.unguarded) (hs : s.slotFree)
    (hp : src = .sstat → s.prevKind ≠ .toppcRead) : hazard { pcStack := src == .sstat } s = none := by
  by_cases hsrc : src = .sstat
  · exact hazard_none_stack hu (hp hsrc) nofun
  · exact hazard_none_plain hu hs (beq_false_of_ne hsrc) rfl

/-- A move whose source can be read is a write of what was read. -/
theorem move_of_readReg {s u : State} {dst src : Reg} {v : Bus} (h : s.readReg src = .ok (v, u)) :
    s.move dst src = u.writeReg dst v := by
  simp [State.move, h]

/-- A read does not move the loop comparator: at most it draws a free value. -/
theorem atLoopEnd_of_readReg {s u : State} {r : Reg} {v : Bus} (h : s.readReg r = .ok (v, u)) :
    u.atLoopEnd = s.atLoopEnd := by
  obtain ⟨n, rfl⟩ := readReg_ok h
  rfl

/-! ## The write -/

theorem writeReg_owrcntr_ok {s : State} (hl : s.atLoopEnd = false) (v : Bus) :
    s.writeReg .owrcntr v = .ok ((s.setCntr (v.setWidth 14)).setCntrValid true) := by
  simp [State.writeReg, State.writeOwrcntr, hl]

theorem writeReg_owrcntr_refused {s : State} (hl : s.atLoopEnd = true) (v : Bus) :
    s.writeReg .owrcntr v = .error .owrcntrAtLoopEnd := by
  simp [State.writeReg, State.writeOwrcntr, hl]

/-- A constant of a load loses nothing on the 16-bit bus. -/
theorem setWidth_bus_const (d : BitVec 14) : (d.setWidth 16 : Bus).setWidth 14 = d := by
  rw [BitVec.setWidth_setWidth_of_le d (by decide), BitVec.setWidth_eq]

section runs
variable {s : State} (hu : s.unguarded) (hs : s.slotFree)
include hu hs

theorem exec_toOwrcntr_next {u : State} {src : Reg} {v : Bus}
    (hp : src = .sstat → s.prevKind ≠ .toppcRead) (hread : s.readReg src = .ok (v, u))
    (hl : s.atLoopEnd = false) :
    exec (.toOwrcntr src) s = .next (endOfStep .other
      (((u.setCntr (v.setWidth 14)).setCntrValid true).setPc (inc s.pc))) := by
  have hlu : u.atLoopEnd = false := (atLoopEnd_of_readReg hread).trans hl
  rw [exec_toOwrcntr, runMove, move_of_readReg hread, writeReg_owrcntr_ok hlu]
  exact runSeq_next_address (hazard_moveTraits hu hs hp) hl

theorem exec_toOwrcntr_refused {u : State} {src : Reg} {v : Bus}
    (hp : src = .sstat → s.prevKind ≠ .toppcRead) (hread : s.readReg src = .ok (v, u))
    (hl : s.atLoopEnd = true) : exec (.toOwrcntr src) s = .refused .owrcntrAtLoopEnd := by
  have hlu : u.atLoopEnd = true := (atLoopEnd_of_readReg hread).trans hl
  rw [exec_toOwrcntr, runMove, move_of_readReg hread, writeReg_owrcntr_refused hlu]
  exact runSeq_refused (hazard_moveTraits hu hs hp)

theorem exec_owrcntrConst_next (hl : s.atLoopEnd = false) (d : BitVec 14) :
    exec (.owrcntrConst d) s = .next (endOfStep .other
      (((s.setCntr d).setCntrValid true).setPc (inc s.pc))) := by
  rw [exec_owrcntrConst, runLoad, writeReg_owrcntr_ok hl, setWidth_bus_const]
  exact runSeq_next_address (hazard_noTraits hu hs) hl

theorem exec_owrcntrConst_refused (hl : s.atLoopEnd = true) (d : BitVec 14) :
    exec (.owrcntrConst d) s = .refused .owrcntrAtLoopEnd := by
  rw [exec_owrcntrConst, runLoad, writeReg_owrcntr_refused hl]
  exact runSeq_refused (hazard_noTraits hu hs)

end runs

/-- Settles O55: a move and a load each by whether the instruction ends a loop; every source can be read. -/
theorem counterOverwriteResult : Obligations.CounterOverwriteResult := by
  intro s hu hs
  refine ⟨rfl, fun src hsrc hp => ?move, fun d => ?load⟩
  case move =>
    obtain ⟨v, n, hread⟩ := readReg_source s src hsrc
    exact ⟨fun hl => ⟨v, s.setFreeTick n, hread, exec_toOwrcntr_next hu hs hp hread hl⟩,
      exec_toOwrcntr_refused hu hs hp hread⟩
  case load =>
    exact ⟨fun hl => exec_owrcntrConst_next hu hs hl d, fun hl => exec_owrcntrConst_refused hu hs hl d⟩

end Sys2Proof.Machine
end

section
/-! The decoder on the words that the encoder builds (30_encoding.md section 2): one lemma per format, from
the fields of its words. -/

namespace Sys2Proof

/-- The top six bits that the formats of Type 10 and Type 11 have (30_encoding.md R83). -/
theorem decode_top6 (w : Insn) :
    (field w 18 6 = 0b000101#6 → decode w = decodeDo w) ∧
    (field w 18 6 = 0b000110#6 → decode w = decodeJump w) ∧
    (field w 18 6 = 0b000111#6 → decode w = decodeCall w) := by
  unfold decode
  refine ⟨?_, ?_, ?_⟩ <;> (intro h; rw [h]; rfl)

/-- The top four bits are a part of the top six. -/
theorem field_top4 (w : Insn) : field w 20 4 = (field w 18 6).extractLsb' 2 4 := by grind

/-- The top four bits of a Type 7 word (30_encoding.md R83). -/
theorem decode_top4 (w : Insn) (h : field w 20 4 = 0b0011) : decode w = decodeLoad w := by
  have hpart : ∀ k : BitVec 6, k.extractLsb' 2 4 ≠ 0b0011 → field w 18 6 ≠ k := by
    rintro k hk rfl
    exact hk (field_top4 w ▸ h)
  unfold decode
  rw [if_neg (hpart _ (by decide)), if_neg (hpart _ (by decide)), if_neg (hpart _ (by decide)),
    if_pos h]

/-- The formats with a top byte of their own that `decode_top` leaves out: NOP and Type 31. -/
theorem decode_top0 (w : Insn) :
    (field w 16 8 = 0x00#8 → decode w = if w = 0 then .instr .nop else .reject .notNop) ∧
    (field w 16 8 = 0x02#8 → field w 15 1 = 1#1 → decode w = decodeIdle w) := by
  obtain ⟨h6, h4⟩ := top_fields w
  unfold decode
  rw [h6, h4]
  constructor
  · intro h; rw [h]; rfl
  · intro h h15; rw [h, h15]; rfl

/-- Code 15 is the unconditional form (30_encoding.md R81). -/
theorem ofCode_always : Cond.ofCode 15#4 = none := rfl

/-! ## Transfers of control: Types 10, 11, 19, 20 and 27 -/

theorem decode_directWord_jump (a : Addr) (c : Cond) :
    decode (directWord 0 a 15) = .instr (.jump a) ∧
      decode (directWord 0 a c.code) = .instr (.ifJump c a) := by
  constructor <;>
  · obtain ⟨htop, haddr, hcond⟩ := fields_directWord 0 a _
    rw [(decode_top6 _).2.1 htop, decodeJump, haddr, hcond]
    simp [ofCode_always, ofCode_condCode]

theorem decode_directWord_call (a : Addr) (c : Cond) :
    decode (directWord 1 a 15) = .instr (.call a) ∧
      decode (directWord 1 a c.code) = .instr (.ifCall c a) := by
  constructor <;>
  · obtain ⟨htop, haddr, hcond⟩ := fields_directWord 1 a _
    rw [(decode_top6 _).2.2 htop, decodeCall, haddr, hcond]
    simp [ofCode_always, ofCode_condCode]

theorem decode_doWord (a : Addr) (t : Term) :
    decode (encode (.doUntil a t)) = .instr (.doUntil a t) := by
  obtain ⟨htop, haddr, hterm⟩ := fields_doWord a t.code
  have hword : encode (.doUntil a t) = 0b000101#6 ++ a ++ t.code := rfl
  rw [hword, (decode_top6 _).1 htop, decodeDo, haddr, hterm, ofCode_termCode]

theorem decode_indirectWord (x : IReg) (s : BitVec 1) (c : Cond) :
    decode (indirectWord x s 15) = .instr (if s = 0 then .jumpInd x else .callInd x) ∧
      decode (indirectWord x s c.code) =
        .instr (if s = 0 then .ifJumpInd c x else .ifCallInd c x) := by
  constructor <;>
  · obtain ⟨htop, hzero8, hzero5, hix, hs, hcond⟩ := fields_indirectWord x s _
    rw [(decode_top _).2.2.2.1 htop, decodeIndirect, hzero8, hzero5, hix, hs, hcond]
    simp [ofCode_always, ofCode_condCode, ofCode_ixCode]

theorem decode_returnWord (t : BitVec 1) (c : Cond) :
    decode (returnWord t 15) = .instr (if t = 0 then .rts else .rti) ∧
      decode (returnWord t c.code) = .instr (if t = 0 then .ifRts c else .ifRti c) := by
  constructor <;>
  · obtain ⟨htop, hzero, ht, hcond⟩ := fields_returnWord t _
    rw [(decode_top _).2.2.1 htop, decodeReturn, hzero, ht, hcond]
    simp [ofCode_always, ofCode_condCode]

theorem decode_flagInWord (a : Addr) (x y : BitVec 1) :
    decode (flagInWord a x y) =
      if y = 0 then .instr (if x = 1 then .flagInJump a else .notFlagInJump a)
      else .instr (if x = 1 then .flagInCall a else .notFlagInCall a) := by
  obtain ⟨htop, haddr, hx, hy⟩ := fields_flagInWord a x y
  rw [(decode_top _).1 htop, decodeFlagIn, haddr, hx, hy]

theorem decode_idleWord (n : Divisor) : decode (idleWord n.code) = .instr (.idleN n) := by
  cases n <;> rfl

/-! ## Stack control: Type 26 -/

/-- A word with zeros in the bits 5 to 15 is neither of the two INTS words. -/
theorem low_ne_ints (w : Insn) (h : field w 5 11 = 0) :
    field w 0 16 ≠ 0x0060 ∧ field w 0 16 ≠ 0x0040 := by
  have hpart : field w 5 11 = (field w 0 16).extractLsb' 5 11 := by grind
  rw [hpart] at h
  constructor <;> (intro hw; rw [hw] at h; exact absurd h (by decide))

theorem decode_stackWord (pp lp cp : Bool) (spp : BitVec 2) :
    decode (stackWord pp lp cp spp) =
      if pp then .instr (.popPc lp cp spp)
      else if lp then .instr (.popLoop false cp spp)
      else if cp then .instr (.popCntr false false spp)
      else if spp = 2 then .instr (.pushSts false false false)
      else if spp = 3 then .instr (.popSts false false false)
      else .beyond .inert := by
  obtain ⟨htop, hzero, hpp, hlp, hcp, hspp⟩ := fields_stackWord pp lp cp spp
  obtain ⟨hena, hdis⟩ := low_ne_ints _ hzero
  rw [(decode_top _).2.1 htop, decodeStack, if_neg hena, if_neg hdis, hzero, hpp, hlp, hcp, hspp]
  cases pp <;> cases lp <;> cases cp <;> rfl

/-! ## Mode control: Type 18 -/

theorem decode_modeWord (f : ModeFields) : decode (modeWord f) = firstMode f := by
  obtain ⟨htop, hzero, hfields⟩ := fields_modeWord f
  rw [(decode_top _).2.2.2.2.1 htop, decodeMode, hzero, hfields]
  rfl

/-- A field acts where it is 3 or 2 (30_encoding.md R79). -/
theorem modeActive_eq_false (f : BitVec 2) : modeActive f = false ↔ f ≠ 3#2 ∧ f ≠ 2#2 := by
  revert f; decide

/-! ## Moves and loads: Types 17 and 7 -/

theorem decode_moveWord (dst src : Reg) : decode (moveWord dst src) = moveOf dst src := by
  obtain ⟨htop, hzero, hdst, hsrc, hdstReg, hsrcReg⟩ := fields_moveWord dst src
  rw [(decode_top _).2.2.2.2.2 htop, decodeMove, hzero, hdst, hsrc, hdstReg, hsrcReg]
  simp [ofCode_regCode]

theorem decode_loadWord (dst : Reg) (d : BitVec 14) (h : dst.code.1 ≠ 0) :
    decode (loadWord dst d) = loadOf dst d := by
  obtain ⟨htop, hgroup, hdata, hreg⟩ := fields_loadWord dst d
  rw [decode_top4 _ htop, decodeLoad, hgroup, hdata, hreg, if_neg h, ofCode_regCode]

/-- A move from a register of the sequencer. -/
theorem moveOf_fromSequencer (dst : Reg) (h : dst.isPlain = true) :
    moveOf dst .astat = .instr (.fromAstat dst) ∧ moveOf dst .mstat = .instr (.fromMstat dst) ∧
    moveOf dst .sstat = .instr (.fromSstat dst) ∧ moveOf dst .imask = .instr (.fromImask dst) ∧
    moveOf dst .icntl = .instr (.fromIcntl dst) ∧ moveOf dst .cntr = .instr (.fromCntr dst) := by
  cases dst <;> first | exact absurd h (by decide) | exact ⟨rfl, rfl, rfl, rfl, rfl, rfl⟩

/-- A move into a register of the sequencer. -/
theorem moveOf_toSequencer (src : Reg) (h : src.isSource = true) :
    moveOf .astat src = .instr (.toAstat src) ∧ moveOf .mstat src = .instr (.toMstat src) ∧
    moveOf .imask src = .instr (.toImask src) ∧ moveOf .icntl src = .instr (.toIcntl src) ∧
    moveOf .cntr src = .instr (.toCntr src) ∧ moveOf .ifc src = .instr (.toIfc src) ∧
    moveOf .owrcntr src = .instr (.toOwrcntr src) := by
  cases src <;> first | exact absurd h (by decide) | exact ⟨rfl, rfl, rfl, rfl, rfl, rfl, rfl⟩

theorem moveOf_toppcstack (r : Reg) (h : r.toppcOk = true) :
    moveOf r .toppcstack = .instr (.fromToppcstack r) ∧
    moveOf .toppcstack r = .instr (.toToppcstack r) := by
  cases r <;> first | exact absurd h (by decide) | exact ⟨rfl, rfl⟩

/-- Settles O2: by the format of the word that each constructor is encoded with. -/
theorem decodeOfEncode : Obligations.DecodeOfEncode := by
  intro i hwf
  cases i with
  | jump a => exact (decode_directWord_jump a .eq).1
  | ifJump c a => exact (decode_directWord_jump a c).2
  | call a => exact (decode_directWord_call a .eq).1
  | ifCall c a => exact (decode_directWord_call a c).2
  | doUntil a t => exact decode_doWord a t
  | jumpInd x => exact (decode_indirectWord x 0 .eq).1
  | ifJumpInd c x => exact (decode_indirectWord x 0 c).2
  | callInd x => exact (decode_indirectWord x 1 .eq).1
  | ifCallInd c x => exact (decode_indirectWord x 1 c).2
  | rts => exact (decode_returnWord 0 .eq).1
  | ifRts c => exact (decode_returnWord 0 c).2
  | rti => exact (decode_returnWord 1 .eq).1
  | ifRti c => exact (decode_returnWord 1 c).2
  | flagInJump a => exact decode_flagInWord a 1 0
  | notFlagInJump a => exact decode_flagInWord a 0 0
  | flagInCall a => exact decode_flagInWord a 1 1
  | notFlagInCall a => exact decode_flagInWord a 0 1
  | nop | idle | enaInts | disInts => rfl
  | idleN n => exact decode_idleWord n
  | popPc | popLoop | popCntr | pushSts | popSts =>
    simp only [Instr.wellFormed, Bool.and_eq_true, Bool.not_eq_true'] at hwf
    simp [encode, decode_stackWord, hwf]
  | enaTimer f | disTimer f | enaMMode f | disMMode f | enaArSat f | disArSat f | enaAvLatch f
  | disAvLatch f | enaBitRev f | disBitRev f | enaSecReg f | disSecReg f | enaGMode f
  | disGMode f =>
    obtain ⟨ti, mm, as, ol, br, sr, gm⟩ := f
    simp only [Instr.wellFormed, Bool.and_eq_true, Bool.not_eq_true', beq_iff_eq,
      modeActive_eq_false] at hwf
    simp [encode, decode_modeWord, firstMode, hwf]
  | fromAstat | fromMstat | fromSstat | fromImask | fromIcntl | fromCntr =>
    simp [encode, decode_moveWord, moveOf_fromSequencer _ hwf]
  | toAstat | toMstat | toImask | toIcntl | toCntr | toIfc | toOwrcntr =>
    simp [encode, decode_moveWord, moveOf_toSequencer _ hwf]
  | fromToppcstack | toToppcstack =>
    simp [encode, decode_moveWord, moveOf_toppcstack _ hwf]
  | astatConst | mstatConst | imaskConst | icntlConst | cntrConst | ifcConst | owrcntrConst =>
    exact decode_loadWord _ _ (by decide)

end Sys2Proof
end

section
/-! The converse: a word that the decoder reads as an instruction is put together again from its fields
(30_encoding.md section 2, R84). -/

namespace Sys2Proof

/-! ## Codes -/

theorem condCode_of_ofCode {k : BitVec 4} {c : Cond} (h : Cond.ofCode k = some c) : c.code = k := by
  revert k c; decide

theorem always_of_ofCode {k : BitVec 4} (h : Cond.ofCode k = none) : k = 15 := by
  revert k; decide

theorem termCode_ofCode (k : BitVec 4) : (Term.ofCode k).code = k := by revert k; decide

theorem ixCode_ofCode (k : BitVec 2) : (IReg.ofCode k).code = k := by revert k; decide

theorem divCode_of_ofCode {k : BitVec 4} {n : Divisor} (h : Divisor.ofCode k = some n) :
    n.code = k := by
  revert k n; decide

theorem divOfCode_reserved {k : BitVec 4} (h : k ∉ [(0 : BitVec 4), 1, 2, 4, 8]) :
    k ≠ 0 ∧ Divisor.ofCode k = none := by
  revert k; decide

/-- The codes that name no register are the reserved ones, and a code that names one is its code. -/
theorem regOfCode_cases (g : BitVec 2) (k : BitVec 4) :
    (reservedCode g k ∧ Reg.ofCode g k = none) ∨
      ∃ r, Reg.ofCode g k = some r ∧ r.code = (g, k) ∧ ¬ reservedCode g k := by
  have hcode : (Reg.ofCode g k = none ∧ (((g = 1 ∨ g = 2) ∧ 12 ≤ k.toNat) ∨ (g = 3 ∧ k = 14))) ∨
      ((Reg.ofCode g k).map Reg.code = some (g, k) ∧
        ¬(((g = 1 ∨ g = 2) ∧ 12 ≤ k.toNat) ∨ (g = 3 ∧ k = 14))) := by
    revert g k; decide
  rcases hcode with ⟨hnone, hres⟩ | ⟨hsome, hres⟩
  · exact .inl ⟨hres, hnone⟩
  · obtain ⟨r, hr, hcode⟩ := Option.map_eq_some_iff.1 hsome
    exact .inr ⟨r, hr, hcode, hres⟩

theorem regCode_of_ofCode {g : BitVec 2} {k : BitVec 4} {r : Reg} (h : Reg.ofCode g k = some r) :
    r.code = (g, k) := by
  rcases regOfCode_cases g k with ⟨-, hnone⟩ | ⟨r', hr, hcode, -⟩
  · rw [hnone] at h; cases h
  · rw [hr] at h; cases h; exact hcode

theorem regOfCode_reserved {g : BitVec 2} {k : BitVec 4} (h : reservedCode g k) :
    Reg.ofCode g k = none := by
  rcases regOfCode_cases g k with ⟨-, hnone⟩ | ⟨r, -, -, hres⟩
  · exact hnone
  · exact absurd h hres

/-! ## A word is its fields -/

/-- Two fields that stand side by side, put together. -/
theorem field_append (w : Insn) (lo n m : Nat) :
    field w (lo + n) m ++ field w lo n = field w lo (m + n) :=
  BitVec.extractLsb'_append_extractLsb'_eq_extractLsb' rfl

theorem directWord_fields {w : Insn} {s : BitVec 1} (h : field w 18 6 = 0b00011#5 ++ s) :
    directWord s (field w 4 14) (field w 0 4) = w := by
  have hw : field w 18 6 ++ field w 4 14 ++ field w 0 4 = w := by grind
  rwa [h] at hw

theorem doWord_fields {w : Insn} (h : field w 18 6 = 0b000101#6) :
    0b000101#6 ++ field w 4 14 ++ field w 0 4 = w := by
  have hw : field w 18 6 ++ field w 4 14 ++ field w 0 4 = w := by grind
  rwa [h] at hw

theorem indirectWord_fields {w : Insn} {x : IReg} (htop : field w 16 8 = 0x0B#8)
    (h8 : field w 8 8 = 0#8) (h5 : field w 5 1 = 0#1) (hx : x.code = field w 6 2) :
    indirectWord x (field w 4 1) (field w 0 4) = w := by
  have hw : field w 16 8 ++ field w 8 8 ++ field w 6 2 ++ field w 5 1 ++ field w 4 1 ++
    field w 0 4 = w := by grind
  rwa [htop, h8, h5, ← hx] at hw

theorem returnWord_fields {w : Insn} (htop : field w 16 8 = 0x0A#8) (h5 : field w 5 11 = 0#11) :
    returnWord (field w 4 1) (field w 0 4) = w := by
  have hw : field w 16 8 ++ field w 5 11 ++ field w 4 1 ++ field w 0 4 = w := by grind
  rwa [htop, h5] at hw

theorem flagInWord_fields {w : Insn} (htop : field w 16 8 = 0x03#8) :
    flagInWord (field w 2 2 ++ field w 4 12) (field w 1 1) (field w 0 1) = w := by
  have hw : field w 16 8 ++ field w 4 12 ++ field w 2 2 ++ field w 1 1 ++ field w 0 1 = w := by
    grind
  have hlow : (field w 2 2 ++ field w 4 12).extractLsb' 0 12 = field w 4 12 := by grind
  have hhigh : (field w 2 2 ++ field w 4 12).extractLsb' 12 2 = field w 2 2 := by grind
  unfold flagInWord
  rw [hlow, hhigh]
  rwa [htop] at hw

theorem idleWord_fields {w : Insn} (htop : field w 16 8 = 0x02#8) (h15 : field w 15 1 = 1#1)
    (h4 : field w 4 11 = 0#11) : idleWord (field w 0 4) = w := by
  have hw : field w 16 8 ++ field w 15 1 ++ field w 4 11 ++ field w 0 4 = w := by grind
  rwa [htop, h15, h4] at hw

theorem stackWord_fields {w : Insn} (htop : field w 16 8 = 0x04#8) (h5 : field w 5 11 = 0#11) :
    stackWord (decide (field w 4 1 = 1)) (decide (field w 3 1 = 1)) (decide (field w 2 1 = 1))
      (field w 0 2) = w := by
  have hbit : ∀ b : BitVec 1, BitVec.ofBool (decide (b = 1)) = b := by decide
  have hw : field w 16 8 ++ field w 5 11 ++ field w 4 1 ++ field w 3 1 ++ field w 2 1 ++
    field w 0 2 = w := by grind
  unfold stackWord
  rw [hbit, hbit, hbit]
  rwa [htop, h5] at hw

theorem modeWord_fields {w : Insn} (htop : field w 16 8 = 0x0C#8) (h0 : field w 0 2 = 0#2) :
    modeWord (modeFields w) = w := by
  have hw : field w 16 8 ++ field w 14 2 ++ field w 12 2 ++ field w 10 2 ++ field w 8 2 ++
      field w 6 2 ++ field w 4 2 ++ field w 2 2 ++ field w 0 2 = w := by
    rw [field_append w 14 2 8, field_append w 12 2 10, field_append w 10 2 12,
      field_append w 8 2 14, field_append w 6 2 16, field_append w 4 2 18, field_append w 2 2 20,
      field_append w 0 2 22]
    exact BitVec.extractLsb'_eq_self
  rwa [htop, h0] at hw

theorem moveWord_fields {w : Insn} {dst src : Reg} (htop : field w 16 8 = 0x0D#8)
    (h12 : field w 12 4 = 0#4) (hdst : dst.code = (field w 10 2, field w 4 4))
    (hsrc : src.code = (field w 8 2, field w 0 4)) : moveWord dst src = w := by
  have hw : field w 16 8 ++ field w 12 4 ++ field w 10 2 ++ field w 8 2 ++ field w 4 4 ++
    field w 0 4 = w := by grind
  unfold moveWord
  rw [hdst, hsrc]
  rwa [htop, h12] at hw

theorem loadWord_fields {w : Insn} {dst : Reg} (htop : field w 20 4 = 0b0011#4)
    (hdst : dst.code = (field w 18 2, field w 0 4)) : loadWord dst (field w 4 14) = w := by
  have hw : field w 20 4 ++ field w 18 2 ++ field w 4 14 ++ field w 0 4 = w := by grind
  unfold loadWord
  rw [hdst]
  rwa [htop] at hw

/-! ## Each format read back -/

/-- The instruction that a word decodes to is well-formed and has that word. -/
def ReadsBack (w : Insn) (i : Instr) : Prop := i.wellFormed = true ∧ encode i = w

theorem readsBack_decodeJump {w : Insn} {i : Instr} (htop : field w 18 6 = 0b000110#6)
    (h : decodeJump w = .instr i) : ReadsBack w i := by
  have hword := directWord_fields (s := 0) htop
  unfold decodeJump at h
  split at h <;> cases h
  · rename_i hc
    exact ⟨rfl, by rwa [always_of_ofCode hc] at hword⟩
  · rename_i hc
    exact ⟨rfl, by rwa [← condCode_of_ofCode hc] at hword⟩

theorem readsBack_decodeCall {w : Insn} {i : Instr} (htop : field w 18 6 = 0b000111#6)
    (h : decodeCall w = .instr i) : ReadsBack w i := by
  have hword := directWord_fields (s := 1) htop
  unfold decodeCall at h
  split at h <;> cases h
  · rename_i hc
    exact ⟨rfl, by rwa [always_of_ofCode hc] at hword⟩
  · rename_i hc
    exact ⟨rfl, by rwa [← condCode_of_ofCode hc] at hword⟩

theorem readsBack_decodeDo {w : Insn} {i : Instr} (htop : field w 18 6 = 0b000101#6)
    (h : decodeDo w = .instr i) : ReadsBack w i := by
  have hword := doWord_fields htop
  cases h
  refine ⟨rfl, ?_⟩
  rwa [← termCode_ofCode (field w 0 4)] at hword

/-- The two values of a one-bit field. -/
theorem bit_cases (b : BitVec 1) : b = 0 ∨ b = 1 := by revert b; decide

theorem readsBack_decodeIndirect {w : Insn} {i : Instr} (htop : field w 16 8 = 0x0B#8)
    (h : decodeIndirect w = .instr i) : ReadsBack w i := by
  unfold decodeIndirect at h
  split at h
  · cases h
  rename_i hzero
  obtain ⟨h8, h5⟩ := not_or.1 hzero
  have hword := indirectWord_fields htop (not_not.1 h8) (not_not.1 h5) (ixCode_ofCode _)
  split at h
  · rename_i hc
    rw [always_of_ofCode hc] at hword
    rcases bit_cases (field w 4 1) with hs | hs <;> rw [hs] at h hword <;> cases h <;>
      exact ⟨rfl, hword⟩
  · rename_i hc
    rw [← condCode_of_ofCode hc] at hword
    rcases bit_cases (field w 4 1) with hs | hs <;> rw [hs] at h hword <;> cases h <;>
      exact ⟨rfl, hword⟩

theorem readsBack_decodeReturn {w : Insn} {i : Instr} (htop : field w 16 8 = 0x0A#8)
    (h : decodeReturn w = .instr i) : ReadsBack w i := by
  unfold decodeReturn at h
  split at h
  · cases h
  rename_i h5
  have hword := returnWord_fields htop (not_not.1 h5)
  split at h
  · rename_i hc
    rw [always_of_ofCode hc] at hword
    rcases bit_cases (field w 4 1) with ht | ht <;> rw [ht] at h hword <;> cases h <;>
      exact ⟨rfl, hword⟩
  · rename_i hc
    rw [← condCode_of_ofCode hc] at hword
    rcases bit_cases (field w 4 1) with ht | ht <;> rw [ht] at h hword <;> cases h <;>
      exact ⟨rfl, hword⟩

theorem readsBack_decodeFlagIn {w : Insn} {i : Instr} (htop : field w 16 8 = 0x03#8)
    (h : decodeFlagIn w = .instr i) : ReadsBack w i := by
  have hword := flagInWord_fields htop
  unfold decodeFlagIn at h
  rcases bit_cases (field w 0 1) with hs | hs <;> rcases bit_cases (field w 1 1) with hf | hf <;>
    rw [hs, hf] at h hword <;> cases h <;> exact ⟨rfl, hword⟩

theorem readsBack_decodeIdle {w : Insn} {i : Instr} (htop : field w 16 8 = 0x02#8)
    (h15 : field w 15 1 = 1#1) (h : decodeIdle w = .instr i) : ReadsBack w i := by
  unfold decodeIdle at h
  split at h
  · cases h
  rename_i h4
  have hword := idleWord_fields htop h15 (not_not.1 h4)
  split at h
  · rename_i hdv
    cases h
    exact ⟨rfl, by rwa [hdv] at hword⟩
  · split at h <;> cases h
    rename_i hdv
    exact ⟨rfl, by rwa [← divCode_of_ofCode hdv] at hword⟩

theorem readsBack_decodeStack {w : Insn} {i : Instr} (htop : field w 16 8 = 0x04#8)
    (h : decodeStack w = .instr i) : ReadsBack w i := by
  have hhalves : field w 16 8 ++ field w 0 16 = w := by grind
  unfold decodeStack at h
  split at h
  · rename_i hlow
    cases h
    exact ⟨rfl, by rw [← hhalves, htop, hlow]; rfl⟩
  split at h
  · rename_i hlow
    cases h
    exact ⟨rfl, by rw [← hhalves, htop, hlow]; rfl⟩
  split at h
  · cases h
  rename_i h5
  have hword := stackWord_fields htop (not_not.1 h5)
  dsimp only at h
  split at h
  · rename_i hpp
    cases h
    simp only [hpp, decide_true] at hword
    exact ⟨rfl, hword⟩
  rename_i hpp
  split at h
  · rename_i hlp
    cases h
    simp only [hpp, hlp, decide_false] at hword
    exact ⟨rfl, hword⟩
  rename_i hlp
  split at h
  · rename_i hcp
    cases h
    simp only [hpp, hlp, hcp, decide_false] at hword
    exact ⟨rfl, hword⟩
  rename_i hcp
  split at h
  · rename_i hspp
    cases h
    simp only [hpp, hlp, hcp, hspp, decide_false] at hword
    exact ⟨rfl, hword⟩
  split at h <;> cases h
  rename_i hspp
  simp only [hpp, hlp, hcp, hspp, decide_false] at hword
  exact ⟨rfl, hword⟩

theorem instr_of_ite {c : Prop} [Decidable c] {j i : Instr} {d : Decoded}
    (h : (if c then .instr j else d) = .instr i) : (c ∧ j = i) ∨ (¬c ∧ d = .instr i) := by
  split at h
  · exact .inl ⟨‹c›, by simpa using h⟩
  · exact .inr ⟨‹¬c›, h⟩

theorem readsBack_firstMode {f : ModeFields} {i : Instr} (h : firstMode f = .instr i) :
    ReadsBack (modeWord f) i := by
  obtain ⟨ti, mm, as, ol, br, sr, gm⟩ := f
  unfold firstMode at h
  simp only [BitVec.ofNat_eq_ofNat] at h
  iterate 14
    replace h := instr_of_ite h
    obtain ⟨hacts, rfl⟩ | ⟨hacts, h⟩ := h
    · exact ⟨by simp [Instr.wellFormed, modeActive_eq_false, *], by simp [encode, *]⟩
  cases h

theorem readsBack_decodeMode {w : Insn} {i : Instr} (htop : field w 16 8 = 0x0C#8)
    (h : decodeMode w = .instr i) : ReadsBack w i := by
  unfold decodeMode at h
  split at h
  · cases h
  rename_i h0
  have hback := readsBack_firstMode h
  rwa [modeWord_fields htop (not_not.1 h0)] at hback

/-- The registers that are no register of the sequencer, by exclusion. -/
theorem isPlain_of_ne {r : Reg} (hastat : r ≠ .astat) (hmstat : r ≠ .mstat) (hsstat : r ≠ .sstat)
    (himask : r ≠ .imask) (hicntl : r ≠ .icntl) (hcntr : r ≠ .cntr) (hifc : r ≠ .ifc)
    (howrcntr : r ≠ .owrcntr) (htoppc : r ≠ .toppcstack) : r.isPlain = true := by
  cases r <;> first | rfl | contradiction

theorem isSource_of_ne {r : Reg} (hifc : r ≠ .ifc) (howrcntr : r ≠ .owrcntr)
    (htoppc : r ≠ .toppcstack) : r.isSource = true := by
  cases r <;> first | rfl | contradiction

theorem readsBack_moveOf {dst src : Reg} {i : Instr} (h : moveOf dst src = .instr i) :
    ReadsBack (moveWord dst src) i := by
  unfold moveOf at h
  split at h
  · rename_i hdst
    subst hdst
    split at h <;> cases h
    exact ⟨‹_›, rfl⟩
  rename_i hdst
  split at h
  · rename_i hsrc
    subst hsrc
    split at h <;> cases h
    exact ⟨‹_›, rfl⟩
  rename_i hsrc
  split at h
  · cases h
  rename_i hifc
  split at h
  · cases h
  rename_i howrcntr
  have hsource := isSource_of_ne hifc howrcntr hsrc
  split at h <;> cases h <;> first
    | exact ⟨hsource, rfl⟩
    | exact ⟨isPlain_of_ne ‹_› ‹_› ‹_› ‹_› ‹_› ‹_› ‹_› ‹_› hdst, rfl⟩

theorem readsBack_decodeMove {w : Insn} {i : Instr} (htop : field w 16 8 = 0x0D#8)
    (h : decodeMove w = .instr i) : ReadsBack w i := by
  unfold decodeMove at h
  split at h
  · cases h
  rename_i h12
  split at h
  · rename_i hdst hsrc
    have hback := readsBack_moveOf h
    rwa [moveWord_fields htop (not_not.1 h12) (regCode_of_ofCode hdst)
      (regCode_of_ofCode hsrc)] at hback
  · cases h

theorem readsBack_loadOf {dst : Reg} {d : BitVec 14} {i : Instr} (h : loadOf dst d = .instr i) :
    ReadsBack (loadWord dst d) i := by
  unfold loadOf at h
  split at h <;> cases h <;> exact ⟨rfl, rfl⟩

theorem readsBack_decodeLoad {w : Insn} {i : Instr} (htop : field w 20 4 = 0b0011#4)
    (h : decodeLoad w = .instr i) : ReadsBack w i := by
  unfold decodeLoad at h
  split at h
  · cases h
  split at h
  · rename_i hdst
    have hback := readsBack_loadOf h
    rwa [loadWord_fields htop (regCode_of_ofCode hdst)] at hback
  · cases h

/-- The word of an instruction is read back, whatever its format. -/
theorem readsBack_decode {w : Insn} {i : Instr} (h : decode w = .instr i) : ReadsBack w i := by
  unfold decode at h
  by_cases hdo : field w 18 6 = 0b000101
  · rw [if_pos hdo] at h
    exact readsBack_decodeDo hdo h
  rw [if_neg hdo] at h
  by_cases hjump : field w 18 6 = 0b000110
  · rw [if_pos hjump] at h
    exact readsBack_decodeJump hjump h
  rw [if_neg hjump] at h
  by_cases hcall : field w 18 6 = 0b000111
  · rw [if_pos hcall] at h
    exact readsBack_decodeCall hcall h
  rw [if_neg hcall] at h
  by_cases hload : field w 20 4 = 0b0011
  · rw [if_pos hload] at h
    exact readsBack_decodeLoad hload h
  rw [if_neg hload] at h
  by_cases hnop : field w 16 8 = 0x00
  · rw [if_pos hnop] at h
    split at h <;> cases h
    exact ⟨rfl, by rw [‹w = 0›]; rfl⟩
  rw [if_neg hnop] at h
  by_cases hidle : field w 16 8 = 0x02
  · rw [if_pos hidle] at h
    split at h
    · exact readsBack_decodeIdle hidle ‹_› h
    · cases h
  rw [if_neg hidle] at h
  by_cases hflag : field w 16 8 = 0x03
  · rw [if_pos hflag] at h
    exact readsBack_decodeFlagIn hflag h
  rw [if_neg hflag] at h
  by_cases hstack : field w 16 8 = 0x04
  · rw [if_pos hstack] at h
    exact readsBack_decodeStack hstack h
  rw [if_neg hstack] at h
  by_cases hreturn : field w 16 8 = 0x0A
  · rw [if_pos hreturn] at h
    exact readsBack_decodeReturn hreturn h
  rw [if_neg hreturn] at h
  by_cases hindirect : field w 16 8 = 0x0B
  · rw [if_pos hindirect] at h
    exact readsBack_decodeIndirect hindirect h
  rw [if_neg hindirect] at h
  by_cases hmode : field w 16 8 = 0x0C
  · rw [if_pos hmode] at h
    exact readsBack_decodeMode hmode h
  rw [if_neg hmode] at h
  by_cases hmove : field w 16 8 = 0x0D
  · rw [if_pos hmove] at h
    exact readsBack_decodeMove hmove h
  rw [if_neg hmove] at h
  cases h

/-! ## The reserved words -/

theorem decodeMove_reserved {w : Insn} (h12 : field w 12 4 = 0)
    (hres : reservedCode (field w 10 2) (field w 4 4) ∨ reservedCode (field w 8 2) (field w 0 4)) :
    decodeMove w = .reject .reservedRegister := by
  unfold decodeMove
  rw [if_neg (not_not.2 h12)]
  split
  · rename_i hdst hsrc
    rcases hres with h | h <;> rw [regOfCode_reserved h] at *
    · cases hdst
    · cases hsrc
  · rfl

theorem decodeLoad_reserved {w : Insn} (hres : reservedCode (field w 18 2) (field w 0 4)) :
    decodeLoad w = .reject .reservedRegister := by
  have hgroup : field w 18 2 ≠ 0 := by
    intro h
    rw [h] at hres
    rcases hres with ⟨h | h, -⟩ | ⟨h, -⟩ <;> exact absurd h (by decide)
  unfold decodeLoad
  rw [if_neg hgroup, regOfCode_reserved hres]

/-- Each word outside the formats is rejected by the decoder of its type (30_encoding.md R84). -/
theorem decode_reserved (w : Insn) :
    (field w 16 8 = 0x00 → w ≠ 0 → decode w = .reject .notNop) ∧
    (field w 16 8 = 0x02 → field w 15 1 = 1 → field w 4 11 ≠ 0 →
      decode w = .reject .nonzeroReserved) ∧
    (field w 16 8 = 0x02 → field w 15 1 = 1 → field w 4 11 = 0 →
      field w 0 4 ∉ [(0 : BitVec 4), 1, 2, 4, 8] → decode w = .reject .reservedDivisor) ∧
    (field w 16 8 = 0x04 → field w 5 11 ≠ 0 → w ≠ 0x040060 → w ≠ 0x040040 →
      decode w = .reject .nonzeroReserved) ∧
    (field w 16 8 = 0x0A → field w 5 11 ≠ 0 → decode w = .reject .nonzeroReserved) ∧
    (field w 16 8 = 0x0B → field w 8 8 ≠ 0 ∨ field w 5 1 ≠ 0 →
      decode w = .reject .nonzeroReserved) ∧
    (field w 16 8 = 0x0C → field w 0 2 ≠ 0 → decode w = .reject .nonzeroReserved) ∧
    (field w 16 8 = 0x0D → field w 12 4 ≠ 0 → decode w = .reject .nonzeroReserved) ∧
    (field w 16 8 = 0x0D → field w 12 4 = 0 →
      reservedCode (field w 10 2) (field w 4 4) ∨ reservedCode (field w 8 2) (field w 0 4) →
      decode w = .reject .reservedRegister) ∧
    (field w 20 4 = 0x3 → reservedCode (field w 18 2) (field w 0 4) →
      decode w = .reject .reservedRegister) ∧
    (field w 20 4 = 0x3 → field w 18 2 = 0 → decode w = .reject .dataRegisterLoad) := by
  obtain ⟨-, hstack, hreturn, hindirect, hmode, hmove⟩ := decode_top w
  obtain ⟨hnop, hidle⟩ := decode_top0 w
  have hload := decode_top4 w
  have hhalves : field w 16 8 ++ field w 0 16 = w := by grind
  refine ⟨fun h h0 => ?nop, fun h h15 h4 => ?idle, fun h h15 h4 hdv => ?divisor,
    fun h h5 hena hdis => ?stack, fun h h5 => ?ret, fun h hz => ?indirect, fun h h0 => ?mode,
    fun h h12 => ?move, fun h h12 hres => ?moveCode, fun h hres => ?loadCode, fun h hg => ?loadData⟩
  case nop => rw [hnop h, if_neg h0]
  case idle => rw [hidle h h15, decodeIdle, if_pos h4]
  case divisor =>
    obtain ⟨hdv0, hnone⟩ := divOfCode_reserved hdv
    rw [hidle h h15, decodeIdle, if_neg (not_not.2 h4), if_neg hdv0, hnone]
  case stack =>
    have hne (k : BitVec 16) (hk : w ≠ 0x04#8 ++ k) : field w 0 16 ≠ k := by
      rintro rfl
      rw [h] at hhalves
      exact hk hhalves.symm
    rw [hstack h, decodeStack, if_neg (hne _ hena), if_neg (hne _ hdis), if_pos h5]
  case ret => rw [hreturn h, decodeReturn, if_pos h5]
  case indirect => rw [hindirect h, decodeIndirect, if_pos hz]
  case mode => rw [hmode h, decodeMode, if_pos h0]
  case move => rw [hmove h, decodeMove, if_pos h12]
  case moveCode => rw [hmove h, decodeMove_reserved h12 hres]
  case loadCode => rw [hload h, decodeLoad_reserved hres]
  case loadData => rw [hload h, decodeLoad, if_pos hg]

/-- The moves that cannot be (10_state.md R19, R27, R36; 46_toppcstack.md R226). -/
theorem moveOf_rejected (dst src : Reg) :
    (dst ≠ .toppcstack → src = .ifc → moveOf dst src = .reject .ifcRead) ∧
    (dst ≠ .toppcstack → src = .owrcntr → moveOf dst src = .reject .owrcntrRead) ∧
    (dst = .sstat → src.isSource = true → moveOf dst src = .reject .sstatWrite) ∧
    (dst = .toppcstack → src.toppcOk = false → moveOf dst src = .reject .toppcRegister) ∧
    (src = .toppcstack → dst.toppcOk = false → moveOf dst src = .reject .toppcRegister) := by
  refine ⟨?_, ?_, ?_, ?_, ?_⟩
  · rintro hdst rfl; simp [moveOf, hdst]
  · rintro hdst rfl; simp [moveOf, hdst]
  · rintro rfl hsrc
    cases src <;> first | rfl | exact absurd hsrc (by decide)
  · rintro rfl hsrc; simp [moveOf, hsrc]
  · rintro rfl hdst
    by_cases h : dst = .toppcstack
    · subst h; rfl
    · simp [moveOf, h, hdst]

/-- Settles O3: the decoder of each format reads back the word it is given; the words outside the formats
and the moves and loads that cannot be are rejected. -/
theorem encodeOfDecode : Obligations.EncodeOfDecode := by
  refine ⟨fun w i h => readsBack_decode h, decode_reserved, fun dst src => ?moves, fun d => ?loads⟩
  case moves =>
    rw [decode_moveWord]
    exact moveOf_rejected dst src
  case loads => exact ⟨decode_loadWord _ d (by decide), decode_loadWord _ d (by decide)⟩

end Sys2Proof
end

section
/-! The frame of every instruction: its own effect changes no part but those its rule names, the sequencing
adds those of a loop end, and the end of the step ages the rest (40_sequencer.md R95). -/

namespace Sys2Proof.Machine

theorem mayWrite_transfer {i : Instr} (s : State) (h : transfers i = true) :
    mayWrite i s = writes i s := by
  simp [mayWrite, h]

theorem mayWrite_sequential {i : Instr} (s : State) (h : transfers i = false) :
    mayWrite i s = writes i s ++ s.loopPieces := by
  simp [mayWrite, h]

theorem changes_setMstat (s : State) (v : BitVec 7) : Changes [.mstat] s (s.setMstat v) :=
  ⟨by intro p hp; cases p <;> simp_all [Piece.same], by simp [Pending], by simp⟩

theorem changes_setIdleDiv (s : State) (v : IdleDiv) :
    Changes [.idle, .idleDiv] s (s.setIdleDiv v) :=
  ⟨by intro p hp; cases p <;> simp_all [Piece.same], by simp [Pending], by simp⟩

/-! ## The runs -/

/-- The frame of a run in sequence, from the changes of its effect. -/
theorem kept_runSeq {l : List Piece} {tr : Traits} {s t : State} {e : Except Refusal State}
    (h : runSeq tr s e = .next t) (he : ∀ s1, e = .ok s1 → Changes l s s1)
    (hk : tr.kind = .other ∨ Piece.kinds ∈ l) : KeptBut (l ++ s.loopPieces) s t :=
  frame_runSeq h (fun s1 hs1 => ⟨(he s1 hs1).same, (he s1 hs1).delay, fun _ => (he s1 hs1).loops⟩) hk

/-- The frame of a run in sequence whose effect is never refused. -/
theorem kept_runSeq_ok {l : List Piece} {tr : Traits} {s s1 t : State}
    (h : runSeq tr s (.ok s1) = .next t) (hs : Changes l s s1) (hk : tr.kind = .other) :
    KeptBut (l ++ s.loopPieces) s t :=
  kept_runSeq h (by rintro _ ⟨⟩; exact hs) (.inl hk)

/-- The frame of a transfer, or of IDLE, that is never refused. -/
theorem kept_run_ok {l : List Piece} {tr : Traits} {s s1 t : State} {f : Machine.Flow}
    (h : run tr s (.ok (s1, f)) = .next t) (hs : Changes l s s1) (hf : f ≠ .seq)
    (hi : f = .idle → Piece.idle ∈ l) (hk : tr.kind = .other) : KeptBut l s t :=
  frame_taken h (by rintro _ _ ⟨⟩; exact ⟨hs, hf, hi⟩) hk

/-- The frame of a return, which is a transfer where it is not refused. -/
theorem kept_run_return {l : List Piece} {s t : State} {tr : Traits}
    {e : Except Refusal (State × Machine.Flow)} (h : run tr s e = .next t)
    (he : ∀ s1 f, e = .ok (s1, f) → Changes l s s1 ∧ ∃ a, f = .taken a) (hk : tr.kind = .other) :
    KeptBut l s t := by
  refine frame_taken h (fun s1 f hf => ?_) hk
  obtain ⟨hs, a, rfl⟩ := he s1 f hf
  exact ⟨hs, nofun, nofun⟩

/-- The frame of an instruction that transfers control or goes on in sequence. -/
theorem kept_run_either {l : List Piece} {s t : State} {tr : Traits}
    {e : Except Refusal (State × Machine.Flow)} (h : run tr s e = .next t)
    (he : ∀ s1 f, e = .ok (s1, f) → Changes l s s1 ∧ f ≠ .idle) (hk : tr.kind = .other) :
    KeptBut (l ++ s.loopPieces) s t :=
  frame_run h (fun s1 f hf => ⟨(he s1 f hf).1, fun hi => absurd hi (he s1 f hf).2⟩) hk

theorem kept_runMode {f : ModeFields} {s t : State} (h : runMode f s = .next t) :
    KeptBut ([.mstat] ++ s.loopPieces) s t := kept_runSeq_ok h (changes_setMstat s _) rfl

theorem kept_runMove {dst src : Reg} {s t : State} (h : runMove dst src s = .next t) :
    KeptBut (writePieces dst s ++ s.loopPieces) s t :=
  kept_runSeq h (fun _ => changes_move) (.inl rfl)

theorem kept_runLoad {dst : Reg} {d : BitVec 14} {s t : State} (h : runLoad dst d s = .next t) :
    KeptBut (writePieces dst s ++ s.loopPieces) s t :=
  kept_runSeq h (fun _ => changes_writeReg) (.inl rfl)

theorem kept_runStack {pp lp cp : Bool} {spp : BitVec 2} {s t : State}
    (h : runStack pp lp cp spp s = .next t) :
    KeptBut ((if pp then [.pcstk] else []) ++ stackPieces lp cp (spp == 2) (spp == 3) ++
      s.loopPieces) s t :=
  kept_runSeq h (fun _ => changes_stackControl) (.inl rfl)

/-- A register outside the sequencer is in the parts that a move can write. -/
theorem writePieces_plain {r : Reg} (s : State) (h : r.isPlain = true) :
    writePieces r s = s.movePieces := by
  cases r <;> first | rfl | exact absurd h (by decide)

/-- Settles O12: by the run that each instruction is. -/
theorem instructionFrame : Obligations.InstructionFrame := by
  intro i s t hwf h
  cases i with
  | jump | jumpInd =>
    simp only [exec_jump, exec_jumpInd] at h
    rw [mayWrite_transfer s rfl]
    exact kept_run_ok h (.refl _ s) nofun nofun rfl
  | call a =>
    rw [exec_call] at h
    rw [mayWrite_transfer s rfl]
    exact kept_run_ok h (changes_callTo s a) nofun nofun rfl
  | callInd x =>
    rw [exec_callInd] at h
    rw [mayWrite_transfer s rfl]
    exact kept_run_ok h (changes_callTo s (s.index x)) nofun nofun rfl
  | idle | idleN =>
    simp only [exec_idle, exec_idleN] at h
    rw [mayWrite_transfer s rfl]
    exact kept_run_ok h (changes_setIdleDiv s _) nofun (fun _ => by simp [writes]) rfl
  | rts =>
    rw [exec_rts] at h
    rw [mayWrite_transfer s rfl]
    exact kept_run_return h (fun _ _ => changes_returnSub) rfl
  | rti =>
    rw [exec_rti] at h
    rw [mayWrite_transfer s rfl]
    exact kept_run_return h (fun _ _ => changes_returnInt) rfl
  | ifJump | ifJumpInd =>
    simp only [exec_ifJump, exec_ifJumpInd] at h
    rw [mayWrite_sequential s rfl]
    exact kept_run_either h (fun _ _ => changes_jumpIf) rfl
  | ifCall | ifCallInd =>
    simp only [exec_ifCall, exec_ifCallInd] at h
    rw [mayWrite_sequential s rfl]
    exact kept_run_either h (fun _ _ => changes_callIf) rfl
  | ifRts =>
    rw [exec_ifRts] at h
    rw [mayWrite_sequential s rfl]
    refine kept_run_either h (fun _ _ he => changes_whenCond he fun _ _ hb => ?_) rfl
    obtain ⟨hs, a, rfl⟩ := changes_returnSub hb
    exact ⟨hs, nofun⟩
  | ifRti =>
    rw [exec_ifRti] at h
    rw [mayWrite_sequential s rfl]
    refine kept_run_either h (fun _ _ he => changes_whenCond he fun _ _ hb => ?_) rfl
    obtain ⟨hs, a, rfl⟩ := changes_returnInt hb
    exact ⟨hs, nofun⟩
  | flagInJump | notFlagInJump =>
    simp only [exec_flagInJump, exec_notFlagInJump] at h
    rw [mayWrite_sequential s rfl]
    exact kept_run_either h (fun _ _ he => changes_flagJump (Except.ok.inj he)) rfl
  | flagInCall | notFlagInCall =>
    simp only [exec_flagInCall, exec_notFlagInCall] at h
    rw [mayWrite_sequential s rfl]
    exact kept_run_either h (fun _ _ he => changes_flagCall (Except.ok.inj he)) rfl
  | doUntil =>
    rw [exec_doUntil] at h
    rw [mayWrite_sequential s rfl]
    refine frame_runSeq h (fun s1 he => ?_) (.inl rfl)
    obtain ⟨hend, hsame, hdelay⟩ := changes_setUpLoop he
    exact ⟨hsame, hdelay, by simp [hend]⟩
  | nop =>
    rw [exec_nop] at h
    rw [mayWrite_sequential s rfl]
    exact kept_runSeq_ok h (.refl _ s) rfl
  | popPc | popLoop | popCntr | pushSts | popSts =>
    simp only [exec_popPc, exec_popLoop, exec_popCntr, exec_pushSts, exec_popSts] at h
    rw [mayWrite_sequential s rfl]
    exact kept_runStack h
  | enaInts | disInts =>
    simp only [exec_enaInts, exec_disInts] at h
    rw [mayWrite_sequential s rfl]
    exact kept_runSeq h (fun _ => changes_setGlobalInts) (.inl rfl)
  | enaTimer | disTimer | enaMMode | disMMode | enaArSat | disArSat | enaAvLatch | disAvLatch
  | enaBitRev | disBitRev | enaSecReg | disSecReg | enaGMode | disGMode =>
    rw [mayWrite_sequential s rfl]
    exact kept_runMode h
  | fromAstat | fromMstat | fromSstat | fromImask | fromIcntl | fromCntr =>
    rw [mayWrite_sequential s rfl, writes, ← writePieces_plain s hwf]
    exact kept_runMove h
  | toAstat | toMstat | toImask | toIcntl | toCntr | toIfc | toOwrcntr =>
    rw [mayWrite_sequential s rfl]
    exact kept_runMove h
  | fromToppcstack =>
    rw [exec_fromToppcstack] at h
    rw [mayWrite_sequential s rfl]
    refine kept_runSeq h (fun s1 he => ?_) (.inr (by simp [writes]))
    have hread := changes_readToppc he
    exact ⟨hread.same.mono (by simp [writes]), hread.delay, hread.loops⟩
  | toToppcstack =>
    rw [exec_toToppcstack] at h
    rw [mayWrite_sequential s rfl]
    refine kept_runSeq h (fun s1 he => ?_) (.inr (by simp [writes]))
    have hwrite := changes_writeToppc he
    exact ⟨hwrite.same.mono (by simp [writes]), hwrite.delay, hwrite.loops⟩
  | astatConst | mstatConst | imaskConst | icntlConst | cntrConst | ifcConst | owrcntrConst =>
    simp only [exec_astatConst, exec_mstatConst, exec_imaskConst, exec_icntlConst, exec_cntrConst,
      exec_ifcConst, exec_owrcntrConst] at h
    rw [mayWrite_sequential s rfl]
    exact kept_runLoad h

end Sys2Proof.Machine
end

section
/-! The frame of the words beyond the opcode table (20_memory.md R62), and what no step changes: program
memory and the configuration (20_memory.md R61). -/

namespace Sys2Proof.Machine

theorem Changes.mono {l l' : List Piece} {s t : State} (h : Changes l s t) (hl : l ⊆ l') :
    Changes l' s t := ⟨h.same.mono hl, h.delay, h.loops⟩

/-! ## The instructions outside the spec -/

/-- The parts that an instruction outside the spec may write. -/
def State.opaquePieces (s : State) : List Piece :=
  [.astat, .mstat, .imask, .holdoff, .icntl, .cntr, .cntstk, .req] ++ s.movePieces

/-- The registers outside the sequencer, ASTAT and the model's own records. -/
theorem changes_opaqueState (s : State) (v : Nat → Bus) (a : BitVec 8) (p : Option Addr) (n : Nat) :
    Changes (.astat :: s.movePieces) s
      ((((s.scramble v).setAstat a).noteStore p).setFreeTick n) := by
  obtain ⟨l, hstore⟩ := noteStore_shape ((s.scramble v).setAstat a) p
  rw [hstore]
  unfold State.scramble State.setBank
  cases hm : s.mstat.getLsbD 0 <;>
    exact ⟨by intro p hp; cases p <;> simp_all [Piece.same, State.movePieces], by simp [Pending],
      by simp⟩

/-- A write of a register of the sequencer stays inside those parts. -/
theorem writePieces_sequencer {r : Reg} {s t : State} {v : Bus} (u : State)
    (hr : r.isPlain = false) (h : s.writeReg r v = .ok t) : writePieces r s ⊆ u.opaquePieces := by
  cases r <;> first
    | exact absurd hr (by decide)
    | cases h; done
    | simp [writePieces, State.opaquePieces]

theorem changes_opaqueEffect {w : Insn} {s t : State} (h : opaqueEffect w s = .ok t) :
    Changes s.opaquePieces s t := by
  have hsub : (.astat :: s.movePieces) ⊆ s.opaquePieces := by
    intro p hp
    rcases List.mem_cons.1 hp with rfl | hmove
    · simp [State.opaquePieces]
    · simp [State.opaquePieces, hmove]
  unfold opaqueEffect at h
  dsimp only at h
  split at h
  · cases h
  · cases h
  split at h
  · cases h
    exact (changes_opaqueState s _ _ _ _).mono hsub
  split at h
  · cases h
    exact (changes_opaqueState s _ _ _ _).mono hsub
  · rename_i hplain
    have hreg := (changes_writeReg h).mono
      (writePieces_sequencer s (Bool.eq_false_of_not_eq_true hplain) h)
    exact ((changes_opaqueState s _ _ _ _).trans hreg).mono
      (List.append_subset.2 ⟨hsub, List.Subset.refl _⟩)

theorem changes_opaqueStep {w : Insn} {s t : State} (h : opaqueStep w s = .ok t) :
    Changes s.opaquePieces s t := by
  unfold opaqueStep at h
  split at h
  · cases h
  split at h
  · cases h
  split at h
  · exact changes_opaqueEffect h
  split at h
  · cases h
  · cases h
    exact .refl _ s
  · exact changes_opaqueEffect h

theorem kept_outOfScope {w : Insn} {s t : State} (h : execBeyond (.outOfScope w) s = .next t) :
    KeptBut (s.opaquePieces ++ s.loopPieces) s t :=
  kept_runSeq h (fun _ => changes_opaqueStep) (.inl rfl)

/-! ## Program memory and the configuration -/

/-- Every byte of program memory and the configuration are the same in two states. -/
def KeepsProgram (s t : State) : Prop :=
  (∀ key, Memory.readByte t.pm key = Memory.readByte s.pm key) ∧ t.cfg = s.cfg

/-- A frame that lists neither keeps them. -/
theorem KeptBut.keepsProgram {l : List Piece} {s t : State} (h : KeptBut l s t)
    (hm : .memory ∉ l) (ho : .outside ∉ l) : KeepsProgram s t := by
  obtain ⟨-, -, -, hcfg⟩ := h .outside ho
  exact ⟨h .memory hm, hcfg⟩

theorem notMem_movePieces (s : State) :
    Piece.memory ∉ s.movePieces ∧ Piece.outside ∉ s.movePieces := by
  unfold State.movePieces
  split <;> simp

theorem notMem_loopPieces (s : State) :
    Piece.memory ∉ s.loopPieces ∧ Piece.outside ∉ s.loopPieces := by
  unfold State.loopPieces
  split
  · split <;> simp
  · simp

theorem notMem_stackPieces (lp cp push pop : Bool) :
    Piece.memory ∉ stackPieces lp cp push pop ∧ Piece.outside ∉ stackPieces lp cp push pop := by
  revert lp cp push pop; decide

theorem notMem_writePieces (r : Reg) (s : State) :
    Piece.memory ∉ writePieces r s ∧ Piece.outside ∉ writePieces r s := by
  cases r with
  | astat | mstat | imask | icntl | cntr | owrcntr | ifc => simp [writePieces]
  | _ => exact notMem_movePieces s

/-- No instruction may write program memory or what is outside the processor. -/
theorem notMem_mayWrite (i : Instr) (s : State) :
    Piece.memory ∉ mayWrite i s ∧ Piece.outside ∉ mayWrite i s := by
  have hmove := notMem_movePieces s
  have hloop := notMem_loopPieces s
  have hstack := notMem_stackPieces
  have hwrites : Piece.memory ∉ writes i s ∧ Piece.outside ∉ writes i s := by
    cases i with
    | ifJump | ifJumpInd => simp only [writes]; split <;> simp
    | popPc => simp [writes, hstack]
    | popLoop | popCntr | pushSts | popSts => simp only [writes]; split <;> simp [hstack]
    | fromAstat | fromMstat | fromSstat | fromImask | fromIcntl | fromCntr => exact hmove
    | fromToppcstack => simp [writes, hmove]
    | _ => simp [writes]
  unfold mayWrite
  split <;> simp [hwrites, hloop]

theorem keepsProgram_runSequencer {l : List Piece} {s t : State} (h : KeptBut (l ++ s.loopPieces) s t)
    (hl : Piece.memory ∉ l ∧ Piece.outside ∉ l) : KeepsProgram s t := by
  have hloop := notMem_loopPieces s
  exact h.keepsProgram (by simp [hl, hloop]) (by simp [hl, hloop])

theorem keepsProgram_exec {i : Instr} {s t : State} (hwf : i.wellFormed = true)
    (h : exec i s = .next t) : KeepsProgram s t := by
  obtain ⟨hm, ho⟩ := notMem_mayWrite i s
  exact (instructionFrame i s t hwf h).keepsProgram hm ho

theorem keepsProgram_execBeyond {b : Beyond} {s t : State} (h : execBeyond b s = .next t) :
    KeepsProgram s t := by
  cases b with
  | inert => exact keepsProgram_runSequencer (l := []) (kept_runSeq_ok h (.refl _ s) rfl) (by simp)
  | plainMove => exact keepsProgram_runSequencer (kept_runMove h) (notMem_writePieces _ s)
  | plainLoad => exact keepsProgram_runSequencer (kept_runLoad h) (notMem_writePieces _ s)
  | outOfScope =>
    have hmove := notMem_movePieces s
    exact keepsProgram_runSequencer (kept_outOfScope h) (by simp [State.opaquePieces, hmove])

/-- What the decoder of a machine admits, the decoder reads. -/
theorem decode_of_decodeFor {c : Cfg} {w : Insn} {i : Instr} (h : decodeFor c w = .instr i) :
    decode w = .instr i := by
  unfold decodeFor at h
  split at h
  · rename_i hw
    split at h <;> cases h
    exact hw
  · rename_i hw
    split at h <;> cases h
    exact hw
  · exact h

theorem keepsProgram_fetchAndRun {s t : State} (h : fetchAndRun s = .next t) : KeepsProgram s t := by
  unfold fetchAndRun at h
  split at h
  · split at h <;> cases h
  · unfold execDecoded at h
    split at h
    · rename_i hdecode
      obtain ⟨hwf, -⟩ := readsBack_decode (decode_of_decodeFor hdecode)
      exact keepsProgram_exec hwf h
    · exact keepsProgram_execBeyond h
    · cases h

theorem keepsProgram_stepRunning {s t : State} (h : stepRunning s = .next t) : KeepsProgram s t := by
  unfold stepRunning at h
  split at h
  · cases h
    simp [KeepsProgram, enterInterrupt, takeInterrupt_shape]
  split at h
  · cases h
    exact ⟨fun _ => rfl, rfl⟩
  · exact keepsProgram_fetchAndRun h

/-- Settles O10: RESET keeps program memory and the configuration by its definition, and so do the inputs;
every instruction and every word beyond the table does by its frame. -/
theorem stepKeepsProgram : Obligations.StepKeepsProgram := by
  intro s t h
  unfold step at h
  split at h
  · cases h
    simp [State.restart]
  · have hstep := keepsProgram_stepRunning h
    simpa only [KeepsProgram, State.takeInputs_pm, State.takeInputs_cfg] using hstep

end Sys2Proof.Machine
end

section
/-! The invariant of the machine: what each operation inside a step needs to keep it, and every step keeps
it (10_state.md sections 1 to 9, 70_reset_and_hazards.md sections 2 and 3). -/

namespace Sys2Proof.Machine

/-! ## The updates that the invariant does not read, or reads alone -/

theorem inv_setPc {s : State} (h : s.Inv) (a : Addr) : (s.setPc a).Inv := { h with }
theorem inv_setCntr {s : State} (h : s.Inv) (c : Count) : (s.setCntr c).Inv := { h with }
theorem inv_setMstat {s : State} (h : s.Inv) (m : BitVec 7) : (s.setMstat m).Inv := { h with }
theorem inv_setAstat {s : State} (h : s.Inv) (a : BitVec 8) : (s.setAstat a).Inv := { h with }
theorem inv_setReq {s : State} (h : s.Inv) (r : SourceBits) : (s.setReq r).Inv := { h with }
theorem inv_setIdle {s : State} (h : s.Inv) (v : Bool) : (s.setIdle v).Inv := { h with }
theorem inv_setIdleDiv {s : State} (h : s.Inv) (d : IdleDiv) : (s.setIdleDiv d).Inv := { h with }
theorem inv_setKinds {s : State} (h : s.Inv) (k k' : Kind) : (s.setKinds k k').Inv := { h with }
theorem inv_setPorts {s : State} (h : s.Inv) (p : Ports) : (s.setPorts p).Inv := { h with }
theorem inv_setPins {s : State} (h : s.Inv) (p : SourceBits) : (s.setPins p).Inv := { h with }
theorem inv_setFlagIn {s : State} (h : s.Inv) (v : Bool) : (s.setFlagIn v).Inv := { h with }
theorem inv_setInputs {s : State} (h : s.Inv) (l : List (List Input)) : (s.setInputs l).Inv :=
  { h with }
theorem inv_setFreeTick {s : State} (h : s.Inv) (n : Nat) : (s.setFreeTick n).Inv := { h with }

theorem inv_setCntrValid {s : State} (h : s.Inv) (v : Bool) (hv : s.cntstk.words ≠ [] → v = true) :
    (s.setCntrValid v).Inv := { h with countValid := hv }

theorem inv_setHoldoff {s : State} (h : s.Inv) {n : Nat} (hn : n ≤ 2)
    (hmember : hasHoldoff s.cfg.proc = false → n = 0) : (s.setHoldoff n).Inv :=
  { h with holdoffSmall := hn, noHoldoff := hmember }

theorem inv_setImask {s : State} (h : s.Inv) {m : BitVec 10} (hfits : maskFits s.cfg.proc m)
    (hmasked : s.icntlKnown = false → allMasked s.cfg.proc m) : (s.setImask m).Inv :=
  { h with
    maskFits := hfits
    maskedUntilKnown := fun hk => ⟨hmasked hk, (h.maskedUntilKnown hk).2⟩ }

/-- An operation whose frame has no part in it that the invariant reads. -/
theorem Changes.inv {l : List Piece} {s t : State} (hc : Changes l s t) (h : s.Inv)
    (hl : ∀ p ∈ [Piece.pcstk, .cntstk, .lpstk, .ststk, .cntr, .icntl, .imask, .ints, .holdoff, .outside,
      .memory], p ∉ l) : t.Inv := by
  have same (p : Piece) (hp : p ∈ [Piece.pcstk, .cntstk, .lpstk, .ststk, .cntr, .icntl, .imask, .ints,
      .holdoff, .outside, .memory]) : p.same s t := hc.same p (hl p hp)
  have hpc : t.pcstk = s.pcstk := same .pcstk (by simp)
  have hcount : t.cntstk = s.cntstk := same .cntstk (by simp)
  have hloop : t.lpstk = s.lpstk := same .lpstk (by simp)
  have hstatus : t.ststk = s.ststk := same .ststk (by simp)
  obtain ⟨-, hvalid⟩ := same .cntr (by simp)
  obtain ⟨hicntl, hdelay, hold, hknown⟩ := same .icntl (by simp)
  have himask : t.imask = s.imask := same .imask (by simp)
  obtain ⟨hints, hintsDelay, hintsOld⟩ := same .ints (by simp)
  have hhold : t.imaskHoldoff = s.imaskHoldoff := same .holdoff (by simp)
  obtain ⟨-, -, -, hcfg⟩ := same .outside (by simp)
  have hpm : t.pm = s.pm := same .memory (by simp)
  constructor <;>
    simp only [hpc, hcount, hloop, hstatus, hvalid, hicntl, hdelay, hold, hknown, himask, hints,
      hintsDelay, hintsOld, hhold, hcfg, hpm]
  exacts [h.pcFits, h.countFits, h.loopFits, h.statusFits, h.pcLost, h.countLost, h.loopLost,
    h.statusLost, h.pcSurplus, h.loopSurplus, h.statusSurplus, h.countEither, h.countValid, h.loopEnds,
    h.maskFits, h.masksFit, h.maskedUntilKnown, h.holdoffSmall, h.icntlSmall, h.intsSmall,
    h.icntlSettled, h.intsSettled, h.noHoldoff, h.intsOn, h.memory]

/-! ## The stacks -/

theorem inv_pushPc {s : State} (h : s.Inv) (a : Addr) : (s.pushPc a).Inv :=
  { h with
    pcFits := push_length _ _ _ h.pcFits
    pcLost := push_lost _ _ _ h.pcLost
    pcSurplus := push_surplus _ _ _ h.pcSurplus }

/-- The words of a stack after a push were there before, or are the one pushed. -/
theorem mem_push {α : Type} {d : Nat} {st : Stack α} {v w : α} (h : w ∈ (st.push d v).words) :
    w = v ∨ w ∈ st.words := by
  by_cases hroom : st.words.length < d
  · rw [push_room d st v hroom] at h
    exact List.mem_cons.1 h
  · rw [(push_full d st v (Nat.not_lt.1 hroom)).1] at h
    exact .inr h

theorem inv_pushStatus {s : State} (h : s.Inv) : s.pushStatus.Inv :=
  { h with
    statusFits := push_length _ _ _ h.statusFits
    statusLost := push_lost _ _ _ h.statusLost
    statusSurplus := push_surplus _ _ _ h.statusSurplus
    masksFit := fun w hw => by
      rcases mem_push hw with rfl | hold
      · exact h.maskFits
      · exact h.masksFit w hold
    maskedUntilKnown := fun hk => by
      obtain ⟨hmask, hmasks⟩ := h.maskedUntilKnown hk
      refine ⟨hmask, fun w hw => ?_⟩
      rcases mem_push hw with rfl | hold
      · exact hmask
      · exact hmasks w hold }

section pops
variable {s : State} (h : s.Inv)
include h

theorem inv_dropPc {a : Addr} {as : List Addr} (hw : s.pcstk.words = a :: as) :
    (s.setPcstk { s.pcstk with words := as }).Inv :=
  { h with pcFits := by have := h.pcFits; rw [hw] at this; exact Nat.le_of_succ_le this }

theorem inv_dropLoop {w : LoopWord} {ws : List LoopWord} (hw : s.lpstk.words = w :: ws) :
    (s.setLpstk { s.lpstk with words := ws }).Inv :=
  { h with
    loopFits := by have := h.loopFits; rw [hw] at this; exact Nat.le_of_succ_le this
    loopEnds := by have := h.loopEnds; rw [hw] at this; exact (List.nodup_cons.1 this).2 }

theorem inv_dropStatus {w : StatusWord} {ws : List StatusWord} (hw : s.ststk.words = w :: ws) :
    (s.setStstk { s.ststk with words := ws }).Inv :=
  have hsub : ∀ v ∈ ws, v ∈ s.ststk.words := fun v hv => hw ▸ List.mem_cons_of_mem w hv
  { h with
    statusFits := by have := h.statusFits; rw [hw] at this; exact Nat.le_of_succ_le this
    masksFit := fun v hv => h.masksFit v (hsub v hv)
    maskedUntilKnown := fun hk =>
      ⟨(h.maskedUntilKnown hk).1, fun v hv => (h.maskedUntilKnown hk).2 v (hsub v hv)⟩ }

theorem inv_dropCount {c : Count} {cs : List Count} (hw : s.cntstk.words = c :: cs) :
    (s.setCntstk { s.cntstk with words := cs }).Inv :=
  { h with
    countFits := by have := h.countFits; rw [hw] at this; exact Nat.le_of_succ_le this
    countValid := fun _ => h.countValid (by simp [hw]) }

/-- A pop of the count stack that is owed to a lost push. -/
theorem inv_oweCount : (s.setCntstk { s.cntstk with lost := s.cntstk.lost - 1 }).Inv :=
  { h with
    countLost := fun hlost => h.countLost fun h0 => hlost (by simp [h0])
    countEither := h.countEither.imp_left fun h0 => by simp [h0] }

/-- A pop of the count stack that finds no word. -/
theorem inv_popNoneCount : (s.setCntstk s.cntstk.popNone).Inv := by
  unfold Stack.popNone
  split
  · rename_i h0
    exact { h with countEither := .inl h0 }
  · exact inv_oweCount h

/-- A status word that is stacked may be put back. -/
theorem inv_restoreStatus {w : StatusWord} (hfits : maskFits s.cfg.proc w.imask)
    (hmasked : s.icntlKnown = false → allMasked s.cfg.proc w.imask) : (s.restoreStatus w).Inv := by
  have hmask := inv_setImask (inv_setMstat (inv_setAstat h w.astat) w.mstat) hfits hmasked
  unfold State.restoreStatus
  dsimp only
  split
  · rename_i hstarts
    refine inv_setHoldoff hmask (Nat.le_refl 2) fun hno => ?_
    simp_all
  · exact hmask

end pops

theorem inv_popPc {s t : State} {a : Addr} (h : s.Inv) (hp : s.popPc = .ok (a, t)) : t.Inv := by
  obtain ⟨as, hw, rfl⟩ := popPc_ok hp
  exact inv_dropPc h hw

theorem inv_popLoop {s t : State} {w : LoopWord} (h : s.Inv) (hp : s.popLoop = .ok (w, t)) :
    t.Inv := by
  obtain ⟨ws, hw, rfl⟩ := popLoop_ok hp
  exact inv_dropLoop h hw

theorem inv_popStatus {s t : State} (h : s.Inv) (hp : s.popStatus = .ok t) : t.Inv := by
  obtain ⟨w, ws, hw, rfl⟩ := popStatus_ok hp
  have hmem : w ∈ s.ststk.words := by simp [hw]
  exact inv_restoreStatus (inv_dropStatus h hw) (h.masksFit w hmem)
    fun hk => (h.maskedUntilKnown hk).2 w hmem

theorem inv_returnFromInterrupt {s t : State} {a : Addr} (h : s.Inv)
    (hr : returnFromInterrupt s = .ok (a, t)) : t.Inv := by
  unfold returnFromInterrupt at hr
  split at hr
  · cases hr
  · rename_i hpc
    split at hr <;> cases hr
    exact inv_popStatus (inv_popPc h hpc) ‹_›

theorem inv_popCount {s : State} (h : s.Inv) : s.popCount.Inv := by
  unfold State.popCount
  split
  · rename_i c cs hw
    have htail : s.cntstk.drop = { s.cntstk with words := cs } := by simp [Stack.drop, hw]
    rw [htail]
    exact inv_setCntr (inv_dropCount h hw) c
  · rename_i hw
    exact inv_setFreeTick (inv_setCntrValid (inv_setCntr (inv_popNoneCount h) _) _
      fun hne => absurd hw (by simpa using hne)) _

theorem inv_expireCount {s : State} (h : s.Inv) : s.expireCount.Inv := by
  unfold State.expireCount
  split
  · rename_i c cs hw
    have htail : s.cntstk.drop = { s.cntstk with words := cs } := by simp [Stack.drop, hw]
    rw [htail]
    exact inv_setCntr (inv_dropCount h hw) c
  · rename_i hw
    split
    · exact inv_setCntrValid h false fun hne => absurd hw hne
    · exact inv_setFreeTick (inv_setCntr (inv_oweCount h) _) _

theorem inv_testCe {s : State} (h : s.Inv) (old : Count) : (s.testCe old).2.Inv := by
  unfold State.testCe
  dsimp only
  split
  · exact inv_expireCount (inv_setCntr h _)
  · exact inv_setCntr h _

theorem inv_loadCounter {s : State} (h : s.Inv) (v : Count) : (s.loadCounter v).Inv := by
  unfold State.loadCounter
  dsimp only
  split
  · rename_i hvalid
    have hpush : (s.setCntstk (s.cntstk.push countDepth s.cntr)).Inv :=
      { h with
        countFits := push_length _ _ _ h.countFits
        countLost := push_lost _ _ _ h.countLost
        countEither := push_either _ _ _ h.countEither
        countValid := fun _ => hvalid }
    exact inv_setCntrValid (inv_setCntr hpush v) true fun _ => rfl
  · exact inv_setCntrValid (inv_setCntr h v) true fun _ => rfl

theorem inv_setUpLoop {s t : State} {fin : Addr} {term : Term} (h : s.Inv)
    (hs : setUpLoop s fin term = .ok t) : t.Inv := by
  unfold setUpLoop at hs
  split at hs
  · cases hs
  split at hs
  · cases hs
  rename_i hnew
  cases hs
  have hends : ((s.lpstk.push loopDepth
      ⟨fin, term, (s.pushPc (inc s.pc)).pcstk.words.length⟩).words.map (·.fin)).Nodup := by
    by_cases hroom : s.lpstk.words.length < loopDepth
    · rw [push_room _ _ _ hroom]
      refine List.nodup_cons.2 ⟨fun hmem => hnew ?_, h.loopEnds⟩
      obtain ⟨w, hw, hfin⟩ := List.mem_map.1 hmem
      exact List.any_eq_true.2 ⟨w, hw, by simpa using hfin⟩
    · rw [(push_full _ _ _ (Nat.not_lt.1 hroom)).1]
      exact h.loopEnds
  exact { inv_pushPc h (inc s.pc) with
    loopFits := push_length _ _ _ h.loopFits
    loopLost := push_lost _ _ _ h.loopLost
    loopSurplus := push_surplus _ _ _ h.loopSurplus
    loopEnds := hends }

/-! ## The registers -/

theorem inv_writeImask {s t : State} {v : Bus} (h : s.Inv) (hw : s.writeImask v = .ok t) :
    t.Inv := by
  obtain ⟨hunmasks, rfl⟩ := writeImask_ok hw
  have hmask : (s.setImask (imaskOf s.cfg.proc v)).Inv := by
    refine inv_setImask h (imaskOf_lt _ v) fun hk k hk' => ?_
    have hold : s.enabled k = false := (h.maskedUntilKnown hk).1 k hk'
    have hnew := (List.any_eq_false.1 (hunmasks hk)) k hk'
    rw [getLsbD_imaskOf]
    simp_all
  refine inv_setHoldoff hmask ?_ fun hno => ?_
  · have := h.holdoffSmall
    split <;> omega
  · have hzero := h.noHoldoff hno
    simp_all

theorem inv_writeIcntl {s : State} (h : s.Inv) (v : Bus) : (s.writeIcntl v).Inv :=
  { h with icntlSmall := Nat.le_refl 2, icntlSettled := nofun }

theorem inv_writePlain {s : State} (h : s.Inv) (r : Reg) (v : Bus) : (s.writePlain r v).Inv := by
  refine (changes_writePlain s r v).inv h fun p hp => ?_
  unfold State.movePieces
  split <;> (intro hmem; fin_cases hp <;> simp at hmem)

theorem inv_writeReg {s t : State} {r : Reg} {v : Bus} (h : s.Inv) (hw : s.writeReg r v = .ok t) :
    t.Inv := by
  by_cases hp : r.isPlain = true
  · rw [writeReg_plain s r v hp] at hw
    cases hw
    exact inv_writePlain h r v
  cases r with
  | astat => cases hw; exact inv_setAstat h _
  | mstat => cases hw; exact inv_setMstat h _
  | imask => exact inv_writeImask h hw
  | icntl => cases hw; exact inv_writeIcntl h v
  | cntr =>
    simp only [State.writeReg, State.writeCntr] at hw
    split at hw <;> cases hw
    exact inv_loadCounter h _
  | owrcntr =>
    simp only [State.writeReg, State.writeOwrcntr] at hw
    split at hw <;> cases hw
    exact inv_setCntrValid (inv_setCntr h _) true fun _ => rfl
  | ifc =>
    obtain ⟨b, rfl⟩ := writeIfc_ok hw
    exact inv_setReq h b
  | sstat | toppcstack => cases hw
  | _ => exact absurd rfl hp

theorem inv_move {s t : State} {dst src : Reg} (h : s.Inv) (hm : s.move dst src = .ok t) :
    t.Inv := by
  unfold State.move at hm
  split at hm
  · cases hm
  · rename_i hread
    obtain ⟨n, rfl⟩ := readReg_ok hread
    exact inv_writeReg (inv_setFreeTick h n) hm

theorem inv_setGlobalInts {s t : State} {b : Bool} (h : s.Inv) (hs : setGlobalInts b s = .ok t) :
    t.Inv := by
  unfold setGlobalInts at hs
  split at hs
  · rename_i hmember
    have hon : hasGlobalInts s.cfg.proc = false → b = true := fun hno => by simp_all
    split at hs <;> cases hs
    · exact { h with intsSmall := Nat.le_refl 2, intsSettled := nofun, intsOn := hon }
    · exact { h with intsSmall := Nat.zero_le 2, intsSettled := fun _ => rfl, intsOn := hon }
  · cases hs

theorem inv_readToppc {s t : State} {r : Reg} (h : s.Inv) (hr : readToppc r s = .ok t) : t.Inv := by
  unfold readToppc at hr
  split at hr
  · cases hr
  split at hr
  · cases hr
  split at hr <;> cases hr
  exact inv_writePlain (inv_popPc h ‹_›) _ _

theorem inv_writeToppc {s t : State} {r : Reg} (h : s.Inv) (hw : writeToppc r s = .ok t) :
    t.Inv := by
  unfold writeToppc at hw
  split at hw <;> cases hw
  exact inv_pushPc h _

theorem inv_stackControl {pp lp cp : Bool} {spp : BitVec 2} {s t : State} (h : s.Inv)
    (hs : stackControl pp lp cp spp s = .ok t) : t.Inv := by
  have hpc : ∀ s1, popPcPart pp s = .ok s1 → s1.Inv := by
    intro s1 hpart
    unfold popPcPart at hpart
    split at hpart
    · split at hpart <;> cases hpart
      exact inv_popPc h ‹_›
    · cases hpart
      exact h
  have hloop : ∀ s1 s2 : State, s1.Inv → popLoopPart lp s1 = .ok s2 → s2.Inv := by
    intro s1 s2 h1 hpart
    unfold popLoopPart at hpart
    split at hpart
    · split at hpart
      · cases hpart
      split at hpart <;> cases hpart
      exact inv_popLoop h1 ‹_›
    · cases hpart
      exact h1
  have hcount : ∀ s2 : State, s2.Inv → (popCntrPart cp s2).Inv := by
    intro s2 h2
    unfold popCntrPart
    split
    · exact inv_popCount h2
    · exact h2
  unfold stackControl at hs
  split at hs
  · cases hs
  split at hs
  · cases hs
  have hthree := hcount _ (hloop _ _ (hpc _ ‹_›) ‹_›)
  unfold statusPart at hs
  split at hs
  · cases hs
    exact inv_pushStatus hthree
  split at hs
  · exact inv_popStatus hthree hs
  · cases hs
    exact hthree

theorem inv_opaqueStep {w : Insn} {s t : State} (h : s.Inv) (hs : opaqueStep w s = .ok t) :
    t.Inv := by
  have hstate (v : Nat → Bus) (a : BitVec 8) (p : Option Addr) (n : Nat) :
      ((((s.scramble v).setAstat a).noteStore p).setFreeTick n).Inv := by
    refine (changes_opaqueState s v a p n).inv h fun q hq => ?_
    unfold State.movePieces
    split <;> (intro hmem; fin_cases hq <;> simp at hmem)
  have heffect (he : opaqueEffect w s = .ok t) : t.Inv := by
    unfold opaqueEffect at he
    dsimp only at he
    split at he
    · cases he
    · cases he
    split at he
    · cases he
      exact hstate _ _ _ _
    split at he
    · cases he
      exact hstate _ _ _ _
    · exact inv_writeReg (hstate _ _ _ _) he
  unfold opaqueStep at hs
  split at hs
  · cases hs
  split at hs
  · cases hs
  split at hs
  · exact heffect hs
  split at hs
  · cases hs
  · cases hs
    exact h
  · exact heffect hs

end Sys2Proof.Machine
end

section
/-! Every instruction is one effect of a short list, the sequencing and the end of the step
(40_sequencer.md R95); with that list the invariant is kept by every step. -/

namespace Sys2Proof.Machine

/-- The effects that an instruction, or a word beyond the opcode table, has by itself. -/
inductive Effect (s : State) : State → Prop where
  | nothing : Effect s s
  | counterTest : Effect s (s.testCe s.cntr).2
  | call : Effect s (s.pushPc (inc s.pc))
  | returnSub {a : Addr} {t : State} : s.popPc = .ok (a, t) → Effect s t
  | returnInt {a : Addr} {t : State} : returnFromInterrupt s = .ok (a, t) → Effect s t
  | loop {fin : Addr} {term : Term} {t : State} : setUpLoop s fin term = .ok t → Effect s t
  | idle (d : IdleDiv) : Effect s (s.setIdleDiv d)
  | stack {pp lp cp : Bool} {spp : BitVec 2} {t : State} :
      stackControl pp lp cp spp s = .ok t → Effect s t
  | ints {v : Bool} {t : State} : setGlobalInts v s = .ok t → Effect s t
  | mode (m : BitVec 7) : Effect s (s.setMstat m)
  | move {dst src : Reg} {t : State} : s.move dst src = .ok t → Effect s t
  | load {dst : Reg} {v : Bus} {t : State} : s.writeReg dst v = .ok t → Effect s t
  | readToppc {dst : Reg} {t : State} : readToppc dst s = .ok t → Effect s t
  | writeToppc {src : Reg} {t : State} : writeToppc src s = .ok t → Effect s t
  | outOfScope {w : Insn} {t : State} : opaqueStep w s = .ok t → Effect s t

/-- One of the effects, a flow, and the end of the step. -/
def Ran (s t : State) : Prop :=
  ∃ s1 f v k, Effect s s1 ∧ sequence s s1 f = .ok v ∧ t = endOfStep k v

theorem ran_run {tr : Traits} {s t : State} {e : Except Refusal (State × Machine.Flow)}
    (h : run tr s e = .next t) (he : ∀ s1 f, e = .ok (s1, f) → Effect s s1) : Ran s t := by
  obtain ⟨-, s1, f, v, heff, hseq, rfl⟩ := run_next h
  exact ⟨s1, f, v, tr.kind, he s1 f heff, hseq, rfl⟩

theorem ran_run_ok {tr : Traits} {s s1 t : State} {f : Machine.Flow}
    (h : run tr s (.ok (s1, f)) = .next t) (hs : Effect s s1) : Ran s t :=
  ran_run h (by rintro _ _ ⟨⟩; exact hs)

theorem ran_runSeq {tr : Traits} {s t : State} {e : Except Refusal State}
    (h : runSeq tr s e = .next t) (he : ∀ s1, e = .ok s1 → Effect s s1) : Ran s t := by
  refine ran_run h fun s1 f hs1 => ?_
  split at hs1 <;> cases hs1
  exact he s1 rfl

theorem ran_runSeq_ok {tr : Traits} {s s1 t : State} (h : runSeq tr s (.ok s1) = .next t)
    (hs : Effect s s1) : Ran s t :=
  ran_runSeq h (by rintro _ ⟨⟩; exact hs)

theorem effect_jumpIf {s s1 : State} {c : Cond} {a : Addr} {f : Machine.Flow}
    (h : jumpIf s c a = .ok (s1, f)) : Effect s s1 := by
  have htest : Effect s (s.testCe s.cntr).2 := .counterTest
  unfold jumpIf at h
  split at h
  · split at h
    · cases h
    split at h
    · rename_i heq
      cases h
      rwa [heq] at htest
    · rename_i heq
      split at h <;> cases h
      rwa [heq] at htest
  · split at h <;> cases h <;> exact .nothing

theorem effect_callIf {s s1 : State} {c : Cond} {a : Addr} {f : Machine.Flow}
    (h : callIf s c a = .ok (s1, f)) : Effect s s1 := by
  unfold callIf at h
  split at h
  · cases h
  split at h <;> cases h
  · exact .call
  · exact .nothing

theorem effect_flagJump {s s1 : State} {b : Bool} {a : Addr} {f : Machine.Flow}
    (h : flagJump s b a = (s1, f)) : Effect s s1 := by
  cases b <;> cases h <;> exact .nothing

theorem effect_flagCall {s s1 : State} {b : Bool} {a : Addr} {f : Machine.Flow}
    (h : flagCall s b a = (s1, f)) : Effect s s1 := by
  cases b <;> cases h
  · exact .nothing
  · exact .call

theorem effect_returnSub {s s1 : State} {f : Machine.Flow} (h : returnSub s = .ok (s1, f)) :
    Effect s s1 := by
  unfold returnSub at h
  split at h <;> cases h
  exact .returnSub ‹_›

theorem effect_returnInt {s s1 : State} {f : Machine.Flow} (h : returnInt s = .ok (s1, f)) :
    Effect s s1 := by
  unfold returnInt at h
  split at h <;> cases h
  exact .returnInt ‹_›

theorem effect_whenCond {s s1 : State} {c : Cond} {f : Machine.Flow}
    {body : Except Refusal (State × Machine.Flow)} (h : whenCond s c body = .ok (s1, f))
    (hbody : body = .ok (s1, f) → Effect s s1) : Effect s s1 := by
  unfold whenCond at h
  split at h
  · cases h
  · exact hbody h
  · cases h
    exact .nothing

/-- Every instruction has one of the effects. -/
theorem ran_exec {i : Instr} {s t : State} (h : exec i s = .next t) : Ran s t := by
  cases i with
  | jump | jumpInd =>
    simp only [exec_jump, exec_jumpInd] at h
    exact ran_run_ok h .nothing
  | ifJump | ifJumpInd =>
    simp only [exec_ifJump, exec_ifJumpInd] at h
    exact ran_run h fun _ _ => effect_jumpIf
  | call | callInd =>
    simp only [exec_call, exec_callInd] at h
    exact ran_run_ok h .call
  | ifCall | ifCallInd =>
    simp only [exec_ifCall, exec_ifCallInd] at h
    exact ran_run h fun _ _ => effect_callIf
  | rts =>
    rw [exec_rts] at h
    exact ran_run h fun _ _ => effect_returnSub
  | ifRts =>
    rw [exec_ifRts] at h
    exact ran_run h fun _ _ he => effect_whenCond he effect_returnSub
  | rti =>
    rw [exec_rti] at h
    exact ran_run h fun _ _ => effect_returnInt
  | ifRti =>
    rw [exec_ifRti] at h
    exact ran_run h fun _ _ he => effect_whenCond he effect_returnInt
  | flagInJump | notFlagInJump =>
    simp only [exec_flagInJump, exec_notFlagInJump] at h
    exact ran_run h fun _ _ he => effect_flagJump (Except.ok.inj he)
  | flagInCall | notFlagInCall =>
    simp only [exec_flagInCall, exec_notFlagInCall] at h
    exact ran_run h fun _ _ he => effect_flagCall (Except.ok.inj he)
  | doUntil =>
    rw [exec_doUntil] at h
    exact ran_runSeq h fun _ => .loop
  | nop =>
    rw [exec_nop] at h
    exact ran_runSeq_ok h .nothing
  | idle | idleN =>
    simp only [exec_idle, exec_idleN] at h
    exact ran_run_ok h (.idle _)
  | popPc | popLoop | popCntr | pushSts | popSts =>
    simp only [exec_popPc, exec_popLoop, exec_popCntr, exec_pushSts, exec_popSts, runStack] at h
    exact ran_runSeq h fun _ => .stack
  | enaInts | disInts =>
    simp only [exec_enaInts, exec_disInts] at h
    exact ran_runSeq h fun _ => .ints
  | enaTimer | disTimer | enaMMode | disMMode | enaArSat | disArSat | enaAvLatch | disAvLatch
  | enaBitRev | disBitRev | enaSecReg | disSecReg | enaGMode | disGMode =>
    exact ran_runSeq_ok h (.mode _)
  | fromAstat | fromMstat | fromSstat | fromImask | fromIcntl | fromCntr | toAstat | toMstat
  | toImask | toIcntl | toCntr | toIfc | toOwrcntr =>
    exact ran_runSeq h fun _ => .move
  | fromToppcstack =>
    rw [exec_fromToppcstack] at h
    exact ran_runSeq h fun _ => .readToppc
  | toToppcstack =>
    rw [exec_toToppcstack] at h
    exact ran_runSeq h fun _ => .writeToppc
  | astatConst | mstatConst | imaskConst | icntlConst | cntrConst | ifcConst | owrcntrConst =>
    simp only [exec_astatConst, exec_mstatConst, exec_imaskConst, exec_icntlConst, exec_cntrConst,
      exec_ifcConst, exec_owrcntrConst, runLoad] at h
    exact ran_runSeq h fun _ => .load

theorem ran_execBeyond {b : Beyond} {s t : State} (h : execBeyond b s = .next t) : Ran s t := by
  cases b with
  | inert => exact ran_runSeq_ok h .nothing
  | plainMove => exact ran_runSeq h fun _ => .move
  | plainLoad => exact ran_runSeq h fun _ => .load
  | outOfScope => exact ran_runSeq h fun _ => .outOfScope

theorem ran_fetchAndRun {s t : State} (h : fetchAndRun s = .next t) : Ran s t := by
  unfold fetchAndRun at h
  split at h
  · split at h <;> cases h
  · unfold execDecoded at h
    split at h
    · exact ran_exec h
    · exact ran_execBeyond h
    · cases h

/-! ## The invariant along a step -/

theorem inv_effect {s t : State} (h : s.Inv) (he : Effect s t) : t.Inv := by
  cases he with
  | nothing => exact h
  | counterTest => exact inv_testCe h _
  | call => exact inv_pushPc h _
  | returnSub hp => exact inv_popPc h hp
  | returnInt hr => exact inv_returnFromInterrupt h hr
  | loop hs => exact inv_setUpLoop h hs
  | idle d => exact inv_setIdleDiv h d
  | stack hs => exact inv_stackControl h hs
  | ints hs => exact inv_setGlobalInts h hs
  | mode m => exact inv_setMstat h m
  | move hm => exact inv_move h hm
  | load hw => exact inv_writeReg h hw
  | readToppc hr => exact inv_readToppc h hr
  | writeToppc hw => exact inv_writeToppc h hw
  | outOfScope hs => exact inv_opaqueStep h hs

/-- Leaving a loop pops both stacks (42_do_until.md R143). -/
theorem inv_leaveLoop {s : State} {w : LoopWord} {ws : List LoopWord} {a : Addr} {as : List Addr}
    (h : s.Inv) (hw : s.lpstk.words = w :: ws) (ha : s.pcstk.words = a :: as) (b : Addr) :
    (((s.setLpstk { s.lpstk with words := ws }).setPcstk { s.pcstk with words := as }).setPc b).Inv :=
  inv_setPc (inv_dropPc (inv_dropLoop h hw) ha) b

theorem inv_seqNext {s0 s1 t : State} (h : s1.Inv) (hseq : SeqNext s0 s1 t) : t.Inv := by
  cases hseq with
  | on | back => exact inv_setPc h _
  | leave w ws a as _ hw ha => exact inv_leaveLoop h hw ha _
  | countOn => exact inv_setPc (inv_setCntr h _) _
  | countOut w ws a as c cs _ hw ha _ _ hc =>
    exact inv_leaveLoop (inv_setCntr (inv_dropCount h hc) c) hw ha _
  | countDone w ws a as _ hw ha _ _ hc =>
    have hdone : ((s1.setCntr (s1.cntr - 1)).setCntrValid false).Inv :=
      inv_setCntrValid (inv_setCntr h _) false fun hne => absurd hc hne
    exact inv_leaveLoop hdone hw ha _
  | countLost w ws a as c n _ hw ha =>
    exact inv_leaveLoop (inv_setFreeTick (inv_setCntr (inv_oweCount h) c) n) hw ha _

theorem inv_sequence {s0 s1 t : State} {f : Machine.Flow} (h : s1.Inv)
    (hseq : sequence s0 s1 f = .ok t) : t.Inv := by
  cases f with
  | seq => exact inv_seqNext h (seqNext_of_sequence hseq)
  | taken a => cases hseq; exact inv_setPc h a
  | idle => cases hseq; exact inv_setIdle (inv_setPc h _) true

theorem inv_endOfStep {s : State} (h : s.Inv) (k : Kind) : (endOfStep k s).Inv := by
  obtain ⟨r, f, hend, -⟩ := endOfStep_shape k s
  rw [hend]
  refine inv_setFreeTick (inv_setReq (inv_setKinds ?_ _ _) _) _
  have hhold : (s.setHoldoff (s.imaskHoldoff - 1)).Inv :=
    inv_setHoldoff h (by have := h.holdoffSmall; omega) fun hno => by simp [h.noHoldoff hno]
  have hicntl := h.icntlSettled
  have hints := h.intsSettled
  exact { hhold with
    maskedUntilKnown := fun hk => h.maskedUntilKnown (by
      by_cases hd : s.icntlDelay = 1 <;> simp_all)
    icntlSmall := by have := h.icntlSmall; simp; omega
    intsSmall := by have := h.intsSmall; simp; omega
    icntlSettled := fun hd => by
      simp only [State.setInts_icntlDelay, State.setIcntlKnown_icntlDelay,
        State.setIcntl_icntlDelay] at hd
      by_cases h1 : s.icntlDelay = 1
      · simp [h1]
      · simpa [h1] using hicntl (by omega)
    intsSettled := fun hd => by
      simp only [State.setInts_intsDelay] at hd
      by_cases h1 : s.intsDelay = 1
      · simp [h1]
      · simpa [h1] using hints (by omega) }

theorem inv_takeInterrupt {s : State} (h : s.Inv) (k : Source) : (takeInterrupt k s).Inv := by
  have hpushed : ((s.pushPc s.pc).pushStatus).Inv := inv_pushStatus (inv_pushPc h _)
  rw [takeInterrupt_shape]
  refine inv_setPc (inv_setReq (inv_setImask hpushed ?_ fun hk j hj => ?_) _) _
  · exact lt_of_le_of_lt (imaskAfter_le _ _ _) h.maskFits
  · have hmasked : s.imask.getLsbD (level s.cfg.proc j) = false := (h.maskedUntilKnown hk).1 j hj
    unfold imaskAfter
    split
    · rw [BitVec.getLsbD_and]
      exact Bool.and_eq_false_imp.2 fun hbit => absurd (hbit.symm.trans hmasked) (by decide)
    · exact BitVec.getLsbD_zero

theorem inv_stepRunning {s t : State} (h : s.Inv) (hs : stepRunning s = .next t) : t.Inv := by
  unfold stepRunning at hs
  split at hs
  · cases hs
    exact inv_endOfStep (inv_takeInterrupt (inv_setIdle h false) _) _
  split at hs
  · cases hs
    exact h
  · obtain ⟨s1, f, v, k, heffect, hseq, rfl⟩ := ran_fetchAndRun hs
    exact inv_endOfStep (inv_sequence (inv_effect h heffect) hseq) k

theorem inv_takeInputs {s : State} (h : s.Inv) : s.takeInputs.Inv := by
  obtain ⟨l, r, p, f, d, heq⟩ := takeInputs_shape s
  rw [heq]
  exact inv_setPorts (inv_setFlagIn (inv_setPins (inv_setReq (inv_setInputs h l) r) p) f) d

/-- Settles O8. -/
theorem resetInvariant : Obligations.ResetInvariant where
  pcFits := Nat.zero_le _
  countFits := Nat.zero_le _
  loopFits := Nat.zero_le _
  statusFits := Nat.zero_le _
  pcLost := absurd rfl
  countLost := absurd rfl
  loopLost := absurd rfl
  statusLost := absurd rfl
  pcSurplus := rfl
  loopSurplus := rfl
  statusSurplus := rfl
  countEither := .inl rfl
  countValid := absurd rfl
  loopEnds := .nil
  maskFits := Nat.two_pow_pos _
  masksFit := nofun
  maskedUntilKnown := fun _ => ⟨fun _ _ => BitVec.getLsbD_zero, nofun⟩
  holdoffSmall := Nat.zero_le _
  icntlSmall := Nat.zero_le _
  intsSmall := Nat.zero_le _
  icntlSettled := fun _ => rfl
  intsSettled := fun _ => rfl
  noHoldoff := fun _ => rfl
  intsOn := fun _ => rfl
  memory := wf_reset_pm

/-- A reset keeps program memory in its canonical form, and the member's configuration is no obstacle to
the values after reset. -/
theorem inv_restart {s : State} (h : s.Inv) : s.restart.Inv :=
  { resetInvariant with
    statusFits := Nat.zero_le _
    maskFits := Nat.two_pow_pos _
    masksFit := nofun
    maskedUntilKnown := fun _ => ⟨fun _ _ => BitVec.getLsbD_zero, nofun⟩
    noHoldoff := fun _ => rfl
    intsOn := fun _ => rfl
    memory := h.memory }

/-- Settles O9: a step is a reset, an interrupt entry, a wait in idle, or an instruction, which is an effect,
the sequencing and the end of the step; each keeps the invariant. -/
theorem stepKeepsInvariant : Obligations.StepKeepsInvariant := by
  intro s t h hs
  unfold step at hs
  split at hs
  · cases hs
    exact inv_restart (inv_takeInputs h)
  · exact inv_stepRunning (inv_takeInputs h) hs

end Sys2Proof.Machine
end

section
/-! Stacks, SSTAT, the conditions and the decrementing test of CE (10_state.md sections 2 and 5,
45_conditions.md), and the end of a step. -/

namespace Sys2Proof.Machine

/-! ## Stacks -/

/-- Settles O21: by whether the stack has room; the balance is that of `push_balance` and `pop_balance`. -/
theorem pushRule : Obligations.PushRule := by
  intro α d st v
  obtain ⟨hdrop, hnone⟩ := pop_balance st
  refine ⟨fun hroom => ?room, push_full d st v, push_balance d st v, hdrop, hnone⟩
  case room => rw [push_room d st v hroom]; exact ⟨rfl, rfl, rfl⟩

/-- A stack counts as empty where its pops have reached its pushes (10_state.md R15). -/
theorem isEmpty_iff_balance {α : Type} (st : Stack α) : st.isEmpty = true ↔ st.balance ≤ 0 := by
  simp only [Stack.isEmpty, Stack.balance, decide_eq_true_eq]
  omega

/-- Settles O22: SSTAT is the eight bits side by side. -/
theorem sstatShowsStacks : Obligations.SstatShowsStacks := by
  intro s
  have hbits : ∀ b7 b6 b5 b4 b3 b2 b1 b0 : Bool,
      let v := BitVec.ofBool b7 ++ BitVec.ofBool b6 ++ BitVec.ofBool b5 ++ BitVec.ofBool b4 ++
        BitVec.ofBool b3 ++ BitVec.ofBool b2 ++ BitVec.ofBool b1 ++ BitVec.ofBool b0
      v.getLsbD 0 = b0 ∧ v.getLsbD 1 = b1 ∧ v.getLsbD 2 = b2 ∧ v.getLsbD 3 = b3 ∧
        v.getLsbD 4 = b4 ∧ v.getLsbD 5 = b5 ∧ v.getLsbD 6 = b6 ∧ v.getLsbD 7 = b7 := by
    decide
  obtain ⟨h0, h1, h2, h3, h4, h5, h6, h7⟩ := hbits s.lpstk.ovf s.lpstk.isEmpty s.ststk.ovf
    s.ststk.isEmpty s.cntstk.ovf s.cntstk.isEmpty s.pcstk.ovf s.pcstk.isEmpty
  exact ⟨h0, h1, h2, h3, h4, h5, h6, h7, isEmpty_iff_balance _, isEmpty_iff_balance _,
    isEmpty_iff_balance _, isEmpty_iff_balance _⟩

/-! ## Conditions -/

theorem expired_iff (n : Count) : expired n = true ↔ n = 1 := by simp [expired]

/-- Settles O23: each condition is its bits of ASTAT, or the counter. -/
theorem ifConditions : Obligations.IfConditions := by
  intro a n
  simp [condHolds, azBit, anBit, avBit, acBit, asBit, mvBit, expired]

/-- Settles O24: each condition is its bits of ASTAT, or the counter. -/
theorem untilConditions : Obligations.UntilConditions := by
  intro a n
  simp [termHolds, azBit, anBit, avBit, acBit, asBit, mvBit, expired]

/-! ## The decrementing test -/

section testCe
variable {s : State}

theorem testCe_ne (h : s.cntr ≠ 1) : s.testCe s.cntr = (false, s.setCntr (s.cntr - 1)) := by
  have hx : expired s.cntr = false := Bool.eq_false_of_not_eq_true (mt (expired_iff _).1 h)
  simp [State.testCe, hx]

theorem testCe_one (h : s.cntr = 1) : s.testCe s.cntr = (true, (s.setCntr 0).expireCount) := by
  have hx : expired s.cntr = true := (expired_iff _).2 h
  have hzero : s.cntr - 1 = 0 := by rw [h]; exact BitVec.sub_self _
  unfold State.testCe
  rw [hx, hzero, if_pos rfl]

theorem testCe_one_cons {c : Count} {cs : List Count} (h : s.cntr = 1)
    (hw : s.cntstk.words = c :: cs) :
    s.testCe s.cntr = (true, (s.setCntstk { s.cntstk with words := cs }).setCntr c) := by
  rw [testCe_one h]
  unfold State.expireCount
  simp only [State.setCntr_cntstk, hw, Stack.drop, List.tail_cons]
  rfl

theorem testCe_one_nil (h : s.cntr = 1) (hw : s.cntstk.words = []) (hlost : s.cntstk.lost = 0) :
    s.testCe s.cntr = (true, (s.setCntr 0).setCntrValid false) := by
  rw [testCe_one h]
  unfold State.expireCount
  simp only [State.setCntr_cntstk, hw, hlost, if_true]

theorem testCe_fst (s : State) : (s.testCe s.cntr).1 = expired s.cntr := by
  unfold State.testCe
  cases expired s.cntr <;> rfl

end testCe

/-- Settles O25: by whether the counter is 1, and whether a count is stacked. -/
theorem counterTest : Obligations.CounterTest := by
  intro s
  refine ⟨?_, fun h => ?_, fun c cs h hw => ?_, fun h hw hlost => ?_⟩
  · rw [testCe_fst, expired_iff]
  · rw [testCe_ne h]
  · rw [testCe_one_cons h hw]
  · rw [testCe_one_nil h hw hlost]

/-- The number of tests at which a count is found expired (45_conditions.md R203): 0 stands for 2^14. -/
def testsOf (c : Count) : Nat := if c = 0 then 2 ^ 14 else c.toNat

theorem sub_eq_one_iff (c : Count) (k : Nat) (hk : k < testsOf c) :
    c - BitVec.ofNat 14 k = 1 ↔ k + 1 = testsOf c := by
  unfold testsOf at *
  have hlt := c.isLt
  have hone : (1 : Count).toNat = 1 := rfl
  rw [← BitVec.toNat_inj, BitVec.toNat_sub, BitVec.toNat_ofNat, hone]
  split at hk
  · rename_i h0
    subst h0
    have hzero : (0 : Count).toNat = 0 := rfl
    simp only [hzero, if_true]
    omega
  · rename_i h0
    simp only [h0, if_false]
    omega

/-- The state after some decrementing tests. -/
def State.afterTests (s : State) (k : Nat) : State :=
  (fun u : State => (u.testCe u.cntr).2)^[k] s

theorem afterTests_cntr (s : State) (k : Nat) (hk : k < testsOf s.cntr) :
    (s.afterTests k).cntr = s.cntr - BitVec.ofNat 14 k := by
  induction k with
  | zero => simp [State.afterTests]
  | succ k ih =>
    have hbefore := ih (Nat.lt_of_succ_lt hk)
    have hne : (s.afterTests k).cntr ≠ 1 := by
      rw [hbefore, Ne, sub_eq_one_iff s.cntr k (Nat.lt_of_succ_lt hk)]
      exact Nat.ne_of_lt hk
    have hstep : s.afterTests (k + 1) = ((s.afterTests k).testCe (s.afterTests k).cntr).2 :=
      Function.iterate_succ_apply' _ k s
    rw [hstep, testCe_ne hne, State.setCntr_cntr, hbefore, BitVec.ofNat_add]
    exact BitVec.sub_sub _ _ _

/-- Settles O26: by induction over the number of tests, each of which but the last decrements. -/
theorem countLastsItsValue : Obligations.CountLastsItsValue := by
  intro s k hk
  have hcount : (s.afterTests k).cntr = s.cntr - BitVec.ofNat 14 k := afterTests_cntr s k hk
  refine ⟨hcount, ?_⟩
  rw [testCe_fst, expired_iff]
  exact (Eq.congr_left hcount).trans (sub_eq_one_iff s.cntr k hk)

/-! ## The end of a step, and IMASK after an entry -/

/-- Settles O27. -/
theorem endOfStepRule : Obligations.EndOfStepRule := fun k s =>
  ⟨endOfStep_imaskHoldoff k s, endOfStep_icntlDelay k s, endOfStep_icntlOld k s,
    endOfStep_prev2Kind k s, endOfStep_prevKind k s⟩

/-- Settles O16: with nesting on, the mask has ones up to the level serviced. -/
theorem imaskAfterEntry : Obligations.ImaskAfterEntry := by
  intro nesting lvl m q hlvl
  cases nesting with
  | false => simp [imaskAfter]
  | true =>
    by_cases hq : q < 10
    · simp only [imaskAfter, if_true, BitVec.getLsbD_and, BitVec.getLsbD_not, BitVec.getLsbD_ofNat,
        Nat.testBit_two_pow_sub_one, hq, decide_true, Bool.true_and]
      have hle : (!decide (q < lvl + 1)) = decide (lvl < q) := by grind
      rw [hle, Bool.and_comm]
    · have hbit : m.getLsbD q = false := BitVec.getLsbD_of_ge m q (Nat.not_lt.1 hq)
      simp [imaskAfter, hbit]

end Sys2Proof.Machine
end

section
/-! Jumps, calls, the return from an interrupt, IDLE, DO UNTIL and the loop end (41_jump_call_return.md,
42_do_until.md, 43_idle_nop.md): what each executes, case by case, and what its run then answers. -/

namespace Sys2Proof.Machine

/-! ## Jumps -/

/-- Settles O31. -/
theorem jumpResult : Obligations.JumpResult := by
  intro s hu hs
  exact ⟨fun a => run_taken (hazard_jumpTraits hu hs), fun x => run_taken (hazard_jumpTraits hu hs)⟩

theorem jumpIf_holds {s : State} {c : Cond} (hc : c ≠ .notCe)
    (h : condHolds s.astat s.cntr c = true) (a : Addr) : jumpIf s c a = .ok (s, .taken a) := by
  simp [jumpIf, hc, h]

theorem jumpIf_fails {s : State} {c : Cond} (hc : c ≠ .notCe)
    (h : condHolds s.astat s.cntr c = false) (a : Addr) : jumpIf s c a = .ok (s, .seq) := by
  simp [jumpIf, hc, h]

/-- Settles O32: by whether the condition holds. -/
theorem conditionalJumpResult : Obligations.ConditionalJumpResult := by
  intro s c hc hu hs
  have hh := hazard_jumpTraits hu hs
  simp only [exec_ifJump, exec_ifJumpInd]
  refine ⟨fun h => ?holds, fun h hseq => ?fails⟩
  case holds =>
    simp only [jumpIf_holds hc h]
    exact ⟨fun a => run_taken hh, fun x => run_taken hh⟩
  case fails =>
    simp only [jumpIf_fails hc h]
    exact ⟨fun a => run_seq hu hh rfl hseq, fun x => run_seq hu hh rfl hseq⟩

/-! ## IF NOT CE JUMP -/

section notCe
variable {s : State}

theorem counterRefused_unguarded (hu : s.unguarded) : s.counterRefused = false := by
  obtain ⟨hguard, -, -⟩ := hu
  simp [State.counterRefused, hguard]

theorem jumpIf_notCe_taken (hu : s.unguarded) (h : s.cntr ≠ 1) (a : Addr) :
    jumpIf s .notCe a = .ok (s.setCntr (s.cntr - 1), .taken a) := by
  simp [jumpIf, counterRefused_unguarded hu, testCe_ne h]

/-- A true CE takes the count stack and goes on in sequence, but in the last instruction of a CE loop it is
refused (U18). -/
theorem jumpIf_notCe_untaken {t : State} (hu : s.unguarded) (h : s.testCe s.cntr = (true, t))
    (a : Addr) : jumpIf s .notCe a =
      if s.atCeLoopEnd then .error .notCeJumpAtLoopEnd else .ok (t, .seq) := by
  simp [jumpIf, counterRefused_unguarded hu, h]

theorem jumpIf_notCe_refused (h : s.counterRefused = true) (a : Addr) :
    jumpIf s .notCe a = .error .invalidCounter := by
  simp [jumpIf, h]

theorem whenCond_notCe_refused (h : s.counterRefused = true)
    (body : Except Refusal (State × Machine.Flow)) :
    whenCond s .notCe body = .error .invalidCounter := by
  simp [whenCond, State.condition, h]

end notCe

/-- Right after instructions that are no TOPPCSTACK moves there is no hazard, whatever the guards. -/
theorem hazard_none_other {s : State} (h : s.prevKind = .other) (h2 : s.prev2Kind = .other)
    (tr : Traits) : hazard tr s = none := by
  simp [hazard, h, h2]

/-- Settles O33: by whether the counter is 1, and then by what the count stack holds; with the guard on, by
the refusal of the test. -/
theorem notCeJumpResult : Obligations.NotCeJumpResult := by
  refine ⟨fun s hu hs => ?unguarded, fun s hguard hvalid hk hk2 => ?guarded⟩
  case unguarded =>
    have hh := hazard_jumpTraits hu hs
    simp only [exec_ifJump, exec_ifJumpInd]
    refine ⟨fun h => ?taken, fun h hend => ?refused, fun c cs h hend hseq hw => ?popped,
      fun h hend hseq hw hlost => ?done⟩
    case taken =>
      simp only [jumpIf_notCe_taken hu h]
      exact ⟨fun a => run_taken hh, fun x => run_taken hh⟩
    case refused =>
      simp only [jumpIf_notCe_untaken hu (testCe_one h), hend, if_true]
      exact ⟨fun a => run_refused hh, fun x => run_refused hh⟩
    case popped =>
      simp only [jumpIf_notCe_untaken hu (testCe_one_cons h hw), hend, Bool.false_eq_true, if_false]
      exact ⟨fun a => run_seq hu hh rfl hseq, fun x => run_seq hu hh rfl hseq⟩
    case done =>
      simp only [jumpIf_notCe_untaken hu (testCe_one_nil h hw hlost), hend, Bool.false_eq_true,
        if_false]
      exact ⟨fun a => run_seq hu hh rfl hseq, fun x => run_seq hu hh rfl hseq⟩
  case guarded =>
    have hrefused : s.counterRefused = true := by simp [State.counterRefused, hguard, hvalid]
    have hh := hazard_none_other hk hk2
    simp only [exec_ifJump, exec_ifJumpInd, exec_ifRts, exec_ifRti, jumpIf_notCe_refused hrefused,
      whenCond_notCe_refused hrefused]
    exact ⟨fun a => run_refused (hh _), fun x => run_refused (hh _), run_refused (hh _),
      run_refused (hh _)⟩

/-! ## Calls -/

/-- Settles O34. -/
theorem callResult : Obligations.CallResult := by
  intro s hu hp
  exact ⟨fun a => run_taken (hazard_callTraits hu hp), fun x => run_taken (hazard_callTraits hu hp)⟩

theorem callIf_holds {s : State} {c : Cond} (hc : c ≠ .notCe)
    (h : condHolds s.astat s.cntr c = true) (a : Addr) : callIf s c a = .ok (callTo s a) := by
  simp [callIf, hc, h]

theorem callIf_fails {s : State} {c : Cond} (hc : c ≠ .notCe)
    (h : condHolds s.astat s.cntr c = false) (a : Addr) : callIf s c a = .ok (s, .seq) := by
  simp [callIf, hc, h]

/-- Settles O35: by the condition, and on NOT CE by its refusal. -/
theorem conditionalCallResult : Obligations.ConditionalCallResult := by
  intro s c hu hp
  have hh := hazard_callTraits hu hp
  simp only [exec_ifCall, exec_ifCallInd]
  refine ⟨fun hc h => ?holds, fun hc h hseq => ?fails, fun hc => ?notCe⟩
  case holds =>
    simp only [callIf_holds hc h]
    exact ⟨fun a => run_taken hh, fun x => run_taken hh⟩
  case fails =>
    simp only [callIf_fails hc h]
    exact ⟨fun a => run_seq hu hh rfl hseq, fun x => run_seq hu hh rfl hseq⟩
  case notCe =>
    subst hc
    exact ⟨fun a => run_refused hh, fun x => run_refused hh⟩

/-! ## Returns from an interrupt -/

theorem hazard_rtiTraits {s : State} (hu : s.unguarded) (hk : s.prevKind = .other) :
    hazard rtiTraits s = none := hazard_none_stack hu (by simp [hk]) fun _ => hk

/-- All that putting a status word back changes. -/
theorem restoreStatus_shape (s : State) (w : StatusWord) :
    s.restoreStatus w = (((s.setAstat w.astat).setMstat w.mstat).setImask w.imask).setHoldoff
      (if s.cfg.rtiStartsHoldoff && hasHoldoff s.cfg.proc then 2 else s.imaskHoldoff) := by
  unfold State.restoreStatus
  dsimp only
  split <;> rfl

theorem popStatus_cons {s : State} {w : StatusWord} {ws : List StatusWord}
    (h : s.ststk.words = w :: ws) :
    s.popStatus = .ok ((s.setStstk { s.ststk with words := ws }).restoreStatus w) := by
  simp [State.popStatus, h, Stack.drop]

theorem popStatus_nil {s : State} (h : s.ststk.words = []) :
    s.popStatus = .error (.emptyStack .status) := by
  simp [State.popStatus, h]

/-- What a return from an interrupt leaves, where both stacks hold a word. -/
def State.afterReturn (s : State) (as : List Addr) (w : StatusWord) (ws : List StatusWord) : State :=
  ((s.setPcstk { s.pcstk with words := as }).setStstk { s.ststk with words := ws }).restoreStatus w

section returnInt
variable {s : State} {a : Addr} {as : List Addr}

theorem returnInt_cons {w : StatusWord} {ws : List StatusWord} (hpc : s.pcstk.words = a :: as)
    (hst : s.ststk.words = w :: ws) : returnInt s = .ok (s.afterReturn as w ws, .taken a) := by
  have hpop : (s.setPcstk { s.pcstk with words := as }).popStatus = .ok (s.afterReturn as w ws) :=
    popStatus_cons hst
  simp [returnInt, returnFromInterrupt, popPc_cons s a as hpc, hpop]

theorem returnInt_noAddress (hpc : s.pcstk.words = []) :
    returnInt s = .error (.emptyStack .pc) := by
  simp [returnInt, returnFromInterrupt, popPc_nil hpc]

theorem returnInt_noStatus (hpc : s.pcstk.words = a :: as) (hst : s.ststk.words = []) :
    returnInt s = .error (.emptyStack .status) := by
  have hpop : (s.setPcstk { s.pcstk with words := as }).popStatus = .error (.emptyStack .status) :=
    popStatus_nil hst
  simp [returnInt, returnFromInterrupt, popPc_cons s a as hpc, hpop]

end returnInt

/-- IF cond RTI is RTI where its condition holds. -/
theorem exec_ifRti_holds {s : State} {c : Cond} (hu : s.unguarded)
    (hc : condHolds s.astat s.cntr c = true) : exec (.ifRti c) s = exec .rti s := by
  rw [exec_ifRti, whenCond_holds hu hc, exec_rti]

theorem exec_rti_cons {s : State} {a : Addr} {as : List Addr} {w : StatusWord} {ws : List StatusWord}
    (hu : s.unguarded) (hk : s.prevKind = .other) (hpc : s.pcstk.words = a :: as)
    (hst : s.ststk.words = w :: ws) :
    exec .rti s = .next (endOfStep .other ((s.afterReturn as w ws).setPc a)) := by
  rw [exec_rti, returnInt_cons hpc hst]
  exact run_taken (hazard_rtiTraits hu hk)

/-- Settles O38: RTI by the words it pops; IF cond RTI is RTI where the condition holds, and goes on in
sequence where it does not. -/
theorem returnFromInterruptResult : Obligations.ReturnFromInterruptResult := by
  intro s hu hk
  refine ⟨fun a as w ws hpc hst => ?word, fun c hc hseq => ?fails⟩
  case word =>
    have hrti := exec_rti_cons hu hk hpc hst
    refine ⟨_, hrti, ?_, ?_, ?_, ?_, ?_, ?_, ?_, fun c hc => (exec_ifRti_holds hu hc).trans hrti⟩
    all_goals simp [State.afterReturn, restoreStatus_shape]
    split <;> rfl
  case fails =>
    rw [exec_ifRti, whenCond_fails hu hc]
    exact run_seq hu (hazard_rtiTraits hu hk) rfl hseq

/-- A push that finds room leaves the stack as it was below the new word. -/
theorem push_room_words {α : Type} {d : Nat} {st : Stack α} (v : α) (h : st.words.length < d) :
    (st.push d v).words = v :: st.words ∧ { st.push d v with words := st.words } = st := by
  rw [push_room d st v h]
  exact ⟨rfl, rfl⟩

/-- Settles O17: the entry pushes with room what RTI then pops. -/
theorem entryThenReturn : Obligations.EntryThenReturn := by
  intro s k hu hpc hst
  have hpcstk : (enterInterrupt k s).pcstk = s.pcstk.push pcDepth s.pc := by
    simp [enterInterrupt, takeInterrupt_shape]
  have hststk : (enterInterrupt k s).ststk =
      s.ststk.push s.cfg.statusDepth ⟨s.astat, s.mstat, s.imask⟩ := by
    simp [enterInterrupt, takeInterrupt_shape]
  have hu' : (enterInterrupt k s).unguarded := by
    simpa [State.unguarded, enterInterrupt, takeInterrupt_shape] using hu
  have hk : (enterInterrupt k s).prevKind = .other := by simp [enterInterrupt]
  obtain ⟨hpcWords, hpcBack⟩ := push_room_words (d := pcDepth) s.pc hpc
  obtain ⟨hstWords, hstBack⟩ := push_room_words ⟨s.astat, s.mstat, s.imask⟩ hst
  have hrti := exec_rti_cons hu' hk ((congrArg _ hpcstk).trans hpcWords)
    ((congrArg _ hststk).trans hstWords)
  refine ⟨_, hrti, ?_, ?_, ?_, ?_, ?_, ?_⟩
  case refine_2 => simpa [State.afterReturn, restoreStatus_shape, hpcstk] using hpcBack
  case refine_3 => simpa [State.afterReturn, restoreStatus_shape, hststk] using hstBack
  all_goals simp [State.afterReturn, restoreStatus_shape]

/-! ## IDLE and DO UNTIL -/

theorem run_idle {tr : Traits} {s s1 : State} (hh : hazard tr s = none) :
    run tr s (.ok (s1, .idle)) =
      .next (endOfStep tr.kind ((s1.setPc (inc s.pc)).setIdle true)) := run_ok hh rfl rfl

/-- Settles O41. -/
theorem idleResult : Obligations.IdleResult := by
  intro s hu hs
  exact ⟨run_idle (hazard_noTraits hu hs), fun n => run_idle (hazard_noTraits hu hs)⟩

/-- Settles O39: by the comparator and by the ends that are stacked. -/
theorem doUntilResult : Obligations.DoUntilResult := by
  intro s fin term hu hp
  have hh : hazard { pcStack := true } s = none := hazard_none_stack hu hp nofun
  rw [exec_doUntil]
  refine ⟨fun hend hnew => ?pushes, fun hend => ?atEnd, fun hend hold => ?sameEnd⟩
  case pushes =>
    have hany : (s.lpstk.words.any fun w => w.fin == fin) = false := by
      simpa [List.any_eq_false] using hnew
    have heffect : setUpLoop s fin term = .ok ((s.setPcstk (s.pcstk.push 16 (inc s.pc))).setLpstk
        (s.lpstk.push 4 ⟨fin, term, (s.pcstk.push 16 (inc s.pc)).words.length⟩)) := by
      unfold setUpLoop
      rw [hend, hany]
      rfl
    rw [heffect]
    exact runSeq_next_address hh hend
  case atEnd =>
    have heffect : setUpLoop s fin term = .error .doAtLoopEnd := by simp [setUpLoop, hend]
    rw [heffect]
    exact runSeq_refused hh
  case sameEnd =>
    have hany : (s.lpstk.words.any fun w => w.fin == fin) = true := by
      simpa [List.any_eq_true] using hold
    have heffect : setUpLoop s fin term = .error .sameLoopEnd := by simp [setUpLoop, hend, hany]
    rw [heffect]
    exact runSeq_refused hh

/-! ## The end of a loop -/

theorem atLoopEnd_of_top {s : State} {w : LoopWord} {ws : List LoopWord} (hw : s.lpstk.words = w :: ws)
    (hfin : w.fin = s.pc) : s.atLoopEnd = true := by
  simp [State.atLoopEnd, hw, hfin]

/-- Without a TOPPCSTACK read before it, NOP meets no hazard, whatever the guards. -/
theorem hazard_noTraits_other {s : State} (hp : s.prevKind ≠ .toppcRead) : hazard {} s = none := by
  simp [hazard, hp]

/-- CE is tested on the counter (42_do_until.md R133). -/
theorem termHolds_ce (a : BitVec 8) (n : Count) : termHolds a n .ce = expired n := rfl

theorem loopEnd_unbalanced {s0 s1 : State} {w : LoopWord} {ws : List LoopWord}
    (hw : s1.lpstk.words = w :: ws) (hguard : s1.cfg.guardLoopBalance = true)
    (hdepth : s1.pcstk.words.length ≠ w.depth) : loopEnd s0 s1 = .error .unbalancedLoop := by
  simp [loopEnd, hw, hguard, hdepth]

theorem loopEnd_invalidCounter {s0 s1 : State} {w : LoopWord} {ws : List LoopWord}
    (hw : s1.lpstk.words = w :: ws)
    (hbalance : s1.cfg.guardLoopBalance = false ∨ s1.pcstk.words.length = w.depth)
    (hterm : w.term = .ce) (hrefused : s0.counterRefused = true) :
    loopEnd s0 s1 = .error .invalidCounter := by
  have hno : (s1.cfg.guardLoopBalance && s1.pcstk.words.length != w.depth) = false := by
    rcases hbalance with h | h <;> simp [h]
  simp [loopEnd, hw, hno, testTerm, hterm, hrefused]

theorem exec_nop_loopEnd_refused {s : State} {e : Refusal} (hp : s.prevKind ≠ .toppcRead)
    (hl : s.atLoopEnd = true) (he : loopEnd s s = .error e) : exec .nop s = .refused e := by
  rw [exec_nop]
  simp [runSeq, run, hazard_noTraits_other hp, sequence, hl, he]

/-- Settles O42: the run of NOP at a loop end is one of the cases of `SeqNext`; with a guard on it is
refused. -/
theorem loopEndResult : Obligations.LoopEndResult := by
  refine ⟨fun s w ws a as hu hp hw hfin ha => ?runs, fun s w ws hp hw hfin => ?guards⟩
  case runs =>
    have hl := atLoopEnd_of_top hw hfin
    have hseq : s.canSequence s := fun _ => ⟨by simp [hw], by simp [ha]⟩
    obtain ⟨t, hnext, hrun⟩ := nopResult s hu (fun h => absurd h hp) hseq
    refine ⟨_, hrun, ?_⟩
    cases hnext with
    | on hno => simp [hl] at hno
    | back w' ws' a' as' _ hw' ha' hce hholds | leave w' ws' a' as' _ hw' ha' hce hholds =>
      cases hw.symm.trans hw'
      cases ha.symm.trans ha'
      simp [hce, hholds]
    | countOn w' ws' a' as' _ hw' ha' hce hne =>
      cases hw.symm.trans hw'
      cases ha.symm.trans ha'
      have hx : expired s.cntr = false := Bool.eq_false_of_not_eq_true (mt (expired_iff _).1 hne)
      have hno : ¬s.cntr = 1#14 := hne
      simp [termHolds_ce, hce, hx, hno]
    | countOut w' ws' a' as' c cs _ hw' ha' hce h1 hc =>
      cases hw.symm.trans hw'
      cases ha.symm.trans ha'
      simp [termHolds_ce, hce, expired, h1, hc]
    | countDone w' ws' a' as' _ hw' ha' hce h1 hc hlost =>
      cases hw.symm.trans hw'
      cases ha.symm.trans ha'
      simp [termHolds_ce, hce, expired, h1, hc, hlost]
    | countLost w' ws' a' as' c n _ hw' ha' hce h1 hc hlost =>
      cases hw.symm.trans hw'
      cases ha.symm.trans ha'
      simp [termHolds_ce, hce, expired, h1, hc, hlost]
  case guards =>
    have hl := atLoopEnd_of_top hw hfin
    refine ⟨fun hguard hdepth => ?_, fun hbalance hguard hvalid hterm => ?_⟩
    · exact exec_nop_loopEnd_refused hp hl (loopEnd_unbalanced hw hguard hdepth)
    · exact exec_nop_loopEnd_refused hp hl
        (loopEnd_invalidCounter hw hbalance hterm (by simp [State.counterRefused, hguard, hvalid]))

end Sys2Proof.Machine
end

section
/-! Stack control, mode control and the global enable (44_status_mode.md sections 2 to 4): what each part of a
word does, and the runs of the words. -/

namespace Sys2Proof.Machine

/-! ## The parts of a stack-control word -/

section parts
variable {s : State}

theorem popPcPart_word {pp : Bool} (h : pp = true → s.pcstk.words ≠ []) :
    popPcPart pp s = .ok (if pp then s.setPcstk s.pcstk.drop else s) := by
  cases pp with
  | false => rfl
  | true =>
    obtain ⟨a, as, hw⟩ := List.exists_cons_of_ne_nil (h rfl)
    simp [popPcPart, State.popPc, hw]

theorem popPcPart_empty (h : s.pcstk.words = []) : popPcPart true s = .error (.emptyStack .pc) := by
  simp [popPcPart, popPc_nil h]

theorem popLoopPart_word {lp : Bool}
    (h : lp = true → s.lpstk.words ≠ [] ∧ s.beforeLoopEnd = false) :
    popLoopPart lp s = .ok (if lp then s.setLpstk s.lpstk.drop else s) := by
  cases lp with
  | false => rfl
  | true =>
    obtain ⟨hne, hbefore⟩ := h rfl
    obtain ⟨w, ws, hw⟩ := List.exists_cons_of_ne_nil hne
    simp [popLoopPart, State.popLoop, hw, hbefore]

theorem popLoopPart_empty (h : s.lpstk.words = []) :
    popLoopPart true s = .error (.emptyStack .loop) := by
  simp [popLoopPart, State.beforeLoopEnd, State.popLoop, h]

theorem popLoopPart_before (h : s.beforeLoopEnd = true) :
    popLoopPart true s = .error .popLoopBeforeEnd := by
  simp [popLoopPart, h]

theorem popCntrPart_word {cp : Bool} (h : cp = true → s.cntstk.words ≠ []) :
    popCntrPart cp s =
      if cp then (s.setCntstk s.cntstk.drop).setCntr (s.cntstk.words.headD 0) else s := by
  cases cp with
  | false => rfl
  | true =>
    obtain ⟨c, cs, hw⟩ := List.exists_cons_of_ne_nil (h rfl)
    simp [popCntrPart, State.popCount, hw]

/-- A direct pop of the count stack without a word (44_status_mode.md R183, D6). -/
theorem popCount_empty (h : s.cntstk.words = []) :
    ∃ c v n, s.popCount = ((((s.setCntstk s.cntstk.popNone).setCntr c).setCntrValid v).setFreeTick n) := by
  unfold State.popCount
  rw [h]
  exact ⟨_, _, _, rfl⟩

/-- What the status-stack part does, where it finds a word to pop. -/
def statusEffect (spp : BitVec 2) (s : State) : State :=
  if spp = 2 then s.pushStatus
  else if spp = 3 then (s.setStstk s.ststk.drop).restoreStatus (s.ststk.words.headD ⟨0, 0, 0⟩)
  else s

theorem statusPart_word {spp : BitVec 2} (h : spp = 3 → s.ststk.words ≠ []) :
    statusPart spp s = .ok (statusEffect spp s) := by
  unfold statusPart statusEffect
  by_cases h2 : spp = 2
  · rw [if_pos h2, if_pos h2]
  by_cases h3 : spp = 3
  · obtain ⟨w, ws, hw⟩ := List.exists_cons_of_ne_nil (h h3)
    rw [if_neg h2, if_neg h2, if_pos h3, if_pos h3]
    simp [State.popStatus, hw]
  · rw [if_neg h2, if_neg h2, if_neg h3, if_neg h3]

theorem statusPart_empty (h : s.ststk.words = []) :
    statusPart 3 s = .error (.emptyStack .status) := popStatus_nil h

/-- The status-stack part neither reads nor writes the counter and its stack. -/
theorem statusEffect_count (spp : BitVec 2) (st : Stack Count) (c : Count) (v : Bool) (n : Nat) :
    statusEffect spp ((((s.setCntstk st).setCntr c).setCntrValid v).setFreeTick n) =
      ((((statusEffect spp s).setCntstk st).setCntr c).setCntrValid v).setFreeTick n := by
  unfold statusEffect
  split
  · rfl
  split
  · rw [restoreStatus_shape, restoreStatus_shape]
    rfl
  · rfl

/-- The loop part of a word finds the loop stack and the comparator as the word found them. -/
theorem popPcPart_loop {pp : Bool} (hpc : pp = true → s.pcstk.words ≠ []) :
    ∃ s1, popPcPart pp s = .ok s1 ∧ s1.lpstk = s.lpstk ∧ s1.beforeLoopEnd = s.beforeLoopEnd := by
  refine ⟨_, popPcPart_word hpc, ?_⟩
  cases pp <;> exact ⟨rfl, rfl⟩

theorem stackControl_loop_refused {pp cp : Bool} {spp : BitVec 2} {e : Refusal}
    (hpc : pp = true → s.pcstk.words ≠ [])
    (he : ∀ s1 : State, s1.lpstk = s.lpstk → s1.beforeLoopEnd = s.beforeLoopEnd →
      popLoopPart true s1 = .error e) :
    stackControl pp true cp spp s = .error e := by
  obtain ⟨s1, hpart, hloop, hbefore⟩ := popPcPart_loop hpc
  simp [stackControl, hpart, he s1 hloop hbefore]

/-- The pops of the PC stack and of the loop stack, where both find a word. -/
def popEffect (pp lp : Bool) (s : State) : State :=
  let s1 := if pp then s.setPcstk s.pcstk.drop else s
  if lp then s1.setLpstk s.lpstk.drop else s1

theorem stackControl_pops {pp lp cp : Bool} {spp spp' : BitVec 2} (h : canPop pp lp false spp' s) :
    stackControl pp lp cp spp s = statusPart spp (popCntrPart cp (popEffect pp lp s)) := by
  obtain ⟨hpc, hloop, -, -⟩ := h
  unfold stackControl
  rw [popPcPart_word hpc]
  dsimp only
  rw [popLoopPart_word (by cases pp <;> exact hloop)]
  cases pp <;> cases lp <;> rfl

/-- A stack-control word whose pops all find words does what `stackEffect` says. -/
theorem stackControl_word {pp lp cp : Bool} {spp : BitVec 2} (h : canPop pp lp cp spp s) :
    stackControl pp lp cp spp s = .ok (stackEffect pp lp cp spp s) := by
  obtain ⟨hpc, hloop, hcount, hstatus⟩ := h
  rw [stackControl_pops ⟨hpc, hloop, nofun, hstatus⟩,
    popCntrPart_word (by cases pp <;> cases lp <;> exact hcount),
    statusPart_word (by cases pp <;> cases lp <;> cases cp <;> exact hstatus)]
  cases pp <;> cases lp <;> cases cp <;> rfl

theorem stackEffect_cfg {pp lp cp : Bool} {spp : BitVec 2} (h : canPop pp lp cp spp s) :
    (stackEffect pp lp cp spp s).cfg = s.cfg := by
  have hno := notMem_stackPieces
  obtain ⟨-, -, -, hcfg⟩ := (changes_stackControl (stackControl_word h)).same .outside (by
    cases pp <;> simp [hno])
  exact hcfg

/-- A stack-control word that pops a count stack without a word does the rest as it says. -/
theorem stackControl_emptyCount {pp lp : Bool} {spp : BitVec 2} (h : canPop pp lp false spp s)
    (hw : s.cntstk.words = []) :
    ∃ c v n, stackControl pp lp true spp s = .ok (((((stackEffect pp lp false spp s).setCntstk
      s.cntstk.popNone).setCntr c).setCntrValid v).setFreeTick n) := by
  have hcntstk : (popEffect pp lp s).cntstk = s.cntstk := by cases pp <;> cases lp <;> rfl
  have hststk : (popEffect pp lp s).ststk = s.ststk := by cases pp <;> cases lp <;> rfl
  have hrest : statusEffect spp (popEffect pp lp s) = stackEffect pp lp false spp s := by
    cases pp <;> cases lp <;> rfl
  obtain ⟨c, v, n, hpop⟩ := popCount_empty (s := popEffect pp lp s) (by rw [hcntstk, hw])
  refine ⟨c, v, n, ?_⟩
  obtain ⟨-, -, -, hstatus⟩ := id h
  rw [stackControl_pops h, popCntrPart, if_pos rfl, hpop, statusPart_word (by simpa [hststk]),
    statusEffect_count, hrest, hcntstk]

end parts

/-! ## The runs of stack-control words -/

/-- Each term of a word is the run of that word. -/
theorem exec_stackRows {pp lp cp : Bool} {spp : BitVec 2} {i : Instr}
    (h : i ∈ stackRows pp lp cp spp) (s : State) : exec i s = runStack pp lp cp spp s := by
  have hone {p : Prop} [Decidable p] {j : Instr} (hi : i ∈ if p then [j] else []) : p ∧ i = j := by
    split at hi
    · exact ⟨‹p›, List.mem_singleton.1 hi⟩
    · cases hi
  simp only [stackRows, List.mem_append] at h
  rcases h with (((h | h) | h) | h) | h <;> obtain ⟨rfl, rfl⟩ := hone h <;> rfl

/-- A stack-control word that leaves the PC stack is in none of the lists of 46_toppcstack.md. -/
theorem hazard_stackTraits {s : State} {pp : Bool} (hu : s.unguarded) (hs : s.slotFree)
    (hp : pp = true → s.prevKind ≠ .toppcRead) :
    hazard { pcStack := pp, returns := pp } s = none := by
  cases pp with
  | false => exact hazard_none_plain hu hs rfl rfl
  | true => exact hazard_none_stack hu (hp rfl) nofun

/-- The last instruction but one of a loop is not the last. -/
theorem slotFree_of_beforeLoopEnd {s : State} (h : s.beforeLoopEnd = true) : s.slotFree := by
  intro _
  unfold State.beforeLoopEnd at h
  unfold State.atLoopEnd
  split at h
  · cases h
  · rename_i w ws _
    have hfin : w.fin = inc s.pc := by simpa using h
    have hne : inc s.pc ≠ s.pc := by
      intro heq
      have := congrArg BitVec.toNat heq
      rw [BitVec.toNat_add] at this
      have hlt := s.pc.isLt
      change (s.pc.toNat + 1) % 2 ^ 14 = s.pc.toNat at this
      omega
    simp [hfin, hne]

/-- Settles O43: by `stackControl_word`, and just before a loop's end by the refusal of the loop part. -/
theorem stackControlResult : Obligations.StackControlResult := by
  refine ⟨fun s pp cp spp hu hpc hbefore i hi => ?before,
    fun s pp lp cp spp hu hs hp hpop hseq => ?word⟩
  case before =>
    have hh := hazard_stackTraits hu (slotFree_of_beforeLoopEnd hbefore) fun h => (hpc h).1
    rw [exec_stackRows hi, runStack, stackControl_loop_refused (fun h => (hpc h).2)
      fun s1 _ hs1 => popLoopPart_before (hs1.trans hbefore)]
    exact runSeq_refused hh
  case word =>
    have hrun : ∃ t, SeqNext s (stackEffect pp lp cp spp s) t ∧
        runStack pp lp cp spp s = .next (endOfStep .other t) := by
      rw [runStack, stackControl_word hpop]
      exact runSeq_ok hu (hazard_stackTraits hu hs hp) (stackEffect_cfg hpop) hseq
    refine ⟨?_, ?_, ?_, ?_, ?_⟩ <;> (rintro rfl; exact hrun)

/-- Settles O44. -/
theorem popEmptyCountStack : Obligations.PopEmptyCountStack := by
  intro s pp lp spp hu hs hp hpop hw hseq
  obtain ⟨c, v, n, heffect⟩ := stackControl_emptyCount hpop hw
  obtain ⟨t, hnext, hrun⟩ := runSeq_ok hu (hazard_stackTraits hu hs hp)
    (s1 := ((((stackEffect pp lp false spp s).setCntstk s.cntstk.popNone).setCntr c).setCntrValid
      v).setFreeTick n) (stackEffect_cfg hpop) hseq
  refine ⟨c, v, n, t, hnext, fun i hi => ?_⟩
  rw [exec_stackRows hi, runStack, heffect]
  exact hrun

/-! ## Pops that find no word -/

theorem exec_stackRows_refused {s : State} {pp lp cp : Bool} {spp : BitVec 2} {i : Instr} {e : Refusal}
    (hh : ∀ tr, hazard tr s = none) (hi : i ∈ stackRows pp lp cp spp)
    (he : stackControl pp lp cp spp s = .error e) : exec i s = .refused e := by
  rw [exec_stackRows hi, runStack, he]
  exact runSeq_refused (hh _)

/-- The test at a loop end leaves the PC stack. -/
theorem testTerm_unguarded {s0 s1 : State} (hu : s0.unguarded) (t : Term) :
    ∃ b u, testTerm s0 s1 t = .ok (b, u) ∧ u.pcstk = s1.pcstk := by
  unfold testTerm
  split
  · rw [counterRefused_unguarded hu]
    refine ⟨_, _, rfl, ?_⟩
    exact (changes_testCe s1 s0.cntr).same .pcstk (by simp)
  · exact ⟨_, _, rfl, rfl⟩

theorem loopEnd_noAddress {s0 s1 : State} (hu : s0.unguarded) (hcfg : s1.cfg = s0.cfg)
    (hloop : s1.lpstk.words ≠ []) (hpc : s1.pcstk.words = []) :
    loopEnd s0 s1 = .error (.emptyStack .pc) := by
  obtain ⟨w, ws, hw⟩ := List.exists_cons_of_ne_nil hloop
  obtain ⟨b, u, htest, hu1⟩ := testTerm_unguarded (s1 := s1) hu w.term
  obtain ⟨-, hguard, -⟩ := hu
  simp [loopEnd, hw, hcfg, hguard, htest, hu1, hpc]

theorem readToppc_refused {s : State} {r : Reg} (hr : r.toppcOk = true) (hl : s.atLoopEnd = false)
    (hb : s.beforeLoopEnd = false) (hpc : s.pcstk.words = []) :
    readToppc r s = .error (.emptyStack .pc) := by
  simp [readToppc, hr, hl, hb, popPc_nil hpc]

/-- Settles O45: the first part of a word that finds no word refuses it, and so do the returns, a read of
TOPPCSTACK and the loop end. -/
theorem emptyPopsRefused : Obligations.EmptyPopsRefused := by
  intro s hu hk
  have hh (tr : Traits) : hazard tr s = none := hazard_none_stack hu (by simp [hk]) fun _ => hk
  refine ⟨fun hpc => ?address, fun hloop pp cp spp hpc i hi => ?loop,
    fun hst pp lp cp hpop i hi => ?status, fun hpc hst => ?returnStatus⟩
  case address =>
    have hrts : exec .rts s = .refused (.emptyStack .pc) := exec_rts_nil hu (by simp [hk]) hpc
    have hrti : exec .rti s = .refused (.emptyStack .pc) := by
      rw [exec_rti, returnInt_noAddress hpc]
      exact run_refused (hh _)
    refine ⟨hrts, hrti, fun c hc => ?_, fun lp cp spp i hi => ?_, fun hl => ?_, fun r hr hl hb => ?_⟩
    · exact ⟨(exec_ifRts_holds hu hc).trans hrts, (exec_ifRti_holds hu hc).trans hrti⟩
    · exact exec_stackRows_refused hh hi (by simp [stackControl, popPcPart_empty hpc])
    · obtain ⟨w, ws, hw, -⟩ := atLoopEnd_cons hl
      exact exec_nop_loopEnd_refused (by simp [hk]) hl
        (loopEnd_noAddress hu rfl (by simp [hw]) hpc)
    · rw [exec_fromToppcstack, readToppc_refused hr hl hb hpc]
      exact runSeq_refused (hh _)
  case loop =>
    refine exec_stackRows_refused hh hi (stackControl_loop_refused hpc fun s1 hs1 _ => ?_)
    exact popLoopPart_empty (by rw [hs1, hloop])
  case status =>
    refine exec_stackRows_refused hh hi ?_
    rw [stackControl_pops hpop]
    refine statusPart_empty ?_
    have hkeep : (popCntrPart cp (popEffect pp lp s)).ststk = s.ststk := by
      cases cp <;> cases pp <;> cases lp <;> simp [popCntrPart, popEffect]
    rw [hkeep, hst]
  case returnStatus =>
    obtain ⟨a, as, hpc⟩ := List.exists_cons_of_ne_nil hpc
    have hrti : exec .rti s = .refused (.emptyStack .status) := by
      rw [exec_rti, returnInt_noStatus hpc hst]
      exact run_refused (hh _)
    exact ⟨hrti, fun c hc => (exec_ifRti_holds hu hc).trans hrti⟩

/-! ## The global enable -/

theorem setGlobalInts_member {s : State} (h : hasGlobalInts s.cfg.proc = true) (v : Bool) :
    setGlobalInts v s = .ok (s.setInts v (if s.cfg.intsDelayed then s.intsEff else v)
      (if s.cfg.intsDelayed then 2 else 0)) := by
  unfold setGlobalInts State.intsEff
  rw [if_pos h]
  split <;> rfl

theorem setGlobalInts_other {s : State} (h : hasGlobalInts s.cfg.proc = false) (v : Bool) :
    setGlobalInts v s = .error .noGlobalInts := by
  simp [setGlobalInts, h]

/-- The global enable after one of the two instructions, and after the one that follows it. -/
theorem globalEnable_inForce {s t : State} {v : Bool}
    (h : runSeq {} s (setGlobalInts v s) = .next t) :
    t.intsEnabled = v ∧ t.intsEff = (if s.cfg.intsDelayed then s.intsEff else v) ∧
      ∀ i u, i.wellFormed = true → Piece.ints ∉ mayWrite i t → exec i t = .next u →
        u.intsEff = v := by
  obtain ⟨s1, w, heffect, hnext, rfl⟩ := runSeq_next h
  cases hmember : hasGlobalInts s.cfg.proc with
  | false => rw [setGlobalInts_other hmember] at heffect; cases heffect
  | true =>
    rw [setGlobalInts_member hmember] at heffect
    cases heffect
    obtain ⟨henabled, hdelay, hold⟩ := seqNext_same hnext (by simp) .ints (by
      unfold State.loopPieces
      split <;> [split; skip] <;> simp)
    simp only [State.setInts_intsEnabled, State.setInts_intsDelay, State.setInts_intsOld]
      at henabled hdelay hold
    refine ⟨by simp [henabled], ?_, fun i u hwf hno hexec => ?_⟩
    · cases hd : s.cfg.intsDelayed <;> simp [State.intsEff, hdelay, hold, henabled, hd]
    · obtain ⟨hu, hud, huo⟩ := instructionFrame i _ u hwf hexec .ints hno
      cases hd : s.cfg.intsDelayed <;> simp [State.intsEff, hu, hud, hdelay, henabled, hd]

/-- Settles O46: both instructions are the same run with another value. -/
theorem globalEnableResult : Obligations.GlobalEnableResult := by
  intro s hu hs
  have hh := hazard_noTraits hu hs
  refine ⟨fun hmember hseq => ?runs, fun t h => globalEnable_inForce h,
    fun t h => globalEnable_inForce h, fun hother => ?refused⟩
  case runs =>
    simp only [exec_enaInts, exec_disInts, setGlobalInts_member hmember]
    exact ⟨runSeq_ok hu hh rfl hseq, runSeq_ok hu hh rfl hseq⟩
  case refused =>
    simp only [exec_enaInts, exec_disInts, setGlobalInts_other hother]
    exact ⟨runSeq_refused hh, runSeq_refused hh⟩

/-! ## Mode control -/

theorem modeSet_modeBit (f : BitVec 2) (old : Bool) : modeSet f old (modeBit f old) := by
  unfold modeSet
  revert f old
  decide

/-- The places of the modes in MSTAT (10_state.md R32). -/
theorem modeControl_bits (f : ModeFields) (m : BitVec 7) :
    (modeControl f m).getLsbD 0 = modeBit f.sr (m.getLsbD 0) ∧
    (modeControl f m).getLsbD 1 = modeBit f.br (m.getLsbD 1) ∧
    (modeControl f m).getLsbD 2 = modeBit f.ol (m.getLsbD 2) ∧
    (modeControl f m).getLsbD 3 = modeBit f.as (m.getLsbD 3) ∧
    (modeControl f m).getLsbD 4 = modeBit f.mm (m.getLsbD 4) ∧
    (modeControl f m).getLsbD 5 = modeBit f.ti (m.getLsbD 5) ∧
    (modeControl f m).getLsbD 6 = modeBit f.gm (m.getLsbD 6) := by
  have hbits : ∀ b6 b5 b4 b3 b2 b1 b0 : Bool,
      let v := BitVec.ofBool b6 ++ BitVec.ofBool b5 ++ BitVec.ofBool b4 ++ BitVec.ofBool b3 ++
        BitVec.ofBool b2 ++ BitVec.ofBool b1 ++ BitVec.ofBool b0
      v.getLsbD 0 = b0 ∧ v.getLsbD 1 = b1 ∧ v.getLsbD 2 = b2 ∧ v.getLsbD 3 = b3 ∧
        v.getLsbD 4 = b4 ∧ v.getLsbD 5 = b5 ∧ v.getLsbD 6 = b6 := by
    decide
  exact hbits _ _ _ _ _ _ _

/-- An instruction that is the run of a mode-control word does what the word says. -/
theorem modeEffect_of_runMode {f : ModeFields} {i : Instr} (h : ∀ s, exec i s = runMode f s) :
    ModeEffect f i := by
  intro s hu hs hseq
  obtain ⟨h0, h1, h2, h3, h4, h5, h6⟩ := modeControl_bits f s.mstat
  obtain ⟨t, hnext, hrun⟩ := runSeq_ok (s1 := s.setMstat (modeControl f s.mstat)) hu
    (hazard_noTraits hu hs) rfl hseq
  refine ⟨modeControl f s.mstat, t, ?_, ?_, ?_, ?_, ?_, ?_, ?_, hnext, (h s).trans hrun⟩
  · rw [h0]; exact modeSet_modeBit _ _
  · rw [h1]; exact modeSet_modeBit _ _
  · rw [h2]; exact modeSet_modeBit _ _
  · rw [h3]; exact modeSet_modeBit _ _
  · rw [h4]; exact modeSet_modeBit _ _
  · rw [h5]; exact modeSet_modeBit _ _
  · rw [h6]; exact modeSet_modeBit _ _

/-- Settles O47: each of the fourteen instructions is the run of a mode-control word. -/
theorem modeControlResult : Obligations.ModeControlResult := by
  intro f
  refine ⟨?_, ?_, ?_, ?_, ?_, ?_, ?_, ?_, ?_, ?_, ?_, ?_, ?_, ?_⟩ <;>
    exact modeEffect_of_runMode fun _ => rfl

end Sys2Proof.Machine
end

section
/-! The registers outside the sequencer, the reads of all registers, and IFC (10_state.md sections 7 and 8,
44_status_mode.md section 1). -/

namespace Sys2Proof.Machine

/-! ## The registers outside the sequencer -/

/-- Settles O48: by MSTAT bit 0. -/
theorem bankSelect : Obligations.BankSelect := by
  intro s b
  refine ⟨fun h => ?_, fun h => ?_, bank_setBank s b⟩
  all_goals
    unfold State.bank State.setBank
    rw [h]
    exact ⟨rfl, rfl⟩

/-- A read of a register outside the sequencer sees the active bank, the address generators and the ports
alone. -/
theorem readPlain_congr {s t : State} (hb : t.bank = s.bank) (hd : t.dag = s.dag)
    (hp : t.ports = s.ports) (r : Reg) : t.readPlain r = s.readPlain r := by
  cases r <;> simp only [State.readPlain, hb, hd, hp]

/-- A register reads back the low bits that were written to it. -/
theorem readPlain_writePlain_same (s : State) (r : Reg) (v : Bus) (h : r.isPlain = true) :
    (s.writePlain r v).readPlain r = (v.setWidth (plainWidth r)).setWidth 16 := by
  cases r <;> first
    | exact absurd h (by decide)
    | simp [State.readPlain, State.writePlain, plainWidth]

/-- The registers of the data address generators. -/
def inDag (r : Reg) : Bool := plainWidth r == 14

/-- The bus-exchange register and the serial-port registers. -/
def inPorts (r : Reg) : Bool := r ∈ [Reg.px, .rx0, .tx0, .rx1, .tx1]

/-- The registers of the active bank. -/
def inBank (r : Reg) : Bool := r.isPlain && !inDag r && !inPorts r

theorem inGroup_of_plain {r : Reg} (h : r.isPlain = true) :
    inBank r = true ∨ inDag r = true ∨ inPorts r = true := by
  cases hd : inDag r <;> cases hp : inPorts r <;> simp [inBank, h, hd, hp]

theorem readPlain_setDag_other (s : State) (d : Dag) (r : Reg) (h : inDag r = false) :
    (s.setDag d).readPlain r = s.readPlain r := by
  cases r <;> first | rfl | exact absurd h (by decide)

theorem readPlain_setPorts_other (s : State) (o : Ports) (r : Reg) (h : inPorts r = false) :
    (s.setPorts o).readPlain r = s.readPlain r := by
  cases r <;> first | rfl | exact absurd h (by decide)

theorem readPlain_setBank_other (s : State) (b : Bank) (r : Reg) (h : inBank r = false) :
    (s.setBank b).readPlain r = s.readPlain r := by
  cases r <;> first
    | exact absurd h (by decide)
    | simp only [State.readPlain, State.setBank_dag, State.setBank_ports]

/-- A write of an address generator's register leaves the generators' other registers. -/
theorem readPlain_writeDag_ne (s : State) (r r' : Reg) (v : Bus) (hr : inDag r = true)
    (hr' : inDag r' = true) (hne : r' ≠ r) : (s.writePlain r v).readPlain r' = s.readPlain r' := by
  cases r <;> first
    | exact absurd hr (by decide)
    | (cases r' <;> first
      | exact absurd hr' (by decide)
      | rfl
      | exact absurd rfl hne)

theorem readPlain_writePorts_ne (s : State) (r r' : Reg) (v : Bus) (hr : inPorts r = true)
    (hr' : inPorts r' = true) (hne : r' ≠ r) :
    (s.writePlain r v).readPlain r' = s.readPlain r' := by
  cases r <;> first
    | exact absurd hr (by decide)
    | (cases r' <;> first
      | exact absurd hr' (by decide)
      | rfl
      | exact absurd rfl hne)

theorem readPlain_writeBank_ne (s : State) (r r' : Reg) (v : Bus) (hr : inBank r = true)
    (hr' : inBank r' = true) (hne : r' ≠ r) :
    (s.writePlain r v).readPlain r' = s.readPlain r' := by
  cases r <;> first
    | exact absurd hr (by decide)
    | (cases r' <;> first
      | exact absurd hr' (by decide)
      | exact absurd rfl hne
      | simp only [State.readPlain, State.writePlain, bank_setBank])

/-- The part of the state that a write of a plain register goes to is that of its group. -/
theorem writePlain_group (s : State) (r : Reg) (v : Bus) :
    (inBank r = true → ∃ b, s.writePlain r v = s.setBank b ∧ b.af = s.bank.af ∧ b.mf = s.bank.mf) ∧
    (inDag r = true → ∃ d, s.writePlain r v = s.setDag d) ∧
    (inPorts r = true → ∃ o, s.writePlain r v = s.setPorts o) := by
  cases r <;> exact ⟨fun h => by first | exact absurd h (by decide) | exact ⟨_, rfl, rfl, rfl⟩,
    fun h => by first | exact absurd h (by decide) | exact ⟨_, rfl⟩,
    fun h => by first | exact absurd h (by decide) | exact ⟨_, rfl⟩⟩

/-- A write of one register leaves the others, and AF and MF, which no move can name. -/
theorem othersKept_writePlain (s : State) (r : Reg) (v : Bus) (hr : r.isPlain = true) :
    OthersKept r s (s.writePlain r v) := by
  obtain ⟨toBank, toDag, toPorts⟩ := writePlain_group s r v
  rcases inGroup_of_plain hr with h | h | h
  · obtain ⟨b, hw, haf, hmf⟩ := toBank h
    refine ⟨fun r' _ hne => ?_, by rw [hw, bank_setBank]; exact ⟨haf, hmf⟩⟩
    cases h' : inBank r' with
    | true => exact readPlain_writeBank_ne s r r' v h h' hne
    | false => rw [hw]; exact readPlain_setBank_other s b r' h'
  · obtain ⟨d, hw⟩ := toDag h
    refine ⟨fun r' _ hne => ?_, by rw [hw, bank_setDag]; exact ⟨rfl, rfl⟩⟩
    cases h' : inDag r' with
    | true => exact readPlain_writeDag_ne s r r' v h h' hne
    | false => rw [hw]; exact readPlain_setDag_other s d r' h'
  · obtain ⟨o, hw⟩ := toPorts h
    refine ⟨fun r' _ hne => ?_, by rw [hw, bank_setPorts]; exact ⟨rfl, rfl⟩⟩
    cases h' : inPorts r' with
    | true => exact readPlain_writePorts_ne s r r' v h h' hne
    | false => rw [hw]; exact readPlain_setPorts_other s o r' h'

/-- Settles O29. -/
theorem plainRegisters : Obligations.PlainRegisters := by
  intro s r v hr
  refine ⟨readPlain_writePlain_same s r v hr, othersKept_writePlain s r v hr, ?_⟩
  rcases writePlain_cases s r v with ⟨b, h⟩ | ⟨d, h⟩ | ⟨o, h⟩
  · obtain ⟨p, q, hbanks, hp, hq⟩ := setBank_shape s b
    exact ⟨p, q, s.dag, s.ports, by rw [h, hbanks]; rfl, hp, hq⟩
  · exact ⟨s.primary, s.shadow, d, s.ports, by rw [h]; rfl, fun _ => rfl, fun _ => rfl⟩
  · exact ⟨s.primary, s.shadow, s.dag, o, by rw [h]; rfl, fun _ => rfl, fun _ => rfl⟩

/-! ## The reads -/

/-- A read of ICNTL shows all its bits but bit 3 (10_state.md R34). -/
theorem getLsbD_icntlRead (v : BitVec 5) (j : Nat) :
    (icntlRead v).getLsbD j = (v.getLsbD j && decide (j ≠ 3)) := by
  have hmask : ∀ i < 5, (0b10111 : BitVec 5).getLsbD i = decide (i ≠ 3) := by decide
  unfold icntlRead
  rw [BitVec.getLsbD_setWidth, BitVec.getLsbD_and]
  by_cases h : j < 5
  · rw [hmask j h]
    simp [show j < 16 by omega]
  · simp [BitVec.getLsbD_of_ge v j (by omega)]

theorem readReg_cntr_valid {s : State} (h : s.cntrValid = true) :
    s.readReg .cntr = .ok (s.cntr.setWidth 16, s) := by simp [State.readReg, h]

/-- An invalid counter reads as some value (10_state.md R17). -/
theorem readReg_cntr_invalid {s : State} (h : s.cntrValid = false) :
    ∃ (c : Count) (n : Nat), s.readReg .cntr = .ok (c.setWidth 16, s.setFreeTick n) :=
  ⟨Config.freeCount s.freeTick, s.freeTick + 1, by simp [State.readReg, h]⟩

/-- Settles O28: register by register; the plain ones by the lemma for all of them. -/
theorem readRegister : Obligations.ReadRegister := fun s =>
  ⟨rfl, rfl, rfl, rfl, rfl, getLsbD_icntlRead s.icntl, readReg_cntr_valid, readReg_cntr_invalid,
    rfl, rfl, rfl, readReg_plain s⟩

/-! ## The frame of the moves into a plain register -/

/-- The active bank, the address generators and the ports are the same. -/
structure SamePlain (s t : State) : Prop where
  bank : t.bank = s.bank
  dag : t.dag = s.dag
  ports : t.ports = s.ports

theorem SamePlain.trans {s t u : State} (h : SamePlain s t) (h' : SamePlain t u) : SamePlain s u :=
  ⟨h'.bank.trans h.bank, h'.dag.trans h.dag, h'.ports.trans h.ports⟩

/-- The sequencing reaches no register outside the sequencer. -/
theorem samePlain_seqNext {s0 s1 t : State} (h : SeqNext s0 s1 t) : SamePlain s1 t := by
  cases h <;> exact ⟨rfl, rfl, rfl⟩

theorem samePlain_endOfStep (k : Kind) (s : State) : SamePlain s (endOfStep k s) := by
  refine ⟨?_, by simp, by simp⟩
  unfold State.bank
  rw [endOfStep_mstat, endOfStep_shadow, endOfStep_primary]

theorem OthersKept.of_samePlain {r : Reg} {s w t : State} (h : OthersKept r s w)
    (hw : SamePlain w t) : OthersKept r s t := by
  obtain ⟨hr, haf, hmf⟩ := h
  refine ⟨fun r' hp hne => ?_, by rw [hw.bank, haf], by rw [hw.bank, hmf]⟩
  rw [readPlain_congr hw.bank hw.dag hw.ports, hr r' hp hne]

/-- A write to a register after something that leaves the registers alone. -/
theorem othersKept_after {r : Reg} (hr : r.isPlain = true) {s u : State} (hu : SamePlain s u) (v : Bus) :
    OthersKept r s (u.writePlain r v) := by
  obtain ⟨hkeep, haf, hmf⟩ := othersKept_writePlain u r v hr
  refine ⟨fun r' hp hne => ?_, by rw [haf, hu.bank], by rw [hmf, hu.bank]⟩
  rw [hkeep r' hp hne, readPlain_congr hu.bank hu.dag hu.ports]

/-- What the effect of an instruction keeps, its sequencing and the end of its step keep too. -/
theorem othersKept_runSeq {r : Reg} {tr : Traits} {s t : State} {e : Except Refusal State}
    (h : runSeq tr s e = .next t) (he : ∀ w, e = .ok w → OthersKept r s w) : OthersKept r s t := by
  obtain ⟨w, u, hw, hseq, rfl⟩ := runSeq_next h
  exact (he w hw).of_samePlain ((samePlain_seqNext hseq).trans (samePlain_endOfStep _ u))

theorem othersKept_move {dst src : Reg} (hd : dst.isPlain = true) {s w : State}
    (h : s.move dst src = .ok w) : OthersKept dst s w := by
  unfold State.move at h
  split at h
  · cases h
  next v u hread =>
    obtain ⟨n, rfl⟩ := readReg_ok hread
    rw [writeReg_plain _ dst v hd] at h
    obtain rfl := Except.ok.inj h
    exact othersKept_after hd ⟨rfl, rfl, rfl⟩ v

theorem othersKept_readToppc {dst : Reg} (hd : dst.isPlain = true) {s w : State}
    (h : readToppc dst s = .ok w) : OthersKept dst s w := by
  unfold readToppc at h
  split_ifs at h
  split at h
  · cases h
  next a u hpop =>
    obtain rfl := Except.ok.inj h
    obtain ⟨as, -, rfl⟩ := popPc_ok hpop
    exact othersKept_after hd ⟨rfl, rfl, rfl⟩ _

/-- Settles O50: each of the seven is a run in sequence of a move, or of the pop of TOPPCSTACK. -/
theorem moveFromFrame : Obligations.MoveFromFrame := by
  intro s t dst i hd hi h
  simp only [List.mem_cons, List.not_mem_nil, or_false] at hi
  rcases hi with rfl | rfl | rfl | rfl | rfl | rfl | rfl
  case inr.inr.inr.inr.inr.inr => exact othersKept_runSeq h fun w => othersKept_readToppc hd
  all_goals exact othersKept_runSeq h fun w => othersKept_move hd

/-! ## IFC -/

/-- The latches that a write of IFC leaves, for the sources of a list. -/
theorem foldl_ifcOne (v : Bus) (l : List Source) (s : State) :
    ∃ r, l.foldl (State.ifcOne v) s = s.setReq r ∧ ∀ k, r.get k =
      if l.contains k && s.edge k && ifcForces s.cfg.proc v k then true
      else if l.contains k && s.edge k && ifcClears s.cfg.proc v k then false
      else s.req.get k := by
  induction l generalizing s with
  | nil => exact ⟨s.req, rfl, by simp⟩
  | cons k0 l ih =>
    obtain ⟨r0, h0, hget0⟩ := ifcOne_shape v s k0
    obtain ⟨r, hr, hget⟩ := ih (s.setReq r0)
    refine ⟨r, by rw [List.foldl_cons, h0, hr]; rfl, fun k => ?_⟩
    rw [hget k]
    have hreq : (s.setReq r0).req.get k = r0.get k := rfl
    have hedge : (s.setReq r0).edge k = s.edge k := rfl
    have hcfg : (s.setReq r0).cfg = s.cfg := rfl
    rw [hreq, hget0 k, hedge, hcfg, List.contains_cons]
    by_cases hk : k = k0
    · subst hk
      cases s.edge k <;> cases ifcForces s.cfg.proc v k <;> cases ifcClears s.cfg.proc v k <;> simp
    · simp [hk]

/-- The bits of a source on a member other than the ADSP-2101 (60_exceptions.md R272). -/
theorem ifc_positions {p : Proc} (hp : p ≠ .adsp2101) (v : Bus) (k : Source) :
    ifcClears p v k = (hasIfcBits p k && v.getLsbD (Config.ifcClearPos p k)) ∧
    ifcForces p v k = (hasIfcBits p k && v.getLsbD (Config.ifcForcePos p k)) := by
  cases p <;> first | exact absurd rfl hp | exact ⟨rfl, rfl⟩

/-- Settles O30: the positions source by source, the effect by the lemma for the sources of a list. -/
theorem ifcRule : Obligations.IfcRule := by
  refine ⟨fun v x hx => ?_, fun p v k hk => ?_, fun p v hp => ⟨fun k hk => ?_, fun k hk => ?_⟩,
    fun s v => ⟨fun h => ?_, fun h => ?_⟩⟩
  · simp only [List.mem_cons, List.not_mem_nil, or_false] at hx
    rcases hx with rfl | rfl | rfl | rfl | rfl | rfl <;> exact ⟨rfl, rfl⟩
  · simp only [List.mem_cons, List.not_mem_nil, or_false] at hk
    rcases hk with rfl | rfl <;> exact ⟨rfl, rfl⟩
  · have hbits : hasIfcBits p k = true := by
      simp only [List.mem_cons, List.not_mem_nil, or_false] at hk
      rcases hk with rfl | rfl | rfl | rfl | rfl | rfl | rfl | rfl | rfl | rfl <;> rfl
    simpa [hbits] using ifc_positions hp v k
  · have hbits : hasIfcBits p k = Config.ifcHasBits p k := by
      simp only [List.mem_cons, List.not_mem_nil, or_false] at hk
      rcases hk with rfl | rfl | rfl | rfl <;> rfl
    simpa [hbits] using ifc_positions hp v k
  · simp [State.writeIfc, h]
  · obtain ⟨r, hr, hget⟩ := foldl_ifcOne v (sources s.cfg.proc) s
    exact ⟨r, by simp [State.writeIfc, h, hr], hget⟩

end Sys2Proof.Machine
end

section
/-! The moves and loads of the registers of the sequencer (44_status_mode.md section 1): the run of a move and
of a load with any destination, and the outcome of each write. -/

namespace Sys2Proof.Machine

/-! ## The run of a move and of a load -/

/-- No write of a register names the loop stack, the PC stack or what is outside the processor. -/
theorem notMem_writePieces_loops (r : Reg) (s : State) :
    Piece.lpstk ∉ writePieces r s ∧ Piece.pcstk ∉ writePieces r s := by
  cases r with
  | astat | mstat | imask | icntl | cntr | owrcntr | ifc => simp [writePieces]
  | _ =>
    simp only [writePieces, State.movePieces]
    split <;> simp

/-- What a write leaves alone is what the sequencing asks for. -/
theorem canSequence_of_changes {r : Reg} {s w : State} (h : Changes (writePieces r s) s w)
    (hseq : s.canSequence s) : s.canSequence w ∧ w.cfg = s.cfg := by
  obtain ⟨hl, hp⟩ := notMem_writePieces_loops r s
  obtain ⟨-, ho⟩ := notMem_writePieces r s
  have hlp : w.lpstk = s.lpstk := h.same .lpstk hl
  have hpc : w.pcstk = s.pcstk := h.same .pcstk hp
  obtain ⟨-, -, -, hcfg⟩ := h.same .outside ho
  refine ⟨fun hend => ?_, hcfg⟩
  rw [hlp, hpc]
  exact hseq hend

section runs
variable {s : State} (hu : s.unguarded) (hs : s.slotFree)
include hu hs

/-- A move that is not refused is a write and the sequencing. -/
theorem runMove_next {dst src : Reg} {u w : State} {v : Bus} (hseq : s.canSequence s)
    (hp : src = .sstat → s.prevKind ≠ .toppcRead) (hread : s.readReg src = .ok (v, u))
    (hw : u.writeReg dst v = .ok w) :
    ∃ t, SeqNext s w t ∧ runMove dst src s = .next (endOfStep .other t) := by
  have hmove : s.move dst src = .ok w := (move_of_readReg hread).trans hw
  obtain ⟨hc, hcfg⟩ := canSequence_of_changes (changes_move hmove) hseq
  rw [runMove, hmove]
  exact runSeq_ok hu (hazard_moveTraits hu hs hp) hcfg hc

theorem runMove_refused {dst src : Reg} {u : State} {v : Bus} {e : Refusal}
    (hp : src = .sstat → s.prevKind ≠ .toppcRead) (hread : s.readReg src = .ok (v, u))
    (hw : u.writeReg dst v = .error e) : runMove dst src s = .refused e := by
  rw [runMove, move_of_readReg hread, hw]
  exact runSeq_refused (hazard_moveTraits hu hs hp)

/-- A load that is not refused is a write and the sequencing. -/
theorem runLoad_next {dst : Reg} {d : BitVec 14} {w : State} (hseq : s.canSequence s)
    (hw : s.writeReg dst (d.setWidth 16) = .ok w) :
    ∃ t, SeqNext s w t ∧ runLoad dst d s = .next (endOfStep .other t) := by
  obtain ⟨hc, hcfg⟩ := canSequence_of_changes (changes_writeReg hw) hseq
  rw [runLoad, hw]
  exact runSeq_ok hu (hazard_noTraits hu hs) hcfg hc

theorem runLoad_refused {dst : Reg} {d : BitVec 14} {e : Refusal}
    (hw : s.writeReg dst (d.setWidth 16) = .error e) : runLoad dst d s = .refused e := by
  rw [runLoad, hw]
  exact runSeq_refused (hazard_noTraits hu hs)

end runs

/-! ## From the registers of the sequencer -/

/-- Settles O49: a read and the write of a plain register, which is never refused. -/
theorem moveFromResult : Obligations.MoveFromResult := by
  intro s dst hd hu hs hseq
  have move {src : Reg} {u : State} {v : Bus} (hp : src = .sstat → s.prevKind ≠ .toppcRead)
      (hread : s.readReg src = .ok (v, u)) : ∃ t, SeqNext s (u.writePlain dst v) t ∧
        runMove dst src s = .next (endOfStep .other t) :=
    runMove_next hu hs hseq hp hread (writeReg_plain u dst v hd)
  refine ⟨move nofun rfl, move nofun rfl, fun hp => move (fun _ => hp) rfl, move nofun rfl,
    move nofun rfl, fun hv => move nofun (readReg_cntr_valid hv), fun hv => ?_⟩
  obtain ⟨c, n, hread⟩ := readReg_cntr_invalid hv
  exact ⟨c, n, move nofun hread⟩

/-! ## The status registers and ICNTL -/

/-- Settles O51: two writes that are never refused, from any source. -/
theorem statusWriteResult : Obligations.StatusWriteResult := by
  intro s hu hs hseq
  refine ⟨fun src hsrc hp => ?move, fun d => ?load⟩
  case move =>
    obtain ⟨v, n, hread⟩ := readReg_source s src hsrc
    obtain ⟨t, hastat⟩ := runMove_next hu hs hseq (dst := .astat) hp hread rfl
    obtain ⟨t', hmstat⟩ := runMove_next hu hs hseq (dst := .mstat) hp hread rfl
    exact ⟨v, _, t, t', hread, hastat.1, hastat.2, hmstat⟩
  case load =>
    have h8 : (d.setWidth 16 : Bus).setWidth 8 = d.setWidth 8 := by
      ext i hi
      simp
    have h7 : (d.setWidth 16 : Bus).setWidth 7 = d.setWidth 7 := by
      ext i hi
      simp
    obtain ⟨t, hastat⟩ := runLoad_next hu hs hseq (dst := .astat) (d := d) rfl
    obtain ⟨t', hmstat⟩ := runLoad_next hu hs hseq (dst := .mstat) (d := d) rfl
    rw [h8] at hastat
    rw [h7] at hmstat
    exact ⟨t, t', hastat.1, hastat.2, hmstat⟩

/-- Settles O53: the configuration that was in force is kept beside the new one. -/
theorem icntlWriteResult : Obligations.IcntlWriteResult := by
  intro s hu hs hseq
  refine ⟨fun src hsrc hp => ?move, fun d => ?load⟩
  case move =>
    obtain ⟨v, n, hread⟩ := readReg_source s src hsrc
    obtain ⟨t, ht⟩ := runMove_next hu hs hseq (dst := .icntl) hp hread rfl
    exact ⟨v, _, t, hread, ht⟩
  case load =>
    have h5 : (d.setWidth 16 : Bus).setWidth 5 = d.setWidth 5 := by
      ext i hi
      simp
    rw [← h5]
    exact runLoad_next hu hs hseq (dst := .icntl) rfl

/-! ## IMASK -/

/-- What the statement says of a value is what the model computes. -/
theorem mayUnmask_iff (s : State) (v : Bus) :
    s.mayUnmask v ↔ s.icntlKnown = true ∨ s.unmasks v = false := by
  simp [State.mayUnmask, State.unmasks]

theorem writeImask_refused {s : State} {v : Bus} (h : ¬ s.mayUnmask v) :
    s.writeImask v = .error .unmaskBeforeIcntl := by
  rw [mayUnmask_iff, not_or, Bool.not_eq_true, Bool.not_eq_false] at h
  obtain ⟨hk, hm⟩ := h
  simp [State.writeImask, hk, hm]

/-- Settles O52: by whether the value may be written. -/
theorem imaskWriteResult : Obligations.ImaskWriteResult := by
  intro s hu hs hseq
  refine ⟨fun src hsrc hp => ?move, fun d => ⟨fun hm => ?load, fun hm => ?refusedLoad⟩⟩
  case move =>
    obtain ⟨v, n, hread⟩ := readReg_source s src hsrc
    refine ⟨v, _, hread, fun hm => ?_, fun hm => ?_⟩
    · obtain ⟨t, ht⟩ := runMove_next hu hs hseq (dst := .imask) hp hread
        (writeImask_known (s := s.setFreeTick n) ((mayUnmask_iff s v).mp hm))
      exact ⟨_, t, getLsbD_imaskOf s.cfg.proc v, ht⟩
    · exact runMove_refused hu hs (dst := .imask) hp hread
        (writeImask_refused (s := s.setFreeTick n) hm)
  case load =>
    obtain ⟨t, ht⟩ := runLoad_next hu hs hseq (dst := .imask)
      (writeImask_known ((mayUnmask_iff s _).mp hm))
    refine ⟨_, t, fun j => ?_, ht⟩
    rw [getLsbD_imaskOf, BitVec.getLsbD_setWidth]
    have hwidth : wImask s.cfg.proc ≤ 10 := by cases s.cfg.proc <;> decide
    by_cases hj : j < wImask s.cfg.proc
    · simp [show j < 16 by omega]
    · simp [hj]
  case refusedLoad => exact runLoad_refused hu hs (dst := .imask) (writeImask_refused hm)

/-! ## CNTR -/

/-- A load of the counter pushes a valid count (10_state.md R18). -/
theorem loadCounter_eq (s : State) (v : Count) : s.loadCounter v =
    ((s.setCntstk (if s.cntrValid then s.cntstk.push 4 s.cntr else s.cntstk)).setCntr
      v).setCntrValid true := by
  unfold State.loadCounter
  cases s.cntrValid <;> rfl

theorem writeReg_cntr_ok {s : State} (h : s.atCeLoopEnd = false) (v : Bus) :
    s.writeReg .cntr v = .ok (s.loadCounter (v.setWidth 14)) := by
  simp [State.writeReg, State.writeCntr, h]

theorem writeReg_cntr_refused {s : State} (h : s.atCeLoopEnd = true) (v : Bus) :
    s.writeReg .cntr v = .error .cntrAtLoopEnd := by
  simp [State.writeReg, State.writeCntr, h]

/-- Settles O54: by whether the instruction ends a CE loop. -/
theorem counterLoadResult : Obligations.CounterLoadResult := by
  intro s hu hs hseq
  refine ⟨fun src hsrc hp => ?move, fun d => ⟨fun hl => ?load, fun hl => ?refusedLoad⟩⟩
  case move =>
    obtain ⟨v, n, hread⟩ := readReg_source s src hsrc
    refine ⟨fun hl => ?_, fun hl => ?_⟩
    · obtain ⟨t, ht⟩ := runMove_next hu hs hseq hp hread
        (writeReg_cntr_ok (s := s.setFreeTick n) hl v)
      rw [loadCounter_eq] at ht
      exact ⟨v, _, t, hread, ht⟩
    · exact runMove_refused hu hs hp hread (writeReg_cntr_refused (s := s.setFreeTick n) hl v)
  case load =>
    have := runLoad_next hu hs hseq (writeReg_cntr_ok hl (d.setWidth 16))
    rwa [loadCounter_eq, setWidth_bus_const] at this
  case refusedLoad => exact runLoad_refused hu hs (writeReg_cntr_refused hl _)

/-! ## IFC -/

/-- Settles O56: by whether the value has both bits of one source. -/
theorem ifcWriteResult : Obligations.IfcWriteResult := by
  intro s hu hs hseq
  obtain ⟨-, -, -, hrule⟩ := ifcRule
  refine ⟨fun src hsrc hp => ?move, fun d => ⟨fun hv => ?load, fun hv => ?refusedLoad⟩⟩
  case move =>
    obtain ⟨v, n, hread⟩ := readReg_source s src hsrc
    refine ⟨v, _, hread, fun hv => ?_, fun hv => ?_⟩
    · obtain ⟨r, hw, -⟩ := (hrule (s.setFreeTick n) v).2 hv
      obtain ⟨t, ht⟩ := runMove_next hu hs hseq (dst := .ifc) hp hread hw
      exact ⟨_, t, hw, ht⟩
    · exact runMove_refused hu hs (dst := .ifc) hp hread ((hrule (s.setFreeTick n) v).1 hv)
  case load =>
    obtain ⟨r, hw, -⟩ := (hrule s (d.setWidth 16)).2 hv
    obtain ⟨t, ht⟩ := runLoad_next hu hs hseq (dst := .ifc) hw
    exact ⟨_, t, hw, ht⟩
  case refusedLoad => exact runLoad_refused hu hs (dst := .ifc) ((hrule s _).1 hv)

end Sys2Proof.Machine
end

section
/-! The moves of TOPPCSTACK and their slot (46_toppcstack.md), and the words beyond the opcode table
(30_encoding.md section 2). -/

namespace Sys2Proof.Machine

/-! ## The moves of TOPPCSTACK -/

/-- Outside the last two instructions of a loop, a read of TOPPCSTACK is a pop and a write. -/
theorem readToppc_cons {s : State} {r : Reg} {a : Addr} {as : List Addr} (hr : r.toppcOk = true)
    (hl : s.atLoopEnd = false) (hb : s.beforeLoopEnd = false) (hpc : s.pcstk.words = a :: as) :
    readToppc r s =
      .ok ((s.setPcstk { s.pcstk with words := as }).writePlain r (a.setWidth 16)) := by
  simp [readToppc, hr, hl, hb, popPc_cons s a as hpc]

theorem readToppc_nearLoopEnd {s : State} {r : Reg} (hr : r.toppcOk = true)
    (h : (s.atLoopEnd || s.beforeLoopEnd) = true) :
    readToppc r s = .error .toppcReadNearLoopEnd := by
  simp [readToppc, hr, h]

/-- Settles O57: no hazard, and no loop end to come. -/
theorem toppcReadResult : Obligations.ToppcReadResult := by
  intro s r hr hu hs
  have hh : hazard { pcStack := true, kind := .toppcRead } s = none := hazard_none_stack hu hs nofun
  refine ⟨fun a as hl hb hpc => ?_, fun h => ?_⟩
  · rw [exec_fromToppcstack, readToppc_cons hr hl hb hpc]
    exact runSeq_next_address hh hl
  · rw [exec_fromToppcstack, readToppc_nearLoopEnd hr h]
    exact runSeq_refused hh

theorem writeToppc_ok {r : Reg} (hr : r.toppcOk = true) (s : State) :
    writeToppc r s = .ok (s.setPcstk (s.pcstk.push 16 ((s.readPlain r).setWidth 14))) := by
  simp only [writeToppc, hr, Bool.not_true, Bool.false_eq_true, if_false]
  rfl

/-- Settles O58: a push and the sequencing. -/
theorem toppcWriteResult : Obligations.ToppcWriteResult := by
  intro s r hr hu hs hseq
  have hh : hazard { pcStack := true, kind := .toppcWrite } s = none := hazard_none_stack hu hs nofun
  rw [exec_toToppcstack, writeToppc_ok hr]
  exact runSeq_ok hu hh rfl hseq

/-! ## Their slot -/

/-- Every instruction is a run, which asks for its hazards first. -/
theorem exec_eq_run (i : Instr) (s : State) : ∃ tr e, exec i s = run tr s e := by
  have seq (tr : Traits) (e : Except Refusal State) : ∃ tr' e', runSeq tr s e = run tr' s e' :=
    ⟨_, _, rfl⟩
  have mode (f : ModeFields) : ∃ tr e, runMode f s = run tr s e := seq _ _
  have load (dst : Reg) (d : BitVec 14) : ∃ tr e, runLoad dst d s = run tr s e := seq _ _
  cases i with
  | nop => exact seq {} (.ok s)
  | jump a => exact ⟨_, _, exec_jump a s⟩
  | call a => exact ⟨_, _, exec_call a s⟩
  | jumpInd x => exact ⟨_, _, exec_jumpInd x s⟩
  | callInd x => exact ⟨_, _, exec_callInd x s⟩
  | flagInJump a => exact ⟨_, _, exec_flagInJump a s⟩
  | notFlagInJump a => exact ⟨_, _, exec_notFlagInJump a s⟩
  | flagInCall a => exact ⟨_, _, exec_flagInCall a s⟩
  | notFlagInCall a => exact ⟨_, _, exec_notFlagInCall a s⟩
  | idle => exact ⟨_, _, exec_idle s⟩
  | idleN n => exact ⟨_, _, exec_idleN n s⟩
  | ifJump | ifJumpInd | ifCall | ifCallInd | rts | ifRts | rti | ifRti => exact ⟨_, _, rfl⟩
  | enaTimer | disTimer | enaMMode | disMMode | enaArSat | disArSat | enaAvLatch | disAvLatch
  | enaBitRev | disBitRev | enaSecReg | disSecReg | enaGMode | disGMode => exact mode _
  | astatConst d => exact load .astat d
  | mstatConst d => exact load .mstat d
  | icntlConst d => exact load .icntl d
  | _ => exact seq _ _

theorem run_of_hazard {tr : Traits} {s : State} {r : Refusal} (h : hazard tr s = some r)
    (e : Except Refusal (State × Machine.Flow)) : run tr s e = .refused r := by
  simp [run, h]

/-- After a read, whatever touches the PC stack or SSTAT (46_toppcstack.md R222). -/
theorem hazard_afterRead {tr : Traits} {s : State} (hp : s.prevKind = .toppcRead)
    (h : (tr.pcStack || s.atLoopEnd) = true) : hazard tr s = some .afterToppcRead := by
  simp [hazard, hp, h]

/-- After a write, RTI (46_toppcstack.md R228). -/
theorem hazard_rtiAfterWrite {tr : Traits} {s : State} (hp : s.prevKind = .toppcWrite)
    (h : tr.rti = true) : hazard tr s = some .rtiAfterToppc := by
  simp [hazard, hp, h]

/-- With the guard on, the returns up to two instructions after a move (46_toppcstack.md R231). -/
theorem hazard_restriction4 {tr : Traits} {s : State} (hg : s.cfg.guardRestriction4 = true)
    (hr : tr.returns = true) (hp : s.prevKind = .toppcWrite ∧ tr.rti = false ∨
      s.prevKind = .other ∧ s.prev2Kind ≠ .other) : hazard tr s = some .restriction4 := by
  rcases hp with ⟨hp, hi⟩ | ⟨hp, hp2⟩
  · simp [hazard, hp, hi, hg, hr]
  · simp [hazard, hp, hp2, hg, hr]

/-- Settles O59: which hazard holds for which instruction. -/
theorem toppcSlot : Obligations.ToppcSlot := by
  intro s
  refine ⟨fun hp i hi => ?read, fun hp => ?write, fun hg => ⟨fun hp => ?guard, fun hp hp2 => ?rti⟩⟩
  case read =>
    have listed {tr : Traits} (h : tr.pcStack = true) (e : Except Refusal (State × Machine.Flow)) :
        run tr s e = .refused .afterToppcRead :=
      run_of_hazard (hazard_afterRead hp (by simp [h])) e
    have called (e : Except Refusal (State × Machine.Flow)) :
        run callTraits s e = .refused .afterToppcRead := listed rfl e
    have moved (dst : Reg) : runMove dst .sstat s = .refused .afterToppcRead := listed rfl _
    rcases hi with ⟨a, rfl⟩ | ⟨c, a, rfl⟩ | ⟨x, rfl⟩ | ⟨c, x, rfl⟩ | ⟨a, rfl⟩ | ⟨a, rfl⟩ | rfl |
      ⟨c, rfl⟩ | rfl | ⟨c, rfl⟩ | ⟨a, t, rfl⟩ | ⟨l, c, p, rfl⟩ | ⟨r, rfl⟩ | ⟨r, rfl⟩ | ⟨r, rfl⟩ |
      hi | hl
    · exact (exec_call a s).trans (called _)
    · exact (exec_ifCall c a s).trans (called _)
    · exact (exec_callInd x s).trans (called _)
    · exact (exec_ifCallInd c x s).trans (called _)
    · exact (exec_flagInCall a s).trans (called _)
    · exact (exec_notFlagInCall a s).trans (called _)
    · exact (exec_rts s).trans (listed rfl _)
    · exact (exec_ifRts c s).trans (listed rfl _)
    · exact (exec_rti s).trans (listed rfl _)
    · exact (exec_ifRti c s).trans (listed rfl _)
    · exact (exec_doUntil a t s).trans (listed rfl _)
    · exact (exec_popPc l c p s).trans (listed rfl _)
    · exact (exec_fromToppcstack r s).trans (listed rfl _)
    · exact (exec_toToppcstack r s).trans (listed rfl _)
    · exact moved r
    · simp only [List.mem_cons, List.not_mem_nil, or_false] at hi
      rcases hi with rfl | rfl | rfl | rfl | rfl | rfl | rfl
      exacts [moved .astat, moved .mstat, moved .imask, moved .icntl, moved .cntr, moved .ifc,
        moved .owrcntr]
    · obtain ⟨tr, e, h⟩ := exec_eq_run i s
      rw [h]
      exact run_of_hazard (hazard_afterRead hp (by simp [hl])) e
  case write =>
    exact ⟨run_of_hazard (hazard_rtiAfterWrite hp rfl) _,
      fun c => run_of_hazard (hazard_rtiAfterWrite hp rfl) _⟩
  case guard =>
    have refused {tr : Traits} (hr : tr.returns = true) (hi : tr.rti = false)
        (e : Except Refusal (State × Machine.Flow)) : run tr s e = .refused .restriction4 :=
      run_of_hazard (hazard_restriction4 hg hr (hp.imp_left fun h => ⟨h, hi⟩)) e
    refine ⟨refused rfl rfl _, fun c => refused rfl rfl _, fun lp cp spp i hi => ?_⟩
    rw [exec_stackRows hi]
    exact refused rfl rfl _
  case rti =>
    have hh {tr : Traits} (hr : tr.returns = true) : hazard tr s = some .restriction4 :=
      hazard_restriction4 hg hr (.inr ⟨hp, hp2⟩)
    exact ⟨run_of_hazard (hh rfl) _, fun c => run_of_hazard (hh rfl) _⟩

/-! ## Words beyond the opcode table -/

/-- A run is refused or has a next state: no instruction of this machine stops with a fault. -/
theorem run_cases (tr : Traits) (s : State) (e : Except Refusal (State × Machine.Flow)) :
    (∃ r, run tr s e = .refused r) ∨ ∃ t, run tr s e = .next t := by
  unfold run
  split
  · exact .inl ⟨_, rfl⟩
  · split
    · exact .inl ⟨_, rfl⟩
    · split
      · exact .inl ⟨_, rfl⟩
      · exact .inr ⟨_, rfl⟩

/-- Settles O60: an inert word runs as NOP, the moves and loads as those of the table, and the rest by the
frame of the words outside the spec. -/
theorem beyondTheTable : Obligations.BeyondTheTable := by
  intro s hu hs hseq
  refine ⟨rfl, fun dst src hd hsrc => ?_, fun dst data hd => ?_, fun w => ?_⟩
  · have hp : src = .sstat → s.prevKind ≠ .toppcRead := fun h => by subst h; cases hsrc
    exact runMove_next hu hs hseq hp (readReg_plain s src hsrc) (writeReg_plain s dst _ hd)
  · exact runLoad_next hu hs hseq (writeReg_plain s dst _ hd)
  · exact (run_cases _ s _).imp_right fun ⟨t, h⟩ => ⟨t, h, kept_outOfScope h⟩

end Sys2Proof.Machine
end

section
/-! The step (40_sequencer.md R95): which instruction it runs, the word placed for it, reset and idle. -/

namespace Sys2Proof.Machine

/-! ## Words and fetching -/

/-- Settles O1: twelve evaluations of the decoder. -/
theorem wordsDecode : Obligations.WordsDecode :=
  ⟨rfl, rfl, rfl, rfl, rfl, rfl, rfl, rfl, rfl, rfl, rfl, rfl⟩

/-- The decoder of a machine admits what `decode` reads, but for the two INTS words without a listing. -/
theorem decodeFor_of_decode {c : Cfg} {w : Insn} {d : Decoded} (h : decode w = d)
    (hl : d = .instr .enaInts ∨ d = .instr .disInts → c.intsListed = true) : decodeFor c w = d := by
  unfold decodeFor
  split
  next hw =>
    obtain rfl := hw.symm.trans h
    simp [hl (.inl rfl)]
  next hw =>
    obtain rfl := hw.symm.trans h
    simp [hl (.inr rfl)]
  next => exact h

theorem decodeFor_unlisted {c : Cfg} {w : Insn} {i : Instr} (h : decode w = .instr i)
    (hi : i = .enaInts ∨ i = .disInts) (hl : c.intsListed = false) :
    decodeFor c w = .reject .unlistedWord := by
  rcases hi with rfl | rfl <;> simp [decodeFor, h, hl]

/-- Where nothing comes before the instruction, a step fetches and runs. -/
theorem step_fetch {s : State} (hr : s.resetAsserted = false) (hn : s.takeInputs.serviceable = none)
    (hi : s.takeInputs.idle = false) : step s = fetchAndRun s.takeInputs := by
  simp only [step, stepRunning, hr, hn, hi, Bool.false_eq_true, if_false]

/-- Settles O4: the fetch, then what the decoder of the machine makes of the word. -/
theorem stepRunsDecoded : Obligations.StepRunsDecoded := by
  intro s hr hn hi
  rw [step_fetch hr hn hi]
  refine ⟨fun w hw => ?word, fun hstored => ?stored⟩
  case word =>
    have hrun {d : Decoded} (h : decodeFor s.cfg w = d) :
        fetchAndRun s.takeInputs = execDecoded d s.takeInputs := by
      simp only [fetchAndRun, hw, State.takeInputs_cfg, h]
    refine ⟨fun i h hl => ?_, fun i h hii hl => ?_, fun b h => ?_, fun e h => ?_⟩
    · exact hrun (decodeFor_of_decode h (by simpa using hl))
    · exact hrun (decodeFor_unlisted h hii hl)
    · exact hrun (decodeFor_of_decode h (by simp))
    · exact hrun (decodeFor_of_decode h (by simp))
  case stored =>
    have hnone : s.takeInputs.fetch = none := by simp [State.fetch, hstored]
    simp [fetchAndRun, hnone, hstored]

/-- Settles O5: the laws of program memory, of which no location has then been stored to. -/
theorem placedWordIsFetched : Obligations.PlacedWordIsFetched := by
  intro s nbits w hm
  exact ⟨readWord_writeWord_same s.pm s.pc _, wf_writeWord s.pm s.pc _ hm,
    fun b hb => readWord_writeWord_other s.pm s.pc b _ hb, rfl⟩

/-! ## Reset -/

/-- Settles O6: field by field of the state after reset. -/
theorem resetValues : Obligations.ResetValues :=
  ⟨rfl, rfl, rfl, rfl, rfl, fun k => by cases k <;> rfl, rfl, rfl, rfl, rfl, rfl, rfl, rfl, rfl, rfl,
    rfl⟩

/-- Settles O7: the restart has the values of reset, and the inputs leave memory and the configuration. -/
theorem resetWins : Obligations.ResetWins := by
  intro s hr
  have hsstat : s.takeInputs.restart.sstat = State.reset.sstat := rfl
  refine ⟨s.takeInputs.restart, by simp [step, hr], rfl, rfl, hsstat.trans rfl, rfl, rfl, rfl, rfl,
    fun k => by cases k <;> rfl, rfl, rfl, rfl, rfl, rfl, rfl, rfl, rfl, rfl, rfl, rfl, rfl,
    fun key => ?_, s.takeInputs_pm, s.takeInputs_cfg, rfl⟩
  exact congrArg (Memory.readByte · key) s.takeInputs_pm

/-! ## Idle -/

/-- Settles O20: the wait, and what the inputs can change. -/
theorem idleWaits : Obligations.IdleWaits := by
  intro s hr hidle hn
  refine ⟨?_, takeInputs_shape s⟩
  simp only [step, stepRunning, hr, hn, State.takeInputs_idle, hidle, Bool.false_eq_true, if_false,
    if_true]

end Sys2Proof.Machine
end

section
/-! Interrupts (60_exceptions.md): the priority of the sources, what requests one, the entry, and the late
effects of IMASK and ICNTL. -/

namespace Sys2Proof.Machine

/-! ## Levels and vectors -/

theorem level_vector (p : Proc) : ∀ k ∈ sources p,
    (vector p k).toNat + 4 * level p k = (vector p .timer).toNat ∧ level p k < wImask p := by
  cases p <;> decide

/-- The table of a member is in falling order of level (60_exceptions.md R257). -/
theorem sources_pairwise (p : Proc) : (sources p).Pairwise fun j k => level p k < level p j := by
  cases p <;> decide

/-- Settles O13: the tables, member by member. -/
theorem levelsFollowVectors : Obligations.LevelsFollowVectors := by
  refine ⟨level_vector, sources_pairwise, by decide, by decide, by decide, by decide, by decide,
    by decide, by decide, fun c => Nat.le_add_right _ _⟩

/-! ## The highest source -/

/-- In a list of falling values the first that passes a test has the greatest value of those. -/
theorem find?_eq_some_iff_greatest {α : Type} {f : α → Bool} {val : α → Nat} {l : List α} {k : α}
    (hl : l.Pairwise fun j k => val k < val j) :
    l.find? f = some k ↔ k ∈ l ∧ f k = true ∧ ∀ j ∈ l, f j = true → val j ≤ val k := by
  induction l with
  | nil => simp
  | cons x xs ih =>
    obtain ⟨hx, hxs⟩ := List.pairwise_cons.1 hl
    cases hf : f x with
    | true =>
      rw [List.find?_cons_of_pos hf, Option.some.injEq]
      constructor
      · rintro rfl
        refine ⟨List.mem_cons_self, hf, fun j hj _ => ?_⟩
        rcases List.mem_cons.1 hj with rfl | hj
        · exact le_rfl
        · exact (hx j hj).le
      · rintro ⟨hk, -, hmax⟩
        rcases List.mem_cons.1 hk with rfl | hk
        · rfl
        · exact absurd (hmax x List.mem_cons_self hf) (hx k hk).not_ge
    | false =>
      rw [List.find?_cons_of_neg (by simp [hf]), ih hxs]
      constructor
      · rintro ⟨hk, hfk, hmax⟩
        refine ⟨List.mem_cons_of_mem x hk, hfk, fun j hj hfj => ?_⟩
        rcases List.mem_cons.1 hj with rfl | hj
        · simp [hf] at hfj
        · exact hmax j hj hfj
      · rintro ⟨hk, hfk, hmax⟩
        rcases List.mem_cons.1 hk with rfl | hk
        · simp [hf] at hfk
        · exact ⟨hk, hfk, fun j hj => hmax j (List.mem_cons_of_mem x hj)⟩

theorem serviceable_iff (s : State) (k : Source) : s.serviceable = some k ↔
    (hasGlobalInts s.cfg.proc = false ∨ s.intsEff = true) ∧ s.imaskHoldoff = 0 ∧
    k ∈ sources s.cfg.proc ∧ s.requested k = true ∧ s.enabled k = true ∧
    ∀ j ∈ sources s.cfg.proc, s.requested j = true → s.enabled j = true →
      level s.cfg.proc j ≤ level s.cfg.proc k := by
  unfold State.serviceable
  split_ifs with hg hh
  · simp only [Bool.and_eq_true, Bool.not_eq_true'] at hg
    obtain ⟨hhas, heff⟩ := hg
    simp [hhas, heff]
  · simp only [bne_iff_ne, ne_eq] at hh
    simp [hh]
  · have hg' : hasGlobalInts s.cfg.proc = false ∨ s.intsEff = true := by
      simpa only [Bool.and_eq_true, Bool.not_eq_true', not_and_or, Bool.not_eq_true,
        Bool.not_eq_false] using hg
    have hh' : s.imaskHoldoff = 0 := by simpa using hh
    rw [find?_eq_some_iff_greatest (sources_pairwise s.cfg.proc)]
    simp only [Bool.and_eq_true, and_imp, and_assoc, hg', hh', true_and]

/-! ## Requests -/

/-- A pin changes only its own level, and latches on a fall of an edge-sensitive one. -/
theorem applyInput_pin {s : State} {k : Source} (hs : hasSource s.cfg.proc k = true)
    (hx : isExternal s.cfg k = true) (low : Bool) : applyInput s (.pin k low) =
      (s.setPins (s.pins.set k low)).setReq
        (if s.edge k && low && !s.pins.get k then s.req.set k true else s.req) := by
  simp only [applyInput, hs, hx, Bool.and_self, if_true]
  split <;> rfl

/-- What one change of a pin does (60_exceptions.md R252, R253). -/
theorem pin_effect {s : State} {k : Source} (hs : hasSource s.cfg.proc k = true)
    (hx : isExternal s.cfg k = true) (low : Bool) :
    (applyInput s (.pin k low)).pins.get k = low ∧
    (s.edge k = true → low = true → s.pins.get k = false →
      (applyInput s (.pin k low)).req.get k = true) ∧
    (s.edge k = false ∨ low = false ∨ s.pins.get k = true → (applyInput s (.pin k low)).req = s.req) ∧
    (s.edge k = false → (applyInput s (.pin k low)).requested k = low) ∧
    ∀ j, j ≠ k → (applyInput s (.pin k low)).pins.get j = s.pins.get j ∧
      (applyInput s (.pin k low)).req.get j = s.req.get j := by
  rw [applyInput_pin hs hx low]
  refine ⟨?_, fun he hlow hpin => ?_, fun h => ?_, fun he => ?_, fun j hj => ⟨?_, ?_⟩⟩
  · exact (get_set _ _ _ _).trans (if_pos rfl)
  · simp [he, hlow, hpin, get_set]
  · rcases h with h | h | h <;> simp [h]
  · have hedge (q r : SourceBits) : ((s.setPins q).setReq r).edge k = false := he
    unfold State.requested
    rw [hedge]
    simp [get_set]
  · exact (get_set _ _ _ _).trans (if_neg hj)
  · simp only [State.setReq_req]
    split
    · rw [get_set, if_neg hj]
    · rfl

theorem event_latches {s : State} {k : Source} (hs : hasSource s.cfg.proc k = true)
    (hx : isExternal s.cfg k = false) (ht : k ≠ .timer ∨ s.mstat.getLsbD 5 = true) :
    applyInput s (.event k) = s.setReq (s.req.set k true) := by
  have hc : (k != .timer || s.mstat.getLsbD 5) = true := by simpa using ht
  simp only [applyInput, hs, hx, hc, Bool.not_false, Bool.and_self, if_true]
  rfl

/-- Settles O14: the greatest of a table in falling order; then the sensitivities and the inputs by cases. -/
theorem serviceableIsHighest : Obligations.ServiceableIsHighest := by
  refine ⟨serviceable_iff, fun s k => ⟨fun h => by simp [State.requested, h],
    fun h => by simp [State.requested, h]⟩, fun s => ⟨rfl, ?tx, ?rx, rfl, rfl, ?internal⟩,
    fun s k low hs hk => pin_effect hs ?external low, fun s k hs hk => ?event, fun s hm => ?timer⟩
  case tx | rx =>
    unfold State.edge edgeUnder sensitivityBit
    cases s.cfg.sport1IsIrq <;> rfl
  case internal =>
    intro k hk
    simp only [List.mem_cons, List.not_mem_nil, or_false] at hk
    rcases hk with rfl | rfl | rfl | rfl | rfl | rfl | rfl | rfl | rfl | rfl | rfl <;> rfl
  case external =>
    simp only [List.mem_cons, List.not_mem_nil, or_false] at hk
    rcases hk with (rfl | rfl | rfl | rfl) | ⟨hirq, rfl | rfl⟩
    all_goals first | rfl | exact hirq
  case event =>
    simp only [List.mem_cons, List.not_mem_nil, or_false] at hk
    rcases hk with (rfl | rfl | rfl | rfl | rfl | rfl | rfl | rfl | rfl) | ⟨hirq, rfl | rfl⟩ | ⟨rfl, ht⟩
    case inr.inr => exact event_latches hs rfl (.inr ht)
    case inr.inl.inl | inr.inl.inr => exact event_latches hs hirq (.inl (by decide))
    all_goals exact event_latches hs rfl (.inl (by decide))
  case timer =>
    simp only [applyInput, hm, bne_self_eq_false, Bool.or_self, Bool.and_false, Bool.false_eq_true,
      if_false]

/-! ## The entry -/

/-- An entry changes the stacks of R260, IMASK, the latch and idle. -/
theorem sameBut_takeInterrupt (k : Source) (s : State) :
    SameBut [.pcstk, .ststk, .imask, .idle, .req] s (takeInterrupt k (s.setIdle false)) := by
  rw [takeInterrupt_shape]
  intro p hp
  cases p <;> first | exact absurd hp (by decide) | simp [Piece.same]

theorem pending_takeInterrupt (k : Source) (s : State) :
    Pending s (takeInterrupt k (s.setIdle false)) := by
  rw [takeInterrupt_shape]
  exact fun h => ⟨h, rfl, rfl, rfl, rfl⟩

/-- An entry clears the latch of an edge-sensitive source and no other. -/
theorem takeInterrupt_req (k j : Source) (s : State) :
    (takeInterrupt k (s.setIdle false)).req.get j =
      if j = k ∧ s.edge k = true then false else s.req.get j := by
  have hedge : (s.setIdle false).edge k = s.edge k := rfl
  rw [takeInterrupt_shape, hedge]
  cases s.edge k <;> simp [get_set]

/-- The latches after the step of an entry: those of the entry, but for what a new ICNTL frees (U13). -/
theorem enterInterrupt_req (k j : Source) (s : State) :
    (enterInterrupt k s).req.get j = (if j = k ∧ s.edge k = true then false else s.req.get j) ∨
      (s.freed j ∧ ¬(j = k ∧ s.edge k = true)) := by
  have hreq := takeInterrupt_req k j s
  rcases endOfStep_req .other (takeInterrupt k (s.setIdle false)) j with h | ⟨hd, hs, hr⟩
  · exact .inl (h.trans hreq)
  · have hpins : (takeInterrupt k (s.setIdle false)).pins = s.pins := by simp [takeInterrupt_shape]
    have hedge : (takeInterrupt k (s.setIdle false)).edge j = s.edge j := by
      rw [takeInterrupt_shape]; rfl
    have hunder : edgeUnder (takeInterrupt k (s.setIdle false)).cfg
        (takeInterrupt k (s.setIdle false)).icntl j = edgeUnder s.cfg s.icntl j := by
      rw [takeInterrupt_shape]; rfl
    have hdelay : s.icntlDelay = 1 := (pending_takeInterrupt k s hd).1
    rw [hedge, hunder] at hs
    rw [State.requested, hedge, hreq, hpins] at hr
    by_cases hk : j = k ∧ s.edge k = true
    · obtain ⟨rfl, he⟩ := hk
      simp [he] at hr
    · rw [if_neg hk] at hr
      exact .inr ⟨⟨hdelay, hs, hr⟩, hk⟩

theorem step_enters {s : State} {k : Source} (hr : s.resetAsserted = false)
    (hk : s.takeInputs.serviceable = some k) : step s = .next (enterInterrupt k s.takeInputs) := by
  simp only [step, stepRunning, hr, hk, Bool.false_eq_true, if_false]

/-- Settles O15: the entry and the end of its step, from the state with the inputs taken. -/
theorem entryEffect : Obligations.EntryEffect := by
  intro s k hr hk
  refine ⟨_, step_enters hr hk, ?_, ?_, ?_, ?_, ?_, fun j => enterInterrupt_req k j s.takeInputs,
    kept_endOfStep (sameBut_takeInterrupt k _) (.inl rfl) (pending_takeInterrupt k _)⟩
  all_goals unfold enterInterrupt
  all_goals simp [takeInterrupt_shape, State.icntlEff, pcDepth]

/-! ## The late effects of IMASK and ICNTL -/

/-- A write of IMASK, by a load or by a move, ends in a run in sequence. -/
theorem imaskWrite_next {s t : State} {w : Instr} (hhas : hasHoldoff s.cfg.proc = true)
    (hw : (∃ d, w = .imaskConst d) ∨ ∃ src, w = .toImask src) (h : exec w s = .next t) :
    t.imaskHoldoff = 1 := by
  have written {s1 u : State} {v : Bus} (hcfg : u.cfg = s.cfg) (h1 : u.writeReg .imask v = .ok s1) :
      s1.imaskHoldoff = 2 := by
    obtain ⟨-, rfl⟩ := writeImask_ok h1
    simp [hcfg, hhas]
  have ended {s1 v : State} (hs1 : s1.imaskHoldoff = 2) (hseq : SeqNext s s1 v) :
      (endOfStep .other v).imaskHoldoff = 1 := by
    have hv : v.imaskHoldoff = s1.imaskHoldoff := by cases hseq <;> rfl
    simp [hv, hs1]
  rcases hw with ⟨d, rfl⟩ | ⟨src, rfl⟩
  · obtain ⟨s1, v, h1, hseq, rfl⟩ := runSeq_next h
    exact ended (written rfl h1) hseq
  · obtain ⟨s1, v, h1, hseq, rfl⟩ := runSeq_next h
    unfold State.move at h1
    split at h1
    · cases h1
    next b r hread =>
      obtain ⟨n, rfl⟩ := readReg_ok hread
      exact ended (written (u := s.setFreeTick n) rfl h1) hseq

/-- Settles O18: the write leaves one boundary of hold-off, and the frame of the next instruction ages it. -/
theorem holdoffLastsOneInstruction : Obligations.HoldoffLastsOneInstruction := by
  intro s t u w i hhas hw _ hwf hexec hnext
  have ht : t.imaskHoldoff = 1 := imaskWrite_next hhas hw hexec
  refine ⟨ht, ?_, fun hp => ?_⟩
  · simp [State.serviceable, ht]
  · have hkept : u.imaskHoldoff = t.imaskHoldoff - 1 := instructionFrame i t u hwf hnext .holdoff hp
    rw [hkept, ht]

/-- A write of ICNTL, by a load or by a move, is read at once and leaves the old configuration in force. -/
theorem icntlWrite_next {s t : State} {w : Instr} {v : BitVec 5}
    (hw : (∃ d, w = .icntlConst d ∧ v = d.setWidth 5) ∨
      ∃ src b r, w = .toIcntl src ∧ s.readReg src = .ok (b, r) ∧ v = b.setWidth 5)
    (h : exec w s = .next t) : t.icntl = v ∧ t.icntlDelay = 1 ∧ t.icntlOld = s.icntlEff := by
  have ended {x : State} (hseq : SeqNext s (s.setIcntl v s.icntlEff 2) x ∨
      ∃ n, SeqNext s ((s.setFreeTick n).setIcntl v s.icntlEff 2) x) :
      (endOfStep .other x).icntl = v ∧ (endOfStep .other x).icntlDelay = 1 ∧
        (endOfStep .other x).icntlOld = s.icntlEff := by
    have hx : x.icntl = v ∧ x.icntlDelay = 2 ∧ x.icntlOld = s.icntlEff := by
      rcases hseq with hseq | ⟨n, hseq⟩ <;> cases hseq <;> exact ⟨rfl, rfl, rfl⟩
    obtain ⟨hval, hdelay, hold⟩ := hx
    simp [hval, hdelay, hold]
  rcases hw with ⟨d, rfl, rfl⟩ | ⟨src, b, r, rfl, hread, rfl⟩
  · rw [exec_icntlConst, runLoad] at h
    obtain ⟨s1, x, h1, hseq, rfl⟩ := runSeq_next h
    cases h1
    have hd : (d.setWidth 16 : Bus).setWidth 5 = d.setWidth 5 := by
      ext i hi
      simp
    rw [State.writeIcntl, hd] at hseq
    exact ended (.inl hseq)
  · obtain ⟨s1, x, h1, hseq, rfl⟩ := runSeq_next h
    rw [move_of_readReg hread] at h1
    obtain ⟨n, rfl⟩ := readReg_ok hread
    cases h1
    exact ended (.inr ⟨n, hseq⟩)

/-- Settles O19: the write leaves a delay of one boundary, and the frame of the next instruction ends it. -/
theorem icntlIsOneStepLate : Obligations.IcntlIsOneStepLate := by
  intro s t u w i v hw _ hwf hexec hnext
  obtain ⟨hval, hdelay, hold⟩ := icntlWrite_next hw hexec
  refine ⟨hval, by simp [State.icntlEff, hdelay, hold], fun hp => ?_⟩
  obtain ⟨hkept, haged, -, -⟩ := instructionFrame i t u hwf hnext .icntl hp
  exact ⟨hkept, by simp [State.icntlEff, haged, hdelay, hkept]⟩

end Sys2Proof.Machine
end
